-- ==== Sys2Proof/Word.lean ====
section
/-! DEFINITION. The word types of the core (00_scope.md R6, R7): an octet and a 32-bit word. -/

namespace Sys2Proof

/-- An octet of a byte string (R7). -/
abbrev Byte := BitVec 8

/-- A 32-bit word: a CSR, an argument, a word of SM3 or SM4 (R6, R8). -/
abbrev Word := BitVec 32

end Sys2Proof
end

