-- ==== Sys2Proof/Config.lean ====
section
/-! DEFINITION. What an implementation of the core fixes, and the values the spec leaves free. -/

namespace Sys2Proof

/-- One answer of the entropy port (60_exceptions.md R420): a 32-byte string, given as the unsigned integer
whose big-endian encoding it is, or `none` for `fail`. -/
abbrev Draw := Option (BitVec 256)

/-- `LMEM_SIZE` of the reference configuration (00_scope.md R5). The parameter itself is open and stands in
State (log 1). -/
def Config.referenceLmemSize : Nat := 65536

/-- What an LMEM byte that the memory does not list reads as. The spec leaves LMEM after power-on
unspecified (10_state.md R66). DESIGN CHOICE, unsafe: log 2. -/
def Config.unlistedByte : Byte := 0

/-- FREE VALUE: the entropy port's answer to draw number `k` for which the state prescribes none
(60_exceptions.md R420: any 32-byte string, or `fail`). Log 6. -/
opaque Config.entropyAnswer : Nat → Draw

/-- FREE VALUE: what host read number `k` of LMEM or `SM3_V` while busy returns (20_memory.md R106,
10_state.md R60: an unspecified value). Log 8. -/
opaque Config.busyReadValue : Nat → Word

end Sys2Proof
end

