-- ==== Sys2Proof/Syntax.lean ====
section
/-! DEFINITION. The syntax of the core: its 45 commands with their flags (30_encoding.md R140, R146), and the
assembler lines of R151. -/

namespace Sys2Proof

/-- FSEL: the field of a modular arithmetic command (R140). -/
inductive FieldSel where
  /-- FSEL = 0, modulus p -/
  | fp
  /-- FSEL = 1, modulus n -/
  | fn
deriving DecidableEq, Repr

/-- PAD: the padding of an SM4 mode command (R140). -/
inductive Padding where
  /-- PAD = 0, `none` -/
  | unpadded
  /-- PAD = 1, PKCS#7 -/
  | pkcs7
deriving DecidableEq, Repr

/-- COMP: the form PENC writes (R140). -/
inductive PointForm where
  /-- COMP = 0 -/
  | uncompressed
  /-- COMP = 1 -/
  | compressed
deriving DecidableEq, Repr

/-- LAYOUT: the order of the parts of an SM2 ciphertext (R140, 44_sm2_protocols.md R366). -/
inductive Layout where
  /-- LAYOUT = 0 -/
  | c1c3c2
  /-- LAYOUT = 1 -/
  | c1c2c3
deriving DecidableEq, Repr

/-- PREHASH: what the message operand of SIGN and VERIFY is (R140). -/
inductive MsgForm where
  /-- PREHASH = 0: a message to hash with Z -/
  | message
  /-- PREHASH = 1: a digest -/
  | digest
deriving DecidableEq, Repr

/-- USEID, USEIDB: where an identifier comes from (R140, 44_sm2_protocols.md R360). -/
inductive IdSource where
  /-- flag 0: the default ID -/
  | defaultId
  /-- flag 1: the ID bytes in LMEM -/
  | lmemId
deriving DecidableEq, Repr

/-- ROLE: the party that runs KEYX (R140). -/
inductive Role where
  /-- ROLE = 0 -/
  | initiator
  /-- ROLE = 1, `isRecipient` -/
  | responder
deriving DecidableEq, Repr

/-- The commands of the opcode table (R146), one constructor a row, each with its legal flags. Operands are not
part of the command word: they stand in the latched arguments and LMEM (R144). -/
inductive Instr where
  | fred (f : FieldSel)
  | fadd (f : FieldSel)
  | fsub (f : FieldSel)
  | fmul (f : FieldSel)
  | fsqr (f : FieldSel)
  | fneg (f : FieldSel)
  | finv (f : FieldSel)
  | fpow (f : FieldSel)
  | fsqrt (f : FieldSel)
  | fiszero (f : FieldSel)
  | fisodd (f : FieldSel)
  | feq (f : FieldSel)
  | fbinv (f : FieldSel)
  | sm3init
  | sm3upd
  | sm3fin
  | sm3cf
  | sm3hash
  | hmac
  | hkdf
  | sm4key
  | sm4eblk
  | sm4dblk
  | sm4ecbe (pad : Padding)
  | sm4ecbd (pad : Padding)
  | sm4cbce (pad : Padding)
  | sm4cbcd (pad : Padding)
  | pvalid
  | padd
  | pdbl
  | pneg
  | pmul
  | pmulg
  | pj2a
  | penc (form : PointForm)
  | pdec
  | kdf
  | zval (id : IdSource)
  | keygen
  | sign (msg : MsgForm) (id : IdSource)
  | verify (msg : MsgForm) (id : IdSource)
  | enc (layout : Layout)
  | dec (layout : Layout)
  | keyx (idA : IdSource) (idB : IdSource) (role : Role)
  | ecdh
deriving DecidableEq, Repr

/-- The mnemonics of the opcode table (R146), without flags. -/
inductive Mnemonic where
  | fred | fadd | fsub | fmul | fsqr | fneg | finv | fpow | fsqrt | fiszero | fisodd | feq | fbinv
  | sm3init | sm3upd | sm3fin | sm3cf | sm3hash | hmac | hkdf
  | sm4key | sm4eblk | sm4dblk | sm4ecbe | sm4ecbd | sm4cbce | sm4cbcd
  | pvalid | padd | pdbl | pneg | pmul | pmulg | pj2a | penc | pdec
  | kdf | zval | keygen | sign | verify | enc | dec | keyx | ecdh
deriving DecidableEq, Repr

/-- The suffixes of an assembler line (R151). -/
inductive Suffix where
  /-- `.p`, FSEL = 0, the default -/
  | p
  /-- `.n`, FSEL = 1 -/
  | n
  /-- `.pkcs7`, PAD = 1 -/
  | pkcs7
  /-- `.comp`, COMP = 1 -/
  | comp
  /-- `.c1c2c3`, LAYOUT = 1 -/
  | c1c2c3
  /-- `.prehash`, PREHASH = 1 -/
  | prehash
  /-- `.id`, USEID = 1 -/
  | id
  /-- `.idb`, USEIDB = 1 -/
  | idb
  /-- `.resp`, ROLE = 1 -/
  | resp
deriving DecidableEq, Repr

/-- An assembler line `<mnemonic>[.<suffix>]... [a<i>=<value>, ...]` (R151). -/
structure AsmLine where
  mnemonic : Mnemonic
  suffixes : List Suffix
  /-- `a<i>=<value>` as pairs (i, value) -/
  args : List (Nat × Nat)
deriving DecidableEq, Repr

end Sys2Proof
end

