-- ==== Sys2Proof/Decode.lean ====
section
/-! DEFINITION. The encoding of the command word (30_encoding.md R140-R149): the decoder, total on any word and rejecting by
name, and the encoder. The opcode map is that of R146. -/

namespace Sys2Proof

/-- The flag bits of the command word (R140). -/
def fselBit : Nat := 8
def padBit : Nat := 9
def compBit : Nat := 10
def layoutBit : Nat := 11
def prehashBit : Nat := 12
def useidBit : Nat := 13
def useidbBit : Nat := 14
def roleBit : Nat := 15

/-- The value each flag bit stands for (R140), both ways. -/
def FieldSel.ofBit : Bool → FieldSel
  | false => .fp
  | true => .fn
def FieldSel.toBit : FieldSel → Bool
  | .fp => false
  | .fn => true
def Padding.ofBit : Bool → Padding
  | false => .unpadded
  | true => .pkcs7
def Padding.toBit : Padding → Bool
  | .unpadded => false
  | .pkcs7 => true
def PointForm.ofBit : Bool → PointForm
  | false => .uncompressed
  | true => .compressed
def PointForm.toBit : PointForm → Bool
  | .uncompressed => false
  | .compressed => true
def Layout.ofBit : Bool → Layout
  | false => .c1c3c2
  | true => .c1c2c3
def Layout.toBit : Layout → Bool
  | .c1c3c2 => false
  | .c1c2c3 => true
def MsgForm.ofBit : Bool → MsgForm
  | false => .message
  | true => .digest
def MsgForm.toBit : MsgForm → Bool
  | .message => false
  | .digest => true
def IdSource.ofBit : Bool → IdSource
  | false => .defaultId
  | true => .lmemId
def IdSource.toBit : IdSource → Bool
  | .defaultId => false
  | .lmemId => true
def Role.ofBit : Bool → Role
  | false => .initiator
  | true => .responder
def Role.toBit : Role → Bool
  | .initiator => false
  | .responder => true

/-- A word with flag bit `bit` at value `b` and every other bit 0. -/
def flagWord (bit : Nat) (b : Bool) : Word := if b then 1#32 <<< bit else 0#32

/-- Every mnemonic of the opcode map, in its order (R146). -/
def Mnemonic.all : List Mnemonic :=
  [.fred, .fadd, .fsub, .fmul, .fsqr, .fneg, .finv, .fpow, .fsqrt, .fiszero, .fisodd, .feq, .fbinv, .sm3init,
   .sm3upd, .sm3fin, .sm3cf, .sm3hash, .hmac, .hkdf, .sm4key, .sm4eblk, .sm4dblk, .sm4ecbe, .sm4ecbd,
   .sm4cbce, .sm4cbcd, .pvalid, .padd, .pdbl, .pneg, .pmul, .pmulg, .pj2a, .penc, .pdec, .kdf, .zval,
   .keygen, .sign, .verify, .enc, .dec, .keyx, .ecdh]

/-- OPC of each mnemonic (R146). -/
def Mnemonic.opcode : Mnemonic → Byte
  | .fred => 0x10
  | .fadd => 0x11
  | .fsub => 0x12
  | .fmul => 0x13
  | .fsqr => 0x14
  | .fneg => 0x15
  | .finv => 0x16
  | .fpow => 0x17
  | .fsqrt => 0x18
  | .fiszero => 0x19
  | .fisodd => 0x1A
  | .feq => 0x1B
  | .fbinv => 0x1C
  | .sm3init => 0x20
  | .sm3upd => 0x21
  | .sm3fin => 0x22
  | .sm3cf => 0x23
  | .sm3hash => 0x24
  | .hmac => 0x25
  | .hkdf => 0x26
  | .sm4key => 0x30
  | .sm4eblk => 0x31
  | .sm4dblk => 0x32
  | .sm4ecbe => 0x33
  | .sm4ecbd => 0x34
  | .sm4cbce => 0x35
  | .sm4cbcd => 0x36
  | .pvalid => 0x40
  | .padd => 0x41
  | .pdbl => 0x42
  | .pneg => 0x43
  | .pmul => 0x44
  | .pmulg => 0x45
  | .pj2a => 0x46
  | .penc => 0x47
  | .pdec => 0x48
  | .kdf => 0x50
  | .zval => 0x51
  | .keygen => 0x52
  | .sign => 0x53
  | .verify => 0x54
  | .enc => 0x55
  | .dec => 0x56
  | .keyx => 0x57
  | .ecdh => 0x58

/-- `LegalFlags` of each mnemonic, as a mask of the command word (R141, R146). -/
def Mnemonic.legalFlags : Mnemonic → Word
  | .fred => flagWord fselBit true
  | .fadd => flagWord fselBit true
  | .fsub => flagWord fselBit true
  | .fmul => flagWord fselBit true
  | .fsqr => flagWord fselBit true
  | .fneg => flagWord fselBit true
  | .finv => flagWord fselBit true
  | .fpow => flagWord fselBit true
  | .fsqrt => flagWord fselBit true
  | .fiszero => flagWord fselBit true
  | .fisodd => flagWord fselBit true
  | .feq => flagWord fselBit true
  | .fbinv => flagWord fselBit true
  | .sm3init => 0
  | .sm3upd => 0
  | .sm3fin => 0
  | .sm3cf => 0
  | .sm3hash => 0
  | .hmac => 0
  | .hkdf => 0
  | .sm4key => 0
  | .sm4eblk => 0
  | .sm4dblk => 0
  | .sm4ecbe => flagWord padBit true
  | .sm4ecbd => flagWord padBit true
  | .sm4cbce => flagWord padBit true
  | .sm4cbcd => flagWord padBit true
  | .pvalid => 0
  | .padd => 0
  | .pdbl => 0
  | .pneg => 0
  | .pmul => 0
  | .pmulg => 0
  | .pj2a => 0
  | .penc => flagWord compBit true
  | .pdec => 0
  | .kdf => 0
  | .zval => flagWord useidBit true
  | .keygen => 0
  | .sign => flagWord prehashBit true ||| flagWord useidBit true
  | .verify => flagWord prehashBit true ||| flagWord useidBit true
  | .enc => flagWord layoutBit true
  | .dec => flagWord layoutBit true
  | .keyx => flagWord useidBit true ||| flagWord useidbBit true ||| flagWord roleBit true
  | .ecdh => 0

/-- The command of a mnemonic with the flags of a command word (R141: `F.NAME` is bit NAME of the word). -/
def Mnemonic.command (w : Word) : Mnemonic → Instr
  | .fred => .fred (FieldSel.ofBit (w.getLsbD fselBit))
  | .fadd => .fadd (FieldSel.ofBit (w.getLsbD fselBit))
  | .fsub => .fsub (FieldSel.ofBit (w.getLsbD fselBit))
  | .fmul => .fmul (FieldSel.ofBit (w.getLsbD fselBit))
  | .fsqr => .fsqr (FieldSel.ofBit (w.getLsbD fselBit))
  | .fneg => .fneg (FieldSel.ofBit (w.getLsbD fselBit))
  | .finv => .finv (FieldSel.ofBit (w.getLsbD fselBit))
  | .fpow => .fpow (FieldSel.ofBit (w.getLsbD fselBit))
  | .fsqrt => .fsqrt (FieldSel.ofBit (w.getLsbD fselBit))
  | .fiszero => .fiszero (FieldSel.ofBit (w.getLsbD fselBit))
  | .fisodd => .fisodd (FieldSel.ofBit (w.getLsbD fselBit))
  | .feq => .feq (FieldSel.ofBit (w.getLsbD fselBit))
  | .fbinv => .fbinv (FieldSel.ofBit (w.getLsbD fselBit))
  | .sm3init => .sm3init
  | .sm3upd => .sm3upd
  | .sm3fin => .sm3fin
  | .sm3cf => .sm3cf
  | .sm3hash => .sm3hash
  | .hmac => .hmac
  | .hkdf => .hkdf
  | .sm4key => .sm4key
  | .sm4eblk => .sm4eblk
  | .sm4dblk => .sm4dblk
  | .sm4ecbe => .sm4ecbe (Padding.ofBit (w.getLsbD padBit))
  | .sm4ecbd => .sm4ecbd (Padding.ofBit (w.getLsbD padBit))
  | .sm4cbce => .sm4cbce (Padding.ofBit (w.getLsbD padBit))
  | .sm4cbcd => .sm4cbcd (Padding.ofBit (w.getLsbD padBit))
  | .pvalid => .pvalid
  | .padd => .padd
  | .pdbl => .pdbl
  | .pneg => .pneg
  | .pmul => .pmul
  | .pmulg => .pmulg
  | .pj2a => .pj2a
  | .penc => .penc (PointForm.ofBit (w.getLsbD compBit))
  | .pdec => .pdec
  | .kdf => .kdf
  | .zval => .zval (IdSource.ofBit (w.getLsbD useidBit))
  | .keygen => .keygen
  | .sign => .sign (MsgForm.ofBit (w.getLsbD prehashBit)) (IdSource.ofBit (w.getLsbD useidBit))
  | .verify => .verify (MsgForm.ofBit (w.getLsbD prehashBit)) (IdSource.ofBit (w.getLsbD useidBit))
  | .enc => .enc (Layout.ofBit (w.getLsbD layoutBit))
  | .dec => .dec (Layout.ofBit (w.getLsbD layoutBit))
  | .keyx => .keyx (IdSource.ofBit (w.getLsbD useidBit)) (IdSource.ofBit (w.getLsbD useidbBit)) (Role.ofBit (w.getLsbD roleBit))
  | .ecdh => .ecdh

/-- The row of the opcode map a command belongs to (R146). -/
def Instr.mnemonic : Instr → Mnemonic
  | .fred _ => .fred
  | .fadd _ => .fadd
  | .fsub _ => .fsub
  | .fmul _ => .fmul
  | .fsqr _ => .fsqr
  | .fneg _ => .fneg
  | .finv _ => .finv
  | .fpow _ => .fpow
  | .fsqrt _ => .fsqrt
  | .fiszero _ => .fiszero
  | .fisodd _ => .fisodd
  | .feq _ => .feq
  | .fbinv _ => .fbinv
  | .sm3init => .sm3init
  | .sm3upd => .sm3upd
  | .sm3fin => .sm3fin
  | .sm3cf => .sm3cf
  | .sm3hash => .sm3hash
  | .hmac => .hmac
  | .hkdf => .hkdf
  | .sm4key => .sm4key
  | .sm4eblk => .sm4eblk
  | .sm4dblk => .sm4dblk
  | .sm4ecbe _ => .sm4ecbe
  | .sm4ecbd _ => .sm4ecbd
  | .sm4cbce _ => .sm4cbce
  | .sm4cbcd _ => .sm4cbcd
  | .pvalid => .pvalid
  | .padd => .padd
  | .pdbl => .pdbl
  | .pneg => .pneg
  | .pmul => .pmul
  | .pmulg => .pmulg
  | .pj2a => .pj2a
  | .penc _ => .penc
  | .pdec => .pdec
  | .kdf => .kdf
  | .zval _ => .zval
  | .keygen => .keygen
  | .sign _ _ => .sign
  | .verify _ _ => .verify
  | .enc _ => .enc
  | .dec _ => .dec
  | .keyx _ _ _ => .keyx
  | .ecdh => .ecdh

/-- The flag bits of a command, in place (R140, R151). -/
def Instr.flagBits : Instr → Word
  | .fred f => flagWord fselBit f.toBit
  | .fadd f => flagWord fselBit f.toBit
  | .fsub f => flagWord fselBit f.toBit
  | .fmul f => flagWord fselBit f.toBit
  | .fsqr f => flagWord fselBit f.toBit
  | .fneg f => flagWord fselBit f.toBit
  | .finv f => flagWord fselBit f.toBit
  | .fpow f => flagWord fselBit f.toBit
  | .fsqrt f => flagWord fselBit f.toBit
  | .fiszero f => flagWord fselBit f.toBit
  | .fisodd f => flagWord fselBit f.toBit
  | .feq f => flagWord fselBit f.toBit
  | .fbinv f => flagWord fselBit f.toBit
  | .sm3init => 0
  | .sm3upd => 0
  | .sm3fin => 0
  | .sm3cf => 0
  | .sm3hash => 0
  | .hmac => 0
  | .hkdf => 0
  | .sm4key => 0
  | .sm4eblk => 0
  | .sm4dblk => 0
  | .sm4ecbe pad => flagWord padBit pad.toBit
  | .sm4ecbd pad => flagWord padBit pad.toBit
  | .sm4cbce pad => flagWord padBit pad.toBit
  | .sm4cbcd pad => flagWord padBit pad.toBit
  | .pvalid => 0
  | .padd => 0
  | .pdbl => 0
  | .pneg => 0
  | .pmul => 0
  | .pmulg => 0
  | .pj2a => 0
  | .penc form => flagWord compBit form.toBit
  | .pdec => 0
  | .kdf => 0
  | .zval id => flagWord useidBit id.toBit
  | .keygen => 0
  | .sign msg id => flagWord prehashBit msg.toBit ||| flagWord useidBit id.toBit
  | .verify msg id => flagWord prehashBit msg.toBit ||| flagWord useidBit id.toBit
  | .enc layout => flagWord layoutBit layout.toBit
  | .dec layout => flagWord layoutBit layout.toBit
  | .keyx idA idB role => flagWord useidBit idA.toBit ||| flagWord useidbBit idB.toBit ||| flagWord roleBit role.toBit
  | .ecdh => 0

/-- Why a command word is refused (R143, R147): each is an `IllegalCommand` detail. -/
inductive DecodeError where
  /-- OPC is no opcode of R146. -/
  | badOpcode
  /-- A reserved bit, or a flag bit not legal for the opcode, is 1. -/
  | reservedBits
deriving DecidableEq, Repr

/-- `w[7:0]`, the field OPC (R140). -/
def opcField (w : Word) : Byte := w.setWidth 8

/-- The row of the opcode map with a given OPC (R146). -/
def Mnemonic.ofOpcode (opc : Byte) : Option Mnemonic := Mnemonic.all.find? fun m => m.opcode == opc

/-- The bits of `w[31:8]` that are not legal flags of the mnemonic: `(w[31:8] << 8) AND NOT LegalFlags` (R143). -/
def illegalBits (w : Word) (m : Mnemonic) : Word := w &&& 0xFFFFFF00#32 &&& ~~~m.legalFlags

/-- The decoder: the checks of `Complete()` in R143, the opcode before the reserved bits (R405), then the command. -/
def decode (w : Word) : Except DecodeError Instr :=
  match Mnemonic.ofOpcode (opcField w) with
  | none => .error .badOpcode
  | some m => if illegalBits w m ≠ 0 then .error .reservedBits else .ok (m.command w)

/-- The encoder: `OPC ∨ (FSEL<<8) ∨ (PAD<<9) ∨ ...` (R151). -/
def encode (i : Instr) : Word := i.mnemonic.opcode.setWidth 32 ||| i.flagBits

/-- The command the decoder reads from the bits `w` of an opcode-table row of `nbits` bits, the bits above them 0. A
command word is one 32-bit word, handed over whole (R140, 20_memory.md R116), so no byte order arises. -/
def decodeTableWord (nbits w : Nat) : Option Instr :=
  if w % 2 ^ nbits < 2 ^ 32 then
    match decode (BitVec.ofNat 32 (w % 2 ^ nbits)) with
    | .ok i => some i
    | .error _ => none
  else none

end Sys2Proof
end

