-- ==== Sys2Proof/Machine/Constants.lean ====
section
/-! DEFINITION. The constants of the core: "compile-time constants" and "read-only tables" (70_reset_and_hazards.md R454). -/

namespace Sys2Proof.Machine

/-- The field modulus p (00_scope.md R5, 43_ec_point.md R320). -/
def primeP : Nat := 0xFFFFFFFEFFFFFFFFFFFFFFFFFFFFFFFFFFFFFFFF00000000FFFFFFFFFFFFFFFF

/-- The group order n (R5, R320). -/
def orderN : Nat := 0xFFFFFFFEFFFFFFFFFFFFFFFFFFFFFFFF7203DF6B21C6052B53BBF40939D54123

/-- The curve coefficient a = p − 3 (R320). -/
def curveA : Nat := 0xFFFFFFFEFFFFFFFFFFFFFFFFFFFFFFFFFFFFFFFF00000000FFFFFFFFFFFFFFFC

/-- The curve coefficient b (R320). -/
def curveB : Nat := 0x28E9FA9E9D9F5E344D5A9E4BCF6509A7F39789F515AB8F92DDBCBD414D940E93

/-- The base point's x (R320). -/
def baseX : Nat := 0x32C4AE2C1F1981195F9904466A39C9948FE30BBFF2660BE1715A4589334C74C7

/-- The base point's y (R320). -/
def baseY : Nat := 0xBC3736A2F4F6779C59BDCEE36B692153D0A9877CC62A474002DF32E52139F0A0

/-- The SM3 IV (10_state.md R64, 41_sm3.md R240). -/
def sm3Iv : Vector Word 8 :=
  #v[0x7380166F, 0x4914B2B9, 0x172442D7, 0xDA8A0600, 0xA96F30BC, 0x163138AA, 0xE38DEE4D, 0xB0FB0E4E]

/-- The SM3 round constant T_j (41_sm3.md R240). -/
def sm3T (j : Nat) : Word := if j < 16 then 0x79CC4519 else 0x7A879D8A

/-- FK (42_sm4.md R284). -/
def sm4Fk : List Word := [0xA3B1BAC6, 0x56AA3350, 0x677D9197, 0xB27022DC]

/-- The rows of the SM4 S-box: row = high hex digit of the input byte, column = low digit, column 0 first (42_sm4.md
R282). -/
def sm4SboxRows : List Nat :=
  [0xD690E9FECCE13DB716B614C228FB2C05,
   0x2B679A762ABE04C3AA44132649860699,
   0x9C4250F491EF987A33540B43EDCFAC62,
   0xE4B31CA9C908E89580DF94FA758F3FA6,
   0x4707A7FCF37317BA83593C19E6854FA8,
   0x686B81B27164DA8BF8EB0F4B70569D35,
   0x1E240E5E6358D1A225227C3B01217887,
   0xD40046579FD327524C3602E7A0C4C89E,
   0xEABF8AD240C738B5A3F7F2CEF96115A1,
   0xE0AE5DA49B341A55AD933230F58CB1E3,
   0x1DF6E22E8266CA60C02923AB0D534E6F,
   0xD5DB3745DEFD8E2F03FF6A726D6C5B51,
   0x8D1BAF92BBDDBC7F11D95C411F105AD8,
   0x0AC13188A5CD7BBD2D74D012B8E5B4B0,
   0x8969974A0C96777E65B9F109C56EC684,
   0x18F07DEC3ADC4D2079EE5F3ED7CB3948]

/-- The default identifier, the ASCII string 1234567812345678 (44_sm2_protocols.md R360). -/
def defaultId : List Byte :=
  [0x31, 0x32, 0x33, 0x34, 0x35, 0x36, 0x37, 0x38, 0x31, 0x32, 0x33, 0x34, 0x35, 0x36, 0x37, 0x38]

/-- The register ID, hardwired (10_state.md R50). -/
def idRegister : Word := 0x534D4332

/-- The register VERSION, hardwired (10_state.md R51). -/
def versionRegister : Word := 0x00000007

end Sys2Proof.Machine
end

