-- ==== Sys2Proof/Machine/State.lean ====
section
/-! DEFINITION. The state of the core (10_state.md R41), its reset, and the ways a step can stop. Plain data. -/

namespace Sys2Proof.Machine

/-- LMEM (10_state.md R66) as (offset, byte) pairs: offsets strictly rising, and no byte equal to what an unlisted
offset reads as (Config.unlistedByte). -/
abbrev Memory := List Host.Cell

/-- The SM3 streaming context (10_state.md R64). -/
structure Sm3Context where
  /-- The chaining words `V[0..7]`, host-visible as `SM3_V0..7` (R60). -/
  v : Vector Word 8
  /-- The partial block `BUF[0..BUFLEN)` (R67); `BUFLEN` is its length (R61). -/
  buf : List Byte
  /-- `BITLEN`, the message bits absorbed (R62). -/
  bitlen : BitVec 64
deriving DecidableEq, Repr

/-- The IV context (R64). -/
def Sm3Context.iv : Sm3Context := { v := sm3Iv, buf := [], bitlen := 0 }

/-- The width of a host access (20_memory.md R105). -/
inductive Width where
  | w8
  | w16
  | w32
deriving DecidableEq, Repr

/-- A host bus access at a byte offset of the host window (20_memory.md R105). -/
inductive Access where
  /-- `Read(off, w)` -/
  | read (off : Nat) (w : Width)
  /-- `Write(off, w, v)`; a narrow write takes the low bits of `v` -/
  | write (off : Nat) (w : Width) (v : Word)
deriving DecidableEq, Repr

/-- A bus response (20_memory.md R105). -/
inductive BusResponse where
  /-- OKAY of a write -/
  | okay
  /-- OKAY of a read, with its data; a narrow read has zeros above -/
  | data (v : Word)
  /-- BUSERR -/
  | busErr
deriving DecidableEq, Repr

/-- One turn of an agent (10_state.md R40; log 3). -/
inductive Move where
  /-- The host takes a step. -/
  | host (a : Access)
  /-- The host is in the loop of the pseudo-instruction `wait` (30_encoding.md R152), one poll a step. -/
  | wait
  /-- The core takes its step, if it is enabled. -/
  | core
deriving DecidableEq, Repr

/-- The errors a command can end with (60_exceptions.md R400), one constructor a row of its table. `InvalidSignature`
is reserved and never reported. -/
inductive CmdError where
  | badLength
  | badPrefix
  | coordRange
  | encodedInfinity
  | idTooLong
  | lenOverflow
  | outLimit
  | privRange
  | notOnCurve
  | pubInfinity
  | uInfinity
  | invZero
  | nqr
  | noncanonical
  | badPad
  | c1Invalid
  | kdfZero
  | tagMismatch
  | entropyFail
  | badOpcode
  | reservedBits
  | addressRange (i : Fin 8)
  | overlap (i : Fin 8)
  | noKey
deriving DecidableEq, Repr

/-- The state of the machine: the architectural state of 10_state.md R41, then the model's own fields. -/
structure State where
  /-- `LMEM_SIZE`, the configuration parameter that `CFG` reads (R52; log 1). -/
  lmemSize : Nat
  /-- `STATUS.BUSY` (R54). -/
  busy : Bool
  /-- `STATUS.ERROR` (R54). -/
  error : Bool
  /-- `STATUS.RESULT` (R54). -/
  result : Bool
  /-- `STATUS.KEYV` (R54, R65). -/
  keyv : Bool
  /-- `STATUS.ERRCODE` (R54). -/
  errcode : Byte
  /-- `STATUS.ERRDETAIL` (R54). -/
  errdetail : Byte
  /-- `INT_STATUS.DONE` (R55). -/
  intDone : Bool
  /-- `INT_STATUS.OVR` (R55). -/
  intOvr : Bool
  /-- `INT_ENABLE.DONE_EN` (R56). -/
  doneEn : Bool
  /-- `INT_ENABLE.OVR_EN` (R56). -/
  ovrEn : Bool
  /-- `CMDL`, which `CMD` reads (R45, R57). -/
  cmdl : Word
  /-- The latched arguments `A[0..7]` (R45). -/
  latched : Vector Word 8
  /-- `OUTLEN` (R58). -/
  outlen : Word
  /-- `ARG0..ARG7` (R59). -/
  args : Vector Word 8
  /-- The SM3 streaming context (R64). -/
  sm3 : Sm3Context
  /-- The SM4 round-key file `RK[0..31]` (R65). -/
  rk : Vector Word 32
  /-- LMEM (R66). -/
  lmem : Memory
  /-- MODEL: the moves still to come, in order (log 3). -/
  schedule : List Move
  /-- MODEL: the answers the entropy port gives next, in order; when it is empty the answers are free (log 6). -/
  entropy : List Draw
  /-- MODEL: how many draws have been made, which numbers the free answers (log 6). -/
  drawCount : Nat
  /-- MODEL: how many reads returned an unspecified value, which numbers those free values (log 8). -/
  busyReads : Nat
  /-- MODEL: the response of the last host access (log 9). -/
  response : Option BusResponse
deriving DecidableEq, Repr

/-- The power-on state (70_reset_and_hazards.md R450) of a core with `size` bytes of LMEM holding `lmem`: the spec
leaves the size open (R5) and the contents unspecified (R66). -/
def State.powerOn (size : Nat) (lmem : Memory) : State where
  lmemSize := size
  busy := false
  error := false
  result := false
  keyv := false
  errcode := 0
  errdetail := 0
  intDone := false
  intOvr := false
  doneEn := false
  ovrEn := false
  cmdl := 0
  latched := Vector.replicate 8 0
  outlen := 0
  args := Vector.replicate 8 0
  sm3 := Sm3Context.iv
  rk := Vector.replicate 32 0
  lmem := lmem
  schedule := []
  entropy := []
  drawCount := 0
  busyReads := 0
  response := none

/-- The machine right after reset: the power-on state (R450) of the reference configuration (R5, log 1), no LMEM byte
listed (log 2). -/
def State.reset : State := State.powerOn Config.referenceLmemSize []

/-- No step of this machine faults: an error of a command is an error completion, a next state (60_exceptions.md R402),
and an error of the bus is a response that changes nothing (R406). So the type has no constructor (log 21). -/
inductive Fault where
deriving DecidableEq, Repr

/-- Why a step is refused. -/
inductive Refusal where
  /-- Raised by `exec` for a command that has no meaning yet; safe. No command of this model is left so (log 21). -/
  | notModelled (mnemonic : String)
deriving DecidableEq, Repr

end Sys2Proof.Machine
end

