-- ==== Sys2Proof/Machine/Flags.lean ====
section
/-! DEFINITION. Every flag computation: the words STATUS, INT_STATUS and INT_ENABLE put together from their bits
(10_state.md R54-R56), and the interrupt output (60_exceptions.md R411). -/

namespace Sys2Proof.Machine

/-- `STATUS` (R54): bits 31:24 and 7:4 reserved, ERRDETAIL, ERRCODE, KEYV, RESULT, ERROR, BUSY. -/
def State.statusWord (s : State) : Word :=
  0#8 ++ s.errdetail ++ s.errcode ++ 0#4 ++ BitVec.ofBool s.keyv ++ BitVec.ofBool s.result ++ BitVec.ofBool s.error ++
    BitVec.ofBool s.busy

/-- `INT_STATUS` (R55): OVR in bit 1, DONE in bit 0. -/
def State.intStatusWord (s : State) : Word := 0#30 ++ BitVec.ofBool s.intOvr ++ BitVec.ofBool s.intDone

/-- `INT_ENABLE` (R56): OVR_EN in bit 1, DONE_EN in bit 0. -/
def State.intEnableWord (s : State) : Word := 0#30 ++ BitVec.ofBool s.ovrEn ++ BitVec.ofBool s.doneEn

/-- `IRQ = (DONE ∧ DONE_EN) ∨ (OVR ∧ OVR_EN)` (R411). -/
def State.irq (s : State) : Bool := s.intDone && s.doneEn || s.intOvr && s.ovrEn

/-- `SM3_BUFLEN` (R61). -/
def State.bufLen (s : State) : Word := BitVec.ofNat 32 s.sm3.buf.length

/-- `SM3_BITLEN_LO` (R62). -/
def State.bitLenLo (s : State) : Word := s.sm3.bitlen.extractLsb' 0 32

/-- `SM3_BITLEN_HI` (R62). -/
def State.bitLenHi (s : State) : Word := s.sm3.bitlen.extractLsb' 32 32

end Sys2Proof.Machine
end

