-- ==== Sys2Proof/Machine/Bytes.lean ====
section
/-! DEFINITION. Byte strings, big-endian integers and word operations (00_scope.md R7, R8; 20_memory.md R102). -/

namespace Sys2Proof.Machine

/-- `BE(s)`: the unsigned integer whose big-endian encoding is `s`; `BE(ε) = 0` (R7). -/
def beNat (s : List Byte) : Nat := s.foldl (fun acc b => 256 * acc + b.toNat) 0

/-- `BE_k(x)`: the `k`-byte big-endian encoding of `x < 2^(8k)` (R7). -/
def beBytes : Nat → Nat → List Byte
  | 0, _ => []
  | k + 1, x => BitVec.ofNat 8 (x / 256 ^ k) :: beBytes k x

/-- `b^k`: `k` copies of the byte `b` (R7). -/
def copies (b : Byte) (k : Nat) : List Byte := List.replicate k b

/-- Byte-wise exclusive or of two strings of one length. -/
def xorBytes (s t : List Byte) : List Byte := List.zipWith (· ^^^ ·) s t

/-- `s[i..j)`: the bytes `i` to `j − 1` (R7). -/
def slice (s : List Byte) (i j : Nat) : List Byte := (s.drop i).take (j - i)

/-- The first `n` blocks of `k` bytes of a string, in order. -/
def blocks (k : Nat) : Nat → List Byte → List (List Byte)
  | 0, _ => []
  | n + 1, s => s.take k :: blocks k n (s.drop k)

/-- The words of a string packed big-endian from its bytes, four bytes a word (R102, 41_sm3.md R241, 42_sm4.md R281). -/
def beWords (s : List Byte) : List Word := (blocks 4 (s.length / 4) s).map fun b => BitVec.ofNat 32 (beNat b)

/-- Words unpacked to bytes the same way: `BE_4(S_0) ‖ BE_4(S_1) ‖ ...`. -/
def wordBytes (ws : List Word) : List Byte := ws.flatMap fun w => beBytes 4 w.toNat

/-- `rotl(x, s)`: rotation left by `s mod 32` bit positions (R8). -/
def rotl (x : Word) (s : Nat) : Word := (x <<< (s % 32)) ||| (x >>> (32 - s % 32))

end Sys2Proof.Machine
end

