-- ==== Sys2Proof/Machine/Ops.lean ====
section
/-! DEFINITION. The named operations over memory and registers: reading and writing LMEM, a draw, a launch, the successful
completion, the error completion (how this machine takes an exception) and the soft reset. -/

namespace Sys2Proof.Machine

/-- The byte of LMEM at an offset. -/
def Memory.read : Memory → Nat → Byte
  | [], _ => Config.unlistedByte
  | (k, b) :: rest, a => if k = a then b else Memory.read rest a

/-- LMEM with one byte written, in canonical form: a byte equal to what an unlisted offset reads as is not listed. -/
def Memory.write : Memory → Nat → Byte → Memory
  | [], a, v => if v = Config.unlistedByte then [] else [(a, v)]
  | (k, b) :: rest, a, v =>
    if a < k then (if v = Config.unlistedByte then (k, b) :: rest else (a, v) :: (k, b) :: rest)
    else if a = k then (if v = Config.unlistedByte then rest else (a, v) :: rest)
    else (k, b) :: Memory.write rest a v

/-- `LMEM[addr..addr+n)` (00_scope.md R10, `MemRead`). -/
def Memory.readBytes (m : Memory) : Nat → Nat → List Byte
  | _, 0 => []
  | addr, n + 1 => m.read addr :: Memory.readBytes m (addr + 1) n

/-- LMEM with a string written from `addr` up. -/
def Memory.writeBytes : Memory → Nat → List Byte → Memory
  | m, _, [] => m
  | m, addr, b :: bs => Memory.writeBytes (m.write addr b) (addr + 1) bs

/-- Staged writes applied in the order they were issued: a later one wins (20_memory.md R108). -/
def Memory.applyWrites (m : Memory) (writes : List (Nat × List Byte)) : Memory :=
  writes.foldl (fun m w => m.writeBytes w.1 w.2) m

/-- The canonical form: offsets strictly rising, no byte equal to what an unlisted offset reads as. -/
def Memory.wf : Memory → Bool
  | [] => true
  | [(_, b)] => b != Config.unlistedByte
  | (k, b) :: (k', b') :: rest => b != Config.unlistedByte && decide (k < k') && Memory.wf ((k', b') :: rest)

/-- Every listed offset is an offset of an LMEM of `size` bytes. -/
def Memory.within (m : Memory) (size : Nat) : Bool := m.all fun c => decide (c.1 < size)

/-- `code(E)` (60_exceptions.md R400). -/
def CmdError.code : CmdError → Byte
  | .badLength | .badPrefix | .coordRange | .encodedInfinity | .idTooLong | .lenOverflow | .outLimit => 0x01
  | .privRange | .notOnCurve | .pubInfinity | .uInfinity => 0x02
  | .invZero | .nqr | .noncanonical => 0x03
  | .badPad => 0x04
  | .c1Invalid | .kdfZero | .tagMismatch => 0x05
  | .entropyFail => 0x07
  | .badOpcode | .reservedBits => 0x10
  | .addressRange _ => 0x11
  | .overlap _ => 0x12
  | .noKey => 0x13

/-- The detail code of an error (60_exceptions.md R400). -/
def CmdError.detail : CmdError → Byte
  | .badLength => 0x01
  | .badPrefix => 0x02
  | .coordRange => 0x03
  | .encodedInfinity => 0x04
  | .idTooLong => 0x05
  | .lenOverflow => 0x06
  | .outLimit => 0x07
  | .privRange => 0x01
  | .notOnCurve => 0x02
  | .pubInfinity => 0x03
  | .uInfinity => 0x04
  | .invZero => 0x01
  | .nqr => 0x02
  | .noncanonical => 0x03
  | .badPad => 0x01
  | .c1Invalid => 0x01
  | .kdfZero => 0x02
  | .tagMismatch => 0x03
  | .entropyFail => 0x01
  | .badOpcode => 0x01
  | .reservedBits => 0x02
  | .addressRange i => BitVec.ofNat 8 i.val
  | .overlap i => BitVec.ofNat 8 i.val
  | .noKey => 0x01

/-- What a command that succeeds has staged when it reaches `finish(result, outlen)` (00_scope.md R10). -/
structure Effects where
  /-- The staged `MemWrite`s, in program order. -/
  writes : List (Nat × List Byte) := []
  /-- `STATUS.RESULT`. -/
  result : Bool := false
  /-- `OUTLEN`. -/
  outlen : Nat := 0
  /-- The new SM3 streaming context, if the command changes it. -/
  sm3 : Option Sm3Context := none
  /-- The new SM4 round keys, if the command loads them. -/
  roundKeys : Option (Vector Word 32) := none
deriving DecidableEq, Repr

/-- The result of a command's checks and pseudocode: staged effects, or `raise E(d)` (00_scope.md R10). -/
abbrev Check := Except CmdError

/-- TAKING AN EXCEPTION: `raise E(d)`, the error completion (60_exceptions.md R402). Staged effects are discarded, so
only STATUS, OUTLEN and INT_STATUS.DONE change; there is no handler address to go to (R403). -/
def State.raise (s : State) (e : CmdError) : State :=
  { s with
    error := true, result := false, errcode := e.code, errdetail := e.detail
    outlen := 0, busy := false, intDone := true }

/-- `finish(result, outlen)`: the successful completion (30_encoding.md R143). ERROR, ERRCODE and ERRDETAIL keep the
zeros of the launch (log 13). A loaded schedule sets KEYV (42_sm4.md R290). -/
def State.finish (s : State) (e : Effects) : State :=
  { s with
    lmem := s.lmem.applyWrites e.writes
    sm3 := e.sm3.getD s.sm3
    rk := e.roundKeys.getD s.rk
    keyv := s.keyv || e.roundKeys.isSome
    result := e.result, outlen := BitVec.ofNat 32 e.outlen
    busy := false, intDone := true }

/-- The completion of a command whose checks and pseudocode gave `c` (30_encoding.md R143). -/
def State.complete (s : State) (c : Check Effects) : Host.Outcome State Fault Refusal :=
  match c with
  | .ok e => .next (s.finish e)
  | .error e => .next (s.raise e)

/-- RETURN FROM AN EXCEPTION, and every other start of a command: the launch of the word `w` (30_encoding.md R142). It
clears the error report (60_exceptions.md R404). -/
def State.launch (s : State) (w : Word) : State :=
  { s with
    cmdl := w, latched := s.args, busy := true, error := false, result := false
    errcode := 0, errdetail := 0, outlen := 0 }

/-- The soft reset (70_reset_and_hazards.md R452): the power-on values with LMEM as it is. A running command is
abandoned. The model's own fields are no part of the core and go on. -/
def State.softReset (s : State) : State :=
  { State.powerOn s.lmemSize s.lmem with
    schedule := s.schedule, entropy := s.entropy, drawCount := s.drawCount
    busyReads := s.busyReads, response := s.response }

/-- The answer the next `Draw()` gets (60_exceptions.md R420): the one the state prescribes, or else a free value
(log 6). -/
def State.nextDraw (s : State) : Draw :=
  match s.entropy with
  | d :: _ => d
  | [] => Config.entropyAnswer s.drawCount

/-- The state after one `Draw()`: the answer is used up, and nothing of the core changes. -/
def State.afterDraw (s : State) : State := { s with entropy := s.entropy.tail, drawCount := s.drawCount + 1 }

end Sys2Proof.Machine
end

