-- ==== Sys2Proof/Machine/ModArith.lean ====
section
/-! DEFINITION. Exact arithmetic on residues (40_modarith.md R200-R213). -/

namespace Sys2Proof.Machine

/-- The modulus FSEL selects (R200). -/
def modulus : FieldSel → Nat
  | .fp => primeP
  | .fn => orderN

/-- `(a − b) mod m`, the least non-negative residue, for `a` and `b` below `m` (00_scope.md R9). -/
def subMod (m a b : Nat) : Nat := (a + (m - b)) % m

/-- The bits `i − 1 .. 0` of the exponent, most significant first: square, and multiply on a 1. -/
def powModBits (m a e : Nat) : Nat → Nat → Nat
  | 0, acc => acc
  | i + 1, acc =>
    let sq := acc * acc % m
    powModBits m a e i (if e.testBit i then sq * a % m else sq)

/-- `a^e mod m` for a 256-bit exponent, with `a^0 = 1` (R208). -/
def powMod (m a e : Nat) : Nat := powModBits m a e 256 (1 % m)

/-- The extended Euclidean algorithm on remainders `r0, r1` with coefficients `t0, t1` (R207): `r ≡ t·a (mod m)`
holds of both pairs throughout. -/
def euclid (m : Nat) : Nat → Nat → Nat → Nat → Nat → Nat
  | 0, _, _, t0, _ => t0
  | fuel + 1, r0, r1, t0, t1 =>
    if r1 = 0 then t0
    else euclid m fuel r1 (r0 % r1) t1 (subMod m t0 (r0 / r1 * t1 % m))

/-- `a⁻¹ mod m` (00_scope.md R9, R207). 512 steps are enough below 2^256: two steps halve the remainder. -/
def invMod (m a : Nat) : Nat := euclid m 512 m a 0 1

/-- `a^((m+1)/4) mod m` if its square is `a`, for `m ≡ 3 (mod 4)` (R209). -/
def sqrtMod (m a : Nat) : Option Nat :=
  let r := powMod m a ((m + 1) / 4)
  if r * r % m = a then some r else none

/-- The prefix products `c_0, c_1, ...` of FBINV (R213), `acc` the product so far. -/
def prefixProducts (m : Nat) : Nat → List Nat → List Nat
  | _, [] => []
  | acc, a :: as => acc * a % m :: prefixProducts m (acc * a % m) as

/-- FBINV folding back (R213): the elements from the last to the first with the prefix product before each, and `u` the
inverse of the product of the elements still to come. The results come out last first. -/
def foldBack (m : Nat) : Nat → List (Nat × Nat) → List Nat
  | _, [] => []
  | u, (a, c) :: rest => u * c % m :: foldBack m (u * a % m) rest

/-- The results of FBINV, one inversion for them all (R213). -/
def batchInverse (m : Nat) (as : List Nat) : List Nat :=
  let cs := prefixProducts m 1 as
  let u := invMod m (cs.getLastD 1)
  (foldBack m u (as.zip (1 :: cs)).reverse).reverse

end Sys2Proof.Machine
end

