-- ==== Sys2Proof/Machine/Curve.lean ====
section
/-! DEFINITION. The SM2 curve, its group law and the forms of a point (43_ec_point.md R320-R328). -/

namespace Sys2Proof.Machine

/-- A point of `E ∪ {O}` in affine coordinates (R321). -/
inductive Point where
  /-- O -/
  | infinity
  | affine (x y : Nat)
deriving DecidableEq, Repr

/-- The base point G (R320). -/
def basePoint : Point := .affine baseX baseY

/-- `x³ + a·x + b mod p` (R320). -/
def curveRhs (x : Nat) : Nat := (x * x * x + curveA * x + curveB) % primeP

/-- `y² ≡ x³ + a·x + b (mod p)` (R320). -/
def onCurve (x y : Nat) : Bool := y * y % primeP == curveRhs x

/-- λ of a sum that is not O (R321). -/
def slope (x1 y1 x2 y2 : Nat) : Nat :=
  if x1 = x2 then (3 * x1 * x1 + curveA) * invMod primeP (2 * y1 % primeP) % primeP
  else subMod primeP y2 y1 * invMod primeP (subMod primeP x2 x1) % primeP

/-- `P + Q` (R321). -/
def Point.add : Point → Point → Point
  | .infinity, q => q
  | p, .infinity => p
  | .affine x1 y1, .affine x2 y2 =>
    if x1 = x2 ∧ (y1 + y2) % primeP = 0 then .infinity
    else
      let l := slope x1 y1 x2 y2
      let x3 := subMod primeP (subMod primeP (l * l % primeP) x1) x2
      .affine x3 (subMod primeP (l * subMod primeP x1 x3 % primeP) y1)

/-- `−P` (R321). -/
def Point.neg : Point → Point
  | .infinity => .infinity
  | .affine x y => .affine x ((primeP - y) % primeP)

/-- The ladder over bits `i − 1 .. 0` of `k`, most significant first: double, and add on a 1 (R325). -/
def ladder (k : Nat) (p : Point) : Nat → Point → Point
  | 0, acc => acc
  | i + 1, acc =>
    let d := acc.add acc
    ladder k p i (if k.testBit i then d.add p else d)

/-- `k·P` for a 256-bit scalar (R324), by the ladder of R325 with 256 iterations (log 10). -/
def Point.mul (k : Nat) (p : Point) : Point := ladder k p 256 .infinity

/-- The x coordinate of a point that is not O. O has none: 0 stands there, and no rule reaches it (log 11). -/
def Point.x : Point → Nat
  | .infinity => 0
  | .affine x _ => x

/-- The y coordinate of a point that is not O, as for `Point.x` (log 11). -/
def Point.y : Point → Nat
  | .infinity => 0
  | .affine _ y => y

/-- `slot(P)` (R322). -/
def Point.slot : Point → List Byte
  | .infinity => copies 0 64
  | .affine x y => beBytes 32 x ++ beBytes 32 y

/-- Slot decoding for an arithmetic operand (R322). -/
def decodeSlot (s : List Byte) : Except CmdError Point :=
  let x := beNat (s.take 32)
  let y := beNat (s.drop 32)
  if s = copies 0 64 then .ok .infinity
  else if x < primeP ∧ y < primeP ∧ onCurve x y then .ok (.affine x y)
  else .error .notOnCurve

/-- `ValidPub(S)` (R323). -/
def validPub (s : List Byte) : Except CmdError Point :=
  let x := beNat (s.take 32)
  let y := beNat (s.drop 32)
  if s = copies 0 64 then .error .pubInfinity
  else if x < primeP ∧ y < primeP ∧ onCurve x y then .ok (.affine x y)
  else .error .notOnCurve

/-- `Enc65` (R327). -/
def enc65 (x y : Nat) : List Byte := 0x04 :: beBytes 32 x ++ beBytes 32 y

/-- `Enc33` (R327). -/
def enc33 (x y : Nat) : List Byte := BitVec.ofNat 8 (2 + y % 2) :: beBytes 32 x

/-- The y of a compressed point with prefix byte `w0` (R328): the root of the right parity, if there is a root. -/
def recoverY (w0 : Byte) (x : Nat) : Option Nat :=
  match sqrtMod primeP (curveRhs x) with
  | none => none
  | some r => some (if r % 2 = w0.toNat - 2 then r else (primeP - r) % primeP)

/-- `Dec(w)`, the wire decoding, its checks in the order of R328. -/
def decodeWire (w : List Byte) : Except CmdError Point :=
  let w0 := w.headD 0
  let x := beNat (slice w 1 33)
  let y := beNat (slice w 33 65)
  if w = [0x00] then .error .encodedInfinity
  else if w.length ≠ 33 ∧ w.length ≠ 65 then .error .badLength
  else if w.length = 65 ∧ w0 ≠ 0x04 then .error .badPrefix
  else if w.length = 33 ∧ w0 ≠ 0x02 ∧ w0 ≠ 0x03 then .error .badPrefix
  else if ¬ x < primeP then .error .coordRange
  else if w.length = 65 then
    if ¬ y < primeP then .error .coordRange
    else if onCurve x y then .ok (.affine x y)
    else .error .notOnCurve
  else
    match recoverY w0 x with
    | some y => .ok (.affine x y)
    | none => .error .notOnCurve

/-- PJ2A: the slot of a Jacobian triple (R326, R336). -/
def jacobianSlot (x y z : Nat) : List Byte :=
  if z = 0 then copies 0 64
  else
    beBytes 32 (x * invMod primeP (z * z % primeP) % primeP) ++
      beBytes 32 (y * invMod primeP (z * z * z % primeP) % primeP)

end Sys2Proof.Machine
end

