-- ==== Sys2Proof/Machine/Sm3.lean ====
section
/-! DEFINITION. The SM3 hash, HMAC-SM3 and HKDF-SM3 (41_sm3.md R240-R249). -/

namespace Sys2Proof.Machine

/-- P0 (R245). -/
def sm3P0 (x : Word) : Word := x ^^^ rotl x 9 ^^^ rotl x 17

/-- P1 (R245). -/
def sm3P1 (x : Word) : Word := x ^^^ rotl x 15 ^^^ rotl x 23

/-- FF_j (R244). -/
def sm3FF (j : Nat) (x y z : Word) : Word :=
  if j < 16 then x ^^^ y ^^^ z else (x &&& y) ||| (x &&& z) ||| (y &&& z)

/-- GG_j (R244). -/
def sm3GG (j : Nat) (x y z : Word) : Word :=
  if j < 16 then x ^^^ y ^^^ z else (x &&& y) ||| (~~~x &&& z)

/-- The next expanded word W[j] from the words before it, latest first, so that W[j−k] stands at index k − 1 (R241). -/
def sm3NextW (ws : List Word) : Word :=
  sm3P1 (ws.getD 15 0 ^^^ ws.getD 8 0 ^^^ rotl (ws.getD 2 0) 15) ^^^ rotl (ws.getD 12 0) 7 ^^^ ws.getD 5 0

/-- `n` more expanded words, latest first. -/
def sm3Extend : Nat → List Word → List Word
  | 0, ws => ws
  | n + 1, ws => sm3Extend n (sm3NextW ws :: ws)

/-- The 68 words W of the expansion of a 64-byte block (R241). -/
def sm3Expand (block : List Byte) : List Word := (sm3Extend 52 (beWords block).reverse).reverse

/-- The working words A..H of the compression function (R242). -/
structure Sm3Regs where
  a : Word
  b : Word
  c : Word
  d : Word
  e : Word
  f : Word
  g : Word
  h : Word
deriving DecidableEq, Repr

/-- Round `j` with W[j] and W'[j] (R242). -/
def sm3Round (r : Sm3Regs) (j : Nat) (w w' : Word) : Sm3Regs :=
  let ss1 := rotl (rotl r.a 12 + r.e + rotl (sm3T j) (j % 32)) 7
  let ss2 := ss1 ^^^ rotl r.a 12
  let tt1 := sm3FF j r.a r.b r.c + r.d + ss2 + w'
  let tt2 := sm3GG j r.e r.f r.g + r.h + ss1 + w
  { a := tt1, b := r.a, c := rotl r.b 9, d := r.c, e := sm3P0 tt2, f := r.e, g := rotl r.f 19, h := r.g }

/-- `n` rounds from round `j` on; `ws` is W[j], W[j+1], ..., and W'[j] = W[j] ⊕ W[j+4] (R241, R242). -/
def sm3Rounds : Nat → Nat → List Word → Sm3Regs → Sm3Regs
  | 0, _, _, r => r
  | n + 1, j, ws, r => sm3Rounds n (j + 1) ws.tail (sm3Round r j (ws.getD 0 0) (ws.getD 0 0 ^^^ ws.getD 4 0))

/-- The compression function CF(V, B) (R242). -/
def sm3CF (v : Vector Word 8) (block : List Byte) : Vector Word 8 :=
  let r := sm3Rounds 64 0 (sm3Expand block)
    { a := v[0], b := v[1], c := v[2], d := v[3], e := v[4], f := v[5], g := v[6], h := v[7] }
  #v[r.a ^^^ v[0], r.b ^^^ v[1], r.c ^^^ v[2], r.d ^^^ v[3], r.e ^^^ v[4], r.f ^^^ v[5], r.g ^^^ v[6], r.h ^^^ v[7]]

/-- CF over the whole 64-byte blocks of a string, in order (R243). -/
def sm3Blocks (v : Vector Word 8) (s : List Byte) : Vector Word 8 := (blocks 64 (s.length / 64) s).foldl sm3CF v

/-- `Pad(M, l)` (R243): `M ‖ 0x80 ‖ 0x00^z ‖ BE_8(l)` with `z = (55 − |M|) mod 64`. -/
def sm3Pad (m : List Byte) (l : Nat) : List Byte :=
  m ++ [0x80] ++ copies 0 ((119 - m.length % 64) % 64) ++ beBytes 8 l

/-- The chaining words emitted big-endian (R243). -/
def sm3Emit (v : Vector Word 8) : List Byte := wordBytes v.toList

/-- SM3(M) (R243). -/
def sm3Hash (m : List Byte) : List Byte := sm3Emit (sm3Blocks sm3Iv (sm3Pad m (8 * m.length)))

/-- `Absorb(ctx, S)` (R246). -/
def Sm3Context.absorb (c : Sm3Context) (s : List Byte) : Sm3Context :=
  let t := c.buf ++ s
  { v := sm3Blocks c.v t, buf := t.drop (64 * (t.length / 64)), bitlen := c.bitlen + BitVec.ofNat 64 (8 * s.length) }

/-- The digest that `Final(ctx)` returns (R246). -/
def Sm3Context.final (c : Sm3Context) : List Byte := sm3Emit (sm3Blocks c.v (sm3Pad c.buf c.bitlen.toNat))

/-- K0 of HMAC: a key longer than 64 bytes is hashed, then zeros fill it up to 64 bytes (R247). -/
def hmacKey (key : List Byte) : List Byte :=
  let k := if key.length > 64 then sm3Hash key else key
  k ++ copies 0 (64 - k.length)

/-- HMAC(K, M) (R247). -/
def hmacSm3 (key msg : List Byte) : List Byte :=
  let k0 := hmacKey key
  sm3Hash (xorBytes k0 (copies 0x5C 64) ++ sm3Hash (xorBytes k0 (copies 0x36 64) ++ msg))

/-- `T(i) ‖ T(i+1) ‖ ...`, `n` blocks of the expand step of HKDF, after the block `prev` = T(i−1) (R248). -/
def hkdfExpand (prk info : List Byte) : Nat → Nat → List Byte → List Byte
  | 0, _, _ => []
  | n + 1, i, prev =>
    let t := hmacSm3 prk (prev ++ info ++ beBytes 1 i)
    t ++ hkdfExpand prk info n (i + 1) t

/-- HKDF(IKM, salt, info, L); an absent salt is 32 zero bytes (R248). -/
def hkdfSm3 (ikm : List Byte) (salt : Option (List Byte)) (info : List Byte) (l : Nat) : List Byte :=
  let prk := hmacSm3 (salt.getD (copies 0 32)) ikm
  (hkdfExpand prk info ((l + 31) / 32) 1 []).take l

end Sys2Proof.Machine
end

