-- ==== Sys2Proof/Machine/Sm2.lean ====
section
/-! DEFINITION. The common functions of the SM2 commands (44_sm2_protocols.md R360-R367) and one attempt of the commands
that retry. -/

namespace Sys2Proof.Machine

/-- Z(ID, P) (R361). -/
def zValue (id : List Byte) (x y : Nat) : List Byte :=
  sm3Hash (beBytes 2 (8 * id.length) ++ id ++ beBytes 32 curveA ++ beBytes 32 curveB ++ beBytes 32 baseX ++
    beBytes 32 baseY ++ beBytes 32 x ++ beBytes 32 y)

/-- `H_i ‖ H_{i+1} ‖ ...`, `n` blocks of the KDF (R362). -/
def kdfBlocks (zs iv : List Byte) : Nat → Nat → List Byte
  | 0, _ => []
  | n + 1, i => sm3Hash (zs ++ beBytes 4 i ++ iv) ++ kdfBlocks zs iv n (i + 1)

/-- KDF(Zs, klen, IV) (R362). -/
def kdfSm3 (zs : List Byte) (klen : Nat) (iv : List Byte) : List Byte := (kdfBlocks zs iv ((klen + 31) / 32) 1).take klen

/-- `AllZero(K)`: at least one byte, and every byte 0 (R362). -/
def allZero (k : List Byte) : Bool := decide (0 < k.length) && k.all fun b => b == 0

/-- `ValidPriv(d)` (R363). -/
def validPriv (d : List Byte) : Except CmdError Nat :=
  if beNat d = 0 ∨ beNat d ≥ orderN then .error .privRange else .ok (beNat d)

/-- The reduction of a draw to a scalar in `[1, n−1]` (R364). -/
def drawnScalar (raw : BitVec 256) : Nat := raw.toNat % (orderN - 1) + 1

/-- The digest e of SIGN and VERIFY (R365). -/
def signDigest (msg : MsgForm) (m id : List Byte) (x y : Nat) : Nat :=
  match msg with
  | .message => beNat (sm3Hash (zValue id x y ++ m))
  | .digest => beNat m

/-- One pass of the loop of SIGN with the scalar k (R373); `none` is "retry". -/
def signAttempt (d e k : Nat) : Option (Nat × Nat) :=
  let x1 := (basePoint.mul k).x
  let r := (e + x1) % orderN
  if r = 0 ∨ r + k = orderN then none
  else
    let s := invMod orderN ((1 + d) % orderN) * subMod orderN (k % orderN) (r * d % orderN) % orderN
    if s = 0 then none else some (r, s)

/-- The verdict of VERIFY (R374). -/
def verifySignature (e r s : Nat) (p : Point) : Bool :=
  if ¬ (1 ≤ r ∧ r ≤ orderN - 1 ∧ 1 ≤ s ∧ s ≤ orderN - 1) then false
  else
    let t := (r + s) % orderN
    if t = 0 then false
    else
      match (basePoint.mul s).add (p.mul t) with
      | .infinity => false
      | .affine x _ => (e + x) % orderN == r

/-- The ciphertext in its layout (R366). -/
def joinCiphertext (layout : Layout) (c1 c2 c3 : List Byte) : List Byte :=
  match layout with
  | .c1c3c2 => c1 ++ c3 ++ c2
  | .c1c2c3 => c1 ++ c2 ++ c3

/-- C3 and C2 of a ciphertext of more than 97 bytes, split by the layout (R376). -/
def splitCiphertext (layout : Layout) (ct : List Byte) : List Byte × List Byte :=
  match layout with
  | .c1c3c2 => (slice ct 65 97, ct.drop 97)
  | .c1c2c3 => (ct.drop (ct.length - 32), slice ct 65 (ct.length - 32))

/-- C3 = SM3(x2 ‖ M ‖ y2) (R375). -/
def ciphertextTag (q : Point) (m : List Byte) : List Byte := sm3Hash (beBytes 32 q.x ++ m ++ beBytes 32 q.y)

/-- t = KDF(x2 ‖ y2, L, ε) (R375). -/
def ciphertextMask (q : Point) (l : Nat) : List Byte := kdfSm3 (beBytes 32 q.x ++ beBytes 32 q.y) l []

/-- One pass of the loop of ENC with the scalar k (R375); `none` is "retry". -/
def encAttempt (layout : Layout) (m : List Byte) (p : Point) (k : Nat) : Option (List Byte) :=
  let c := basePoint.mul k
  let q := p.mul k
  let t := ciphertextMask q m.length
  if allZero t then none
  else some (joinCiphertext layout (enc65 c.x c.y) (xorBytes m t) (ciphertextTag q m))

/-- The algorithm of DEC on a ciphertext whose C1 is `c1` (R376). -/
def decryptMessage (layout : Layout) (ct : List Byte) (c1 : Point) (d : Nat) : Except CmdError (List Byte) :=
  let (c3, c2) := splitCiphertext layout ct
  let q := c1.mul d
  let t := ciphertextMask q c2.length
  let m := xorBytes c2 t
  if allZero t then .error .kdfZero
  else if ciphertextTag q m ≠ c3 then .error .tagMismatch
  else .ok m

/-- `x̄(x) = W + (x AND Wmask)` with `W = 2^127` (R367). -/
def xBar (x : Nat) : Nat := 2 ^ 127 + (x &&& (2 ^ 127 - 1))

/-- The point U of KEYX (R377): `tA·(PB + x̄2·RB)` with `tA = (dA + x̄1·rA) mod n`. -/
def sharedPoint (dA rA : Nat) (ownR peerP peerR : Point) : Point :=
  let tA := (dA + xBar ownR.x * rA) % orderN
  (peerP.add (peerR.mul (xBar peerR.x))).mul tA

/-- The key K of KEYX (R377): both parties hash Z(initiator) ‖ Z(responder). -/
def sharedKey (role : Role) (u : Point) (zA zB : List Byte) (klen : Nat) : List Byte :=
  let (z1, z2) := match role with
    | .initiator => (zA, zB)
    | .responder => (zB, zA)
  kdfSm3 (beBytes 32 u.x ++ beBytes 32 u.y ++ z1 ++ z2) klen []

end Sys2Proof.Machine
end

