-- ==== Sys2Proof/Machine/Sm4.lean ====
section
/-! DEFINITION. The SM4 block cipher, its key schedule, modes and padding (42_sm4.md R280-R288). -/

namespace Sys2Proof.Machine

/-- The S-box (R282): row = high hex digit, column = low hex digit. -/
def sm4Sbox (x : Byte) : Byte :=
  BitVec.ofNat 8 (sm4SboxRows.getD (x.toNat / 16) 0 / 256 ^ (15 - x.toNat % 16))

/-- τ: the S-box on each byte of a word (R283). -/
def sm4Tau (x : Word) : Word := BitVec.ofNat 32 (beNat ((beBytes 4 x.toNat).map sm4Sbox))

/-- L (R283). -/
def sm4L (x : Word) : Word := x ^^^ rotl x 2 ^^^ rotl x 10 ^^^ rotl x 18 ^^^ rotl x 24

/-- L' (R283). -/
def sm4L' (x : Word) : Word := x ^^^ rotl x 13 ^^^ rotl x 23

/-- T (R283). -/
def sm4T (x : Word) : Word := sm4L (sm4Tau x)

/-- T' (R283). -/
def sm4T' (x : Word) : Word := sm4L' (sm4Tau x)

/-- CK_i: bytes `(4·i + j)·7 mod 256` for `j = 0..3`, `j = 0` most significant (R284). -/
def sm4CK (i : Nat) : Word := BitVec.ofNat 32 (beNat ((List.range 4).map fun j => BitVec.ofNat 8 ((4 * i + j) * 7)))

/-- Four consecutive words of a recurrence (R284, R286). -/
structure Sm4Words where
  x0 : Word
  x1 : Word
  x2 : Word
  x3 : Word
deriving DecidableEq, Repr

/-- The four words of 16 bytes (R281). -/
def sm4Words (s : List Byte) : Sm4Words :=
  let ws := beWords s
  { x0 := ws.getD 0 0, x1 := ws.getD 1 0, x2 := ws.getD 2 0, x3 := ws.getD 3 0 }

/-- The round keys `rk_i = K_{i+4}`, `n` of them from index `i` on (R284). -/
def sm4Schedule : Nat → Nat → Sm4Words → List Word
  | 0, _, _ => []
  | n + 1, i, k =>
    let rk := k.x0 ^^^ sm4T' (k.x1 ^^^ k.x2 ^^^ k.x3 ^^^ sm4CK i)
    rk :: sm4Schedule n (i + 1) { x0 := k.x1, x1 := k.x2, x2 := k.x3, x3 := rk }

/-- KS(MK), the 32 round keys of a 16-byte key (R284). -/
def sm4KeySchedule (mk : List Byte) : Vector Word 32 :=
  let m := sm4Words mk
  let ks := sm4Schedule 32 0
    { x0 := m.x0 ^^^ sm4Fk.getD 0 0, x1 := m.x1 ^^^ sm4Fk.getD 1 0
      x2 := m.x2 ^^^ sm4Fk.getD 2 0, x3 := m.x3 ^^^ sm4Fk.getD 3 0 }
  Vector.ofFn fun i => ks.getD i.val 0

/-- One round with the round key `rk` (R286). -/
def sm4Round (x : Sm4Words) (rk : Word) : Sm4Words :=
  { x0 := x.x1, x1 := x.x2, x2 := x.x3, x3 := x.x0 ^^^ sm4T (x.x1 ^^^ x.x2 ^^^ x.x3 ^^^ rk) }

/-- E(rk, B): the rounds in the order of the keys, then "the reverse of the last four state words" (R286). -/
def sm4Block (rks : List Word) (b : List Byte) : List Byte :=
  let x := rks.foldl sm4Round (sm4Words b)
  wordBytes [x.x3, x.x2, x.x1, x.x0]

/-- Enc(B) (R286). -/
def sm4Enc (rk : Vector Word 32) (b : List Byte) : List Byte := sm4Block rk.toList b

/-- Dec(B): "identical with round keys reversed" (R286). -/
def sm4Dec (rk : Vector Word 32) (b : List Byte) : List Byte := sm4Block rk.toList.reverse b

/-- ECB on a string of whole blocks (R287). -/
def sm4Ecb (f : List Byte → List Byte) (d : List Byte) : List Byte := (blocks 16 (d.length / 16) d).flatMap f

/-- CBC encryption of a list of blocks, the previous ciphertext block first (R287). -/
def sm4CbcEncBlocks (rk : Vector Word 32) : List Byte → List (List Byte) → List Byte
  | _, [] => []
  | prev, b :: bs =>
    let c := sm4Enc rk (xorBytes b prev)
    c ++ sm4CbcEncBlocks rk c bs

/-- CBC decryption of a list of blocks, the previous ciphertext block first (R287). -/
def sm4CbcDecBlocks (rk : Vector Word 32) : List Byte → List (List Byte) → List Byte
  | _, [] => []
  | prev, c :: cs => xorBytes (sm4Dec rk c) prev ++ sm4CbcDecBlocks rk c cs

/-- CBC-Enc(D, IV) (R287). -/
def sm4CbcEnc (rk : Vector Word 32) (iv d : List Byte) : List Byte := sm4CbcEncBlocks rk iv (blocks 16 (d.length / 16) d)

/-- CBC-Dec(D, IV) (R287). -/
def sm4CbcDec (rk : Vector Word 32) (iv d : List Byte) : List Byte := sm4CbcDecBlocks rk iv (blocks 16 (d.length / 16) d)

/-- Pad7(D) (R285). -/
def pad7 (d : List Byte) : List Byte :=
  let q := 16 - d.length % 16
  d ++ copies (BitVec.ofNat 8 q) q

/-- Unpad7(P) (R285); `none` is `InvalidPadding`. -/
def unpad7 (p : List Byte) : Option (List Byte) :=
  let q := (p.getLastD 0).toNat
  if q < 1 ∨ q > 16 ∨ p.drop (p.length - q) ≠ copies (BitVec.ofNat 8 q) q then none
  else some (p.take (p.length - q))

/-- The destination range an encryption reserves (R288). -/
def sm4EncReserved (pad : Padding) (len : Nat) : Nat :=
  match pad with
  | .unpadded => len
  | .pkcs7 => len + 16 - len % 16

/-- The lengths an encryption accepts (R288). -/
def sm4EncLengthOk (pad : Padding) (len : Nat) : Bool :=
  match pad with
  | .unpadded => len % 16 == 0
  | .pkcs7 => true

/-- The lengths a decryption accepts (R288). -/
def sm4DecLengthOk (pad : Padding) (len : Nat) : Bool :=
  match pad with
  | .unpadded => len % 16 == 0
  | .pkcs7 => decide (len > 0) && len % 16 == 0

/-- The data an encryption runs on: padded if PAD = 1 (R293, R295). -/
def sm4PadData (pad : Padding) (d : List Byte) : List Byte :=
  match pad with
  | .unpadded => d
  | .pkcs7 => pad7 d

end Sys2Proof.Machine
end

