-- ==== Sys2Proof/Machine/Operands.lean ====
section
/-! DEFINITION. The operand forms of the commands (30_encoding.md R144, R145) and the checks made on them
(20_memory.md R103, R107; 60_exceptions.md R405). -/

namespace Sys2Proof.Machine

/-- The error a refused command word ends with (30_encoding.md R143, R147). -/
def illegalCommand : DecodeError → CmdError
  | .badOpcode => .badOpcode
  | .reservedBits => .reservedBits

/-- `A[i]`: the latched argument, an unsigned 32-bit number (R144). -/
def State.arg (s : State) (i : Fin 8) : Nat := (s.latched.get i).toNat

/-- `MemRead(addr, n)` (R108). -/
def State.memRead (s : State) (addr n : Nat) : List Byte := s.lmem.readBytes addr n

/-- One check: `raise E(d)` unless `c` holds. -/
def require (c : Bool) (e : CmdError) : Check Unit := if c then .ok () else .error e

/-- `CheckRange(i, A[i], len)`, on unbounded integers (R103). -/
def State.checkRange (s : State) (i : Fin 8) (len : Nat) : Check Unit :=
  require (decide (s.arg i + len ≤ s.lmemSize)) (.addressRange i)

/-- The output `[o, o + lo)` intersects the input `[a, a + la)`, both non-empty, and starts elsewhere (R107). -/
def clashes (o lo : Nat) (input : Nat × Nat) : Bool :=
  decide (0 < lo ∧ 0 < input.2 ∧ o ≠ input.1 ∧ o < input.1 + input.2 ∧ input.1 < o + lo)

/-- `CheckOverlap(i, [A[i], A[i] + lo), inputs)` (R107). -/
def State.checkOverlap (s : State) (i : Fin 8) (lo : Nat) (inputs : List (Nat × Nat)) : Check Unit :=
  require (!inputs.any (clashes (s.arg i) lo)) (.overlap i)

/-- A 32-byte big-endian integer in LMEM (R145). -/
def State.scalar (s : State) (addr : Nat) : Nat := beNat (s.memRead addr 32)

/-- A field-element operand, which must be canonical (40_modarith.md R200). -/
def State.canonical (s : State) (m addr : Nat) : Check Nat :=
  if s.scalar addr < m then .ok (s.scalar addr) else .error .noncanonical

/-- `k` field-element operands one after the other, checked in index order (40_modarith.md R213). -/
def State.canonicals (s : State) (m : Nat) : Nat → Nat → Check (List Nat)
  | _, 0 => .ok []
  | addr, k + 1 => do
    let a ← s.canonical m addr
    let as ← s.canonicals m (addr + 32) k
    return a :: as

/-- A point operand of an arithmetic command (43_ec_point.md R322). -/
def State.point (s : State) (addr : Nat) : Check Point := decodeSlot (s.memRead addr 64)

/-- A public-key operand (43_ec_point.md R323). -/
def State.publicKey (s : State) (addr : Nat) : Check Point := validPub (s.memRead addr 64)

/-- A private-key operand (44_sm2_protocols.md R363). -/
def State.privateKey (s : State) (addr : Nat) : Check Nat := validPriv (s.memRead addr 32)

/-- SM4 data commands need a loaded schedule (42_sm4.md R289). -/
def State.checkKey (s : State) : Check Unit := require s.keyv .noKey

/-- The range check of an identifier at `A[i]` of length `A[j]`, made only if it is used (44_sm2_protocols.md R360). -/
def State.checkIdRange (s : State) (src : IdSource) (i j : Fin 8) : Check Unit :=
  match src with
  | .defaultId => .ok ()
  | .lmemId => s.checkRange i (s.arg j)

/-- The identifier's range as an input of the overlap rule, if it is used. -/
def State.idInput (s : State) (src : IdSource) (i j : Fin 8) : List (Nat × Nat) :=
  match src with
  | .defaultId => []
  | .lmemId => [(s.arg i, s.arg j)]

/-- An LMEM identifier longer than 8191 bytes is refused (44_sm2_protocols.md R360). -/
def State.checkIdLength (s : State) (src : IdSource) (j : Fin 8) : Check Unit :=
  match src with
  | .defaultId => .ok ()
  | .lmemId => require (decide (s.arg j ≤ 8191)) .idTooLong

/-- The identifier (44_sm2_protocols.md R360). -/
def State.identifier (s : State) (src : IdSource) (i j : Fin 8) : List Byte :=
  match src with
  | .defaultId => defaultId
  | .lmemId => s.memRead (s.arg i) (s.arg j)

/-- With PREHASH = 1 the USEID flag and the ID arguments are ignored (44_sm2_protocols.md R365). -/
def usedId (msg : MsgForm) (id : IdSource) : IdSource :=
  match msg with
  | .message => id
  | .digest => .defaultId

/-- With PREHASH = 1 the message must be exactly 32 bytes (44_sm2_protocols.md R365). -/
def checkMsgLength (msg : MsgForm) (len : Nat) : Check Unit :=
  match msg with
  | .message => .ok ()
  | .digest => require (len == 32) .badLength

/-- `MemWrite(addr, n, v) ; finish(result, n)`. -/
def written (addr : Nat) (v : List Byte) (result : Bool := false) : Effects :=
  { writes := [(addr, v)], result := result, outlen := v.length }

/-- `finish(result, 0)`. -/
def verdict (result : Bool) : Effects := { result := result }

/-- A command that draws one scalar once its checks have passed (44_sm2_protocols.md R364). `attempt` is one pass of its
loop; `none` is "retry": the draw is used up, the command still runs, and the next step of the core makes the next pass
(60_exceptions.md R421, log 7). -/
def State.completeWithDraw {α : Type} (s : State) (ready : Check α) (attempt : α → Nat → Option Effects) :
    Host.Outcome State Fault Refusal :=
  match ready with
  | .error e => .next (s.raise e)
  | .ok x =>
    match s.nextDraw with
    | none => .next (s.afterDraw.raise .entropyFail)
    | some raw =>
      match attempt x (drawnScalar raw) with
      | some e => .next (s.afterDraw.finish e)
      | none => .next s.afterDraw

end Sys2Proof.Machine
end

