-- ==== Sys2Proof/Machine/FieldCommands.lean ====
section
/-! DEFINITION. The modular arithmetic commands (40_modarith.md R201-R213). -/

namespace Sys2Proof.Machine

/-- Operands `A[0]`, `A[1]`, destination `A[2]`: the checks and the write of FADD, FSUB and FMUL (R202). -/
def fieldBinary (f : FieldSel) (op : Nat → Nat → Nat → Nat) (s : State) : Check Effects := do
  s.checkRange 0 32
  s.checkRange 1 32
  s.checkRange 2 32
  s.checkOverlap 2 32 [(s.arg 0, 32), (s.arg 1, 32)]
  let a ← s.canonical (modulus f) (s.arg 0)
  let b ← s.canonical (modulus f) (s.arg 1)
  return written (s.arg 2) (beBytes 32 (op (modulus f) a b))

/-- Operand `A[0]`, destination `A[2]`: the checks and the write of FSQR, FNEG, FINV and FSQRT (R205). -/
def fieldUnary (f : FieldSel) (op : Nat → Nat → Check Nat) (s : State) : Check Effects := do
  s.checkRange 0 32
  s.checkRange 2 32
  s.checkOverlap 2 32 [(s.arg 0, 32)]
  let a ← s.canonical (modulus f) (s.arg 0)
  let r ← op (modulus f) a
  return written (s.arg 2) (beBytes 32 r)

/-- Operand `A[0]`, a Boolean result: FISZERO and FISODD (R210). -/
def fieldPredicate (f : FieldSel) (p : Nat → Bool) (s : State) : Check Effects := do
  s.checkRange 0 32
  let a ← s.canonical (modulus f) (s.arg 0)
  return verdict (p a)

/-- FRED (R201). -/
def execFred (f : FieldSel) (s : State) : Host.Outcome State Fault Refusal :=
  s.complete do
    s.checkRange 0 (s.arg 1)
    s.checkRange 2 32
    s.checkOverlap 2 32 [(s.arg 0, s.arg 1)]
    require (decide (s.arg 1 ≤ 64)) .badLength
    let x := beNat (s.memRead (s.arg 0) (s.arg 1))
    return written (s.arg 2) (beBytes 32 (x % modulus f))

/-- FADD (R202). -/
def execFadd (f : FieldSel) (s : State) : Host.Outcome State Fault Refusal :=
  s.complete (fieldBinary f (fun m a b => (a + b) % m) s)

/-- FSUB (R203). -/
def execFsub (f : FieldSel) (s : State) : Host.Outcome State Fault Refusal :=
  s.complete (fieldBinary f subMod s)

/-- FMUL (R204). -/
def execFmul (f : FieldSel) (s : State) : Host.Outcome State Fault Refusal :=
  s.complete (fieldBinary f (fun m a b => a * b % m) s)

/-- FSQR (R205). -/
def execFsqr (f : FieldSel) (s : State) : Host.Outcome State Fault Refusal :=
  s.complete (fieldUnary f (fun m a => .ok (a * a % m)) s)

/-- FNEG (R206). -/
def execFneg (f : FieldSel) (s : State) : Host.Outcome State Fault Refusal :=
  s.complete (fieldUnary f (fun m a => .ok ((m - a) % m)) s)

/-- FINV (R207). -/
def execFinv (f : FieldSel) (s : State) : Host.Outcome State Fault Refusal :=
  s.complete (fieldUnary f (fun m a => if a = 0 then .error .invZero else .ok (invMod m a)) s)

/-- FPOW (R208): the exponent is any 32-byte integer, not reduced. -/
def execFpow (f : FieldSel) (s : State) : Host.Outcome State Fault Refusal :=
  s.complete do
    s.checkRange 0 32
    s.checkRange 1 32
    s.checkRange 2 32
    s.checkOverlap 2 32 [(s.arg 0, 32), (s.arg 1, 32)]
    let a ← s.canonical (modulus f) (s.arg 0)
    return written (s.arg 2) (beBytes 32 (powMod (modulus f) a (s.scalar (s.arg 1))))

/-- FSQRT (R209). -/
def execFsqrt (f : FieldSel) (s : State) : Host.Outcome State Fault Refusal :=
  s.complete (fieldUnary f (fun m a => match sqrtMod m a with | some r => .ok r | none => .error .nqr) s)

/-- FISZERO (R210). -/
def execFiszero (f : FieldSel) (s : State) : Host.Outcome State Fault Refusal :=
  s.complete (fieldPredicate f (fun a => a == 0) s)

/-- FISODD (R211). -/
def execFisodd (f : FieldSel) (s : State) : Host.Outcome State Fault Refusal :=
  s.complete (fieldPredicate f (fun a => a % 2 == 1) s)

/-- FEQ (R212). -/
def execFeq (f : FieldSel) (s : State) : Host.Outcome State Fault Refusal :=
  s.complete do
    s.checkRange 0 32
    s.checkRange 1 32
    let a ← s.canonical (modulus f) (s.arg 0)
    let b ← s.canonical (modulus f) (s.arg 1)
    return verdict (a == b)

/-- FBINV (R213). -/
def execFbinv (f : FieldSel) (s : State) : Host.Outcome State Fault Refusal :=
  s.complete do
    let k := s.arg 1
    s.checkRange 0 (32 * k)
    s.checkRange 2 (32 * k)
    s.checkOverlap 2 (32 * k) [(s.arg 0, 32 * k)]
    let as ← s.canonicals (modulus f) (s.arg 0) k
    require (as.all fun a => a != 0) .invZero
    return written (s.arg 2) ((batchInverse (modulus f) as).flatMap (beBytes 32))

end Sys2Proof.Machine
end

