-- ==== Sys2Proof/Machine/PointCommands.lean ====
section
/-! DEFINITION. The elliptic-curve point commands (43_ec_point.md R330-R338). -/

namespace Sys2Proof.Machine

/-- Operand slot `A[0]`, destination slot `A[2]`: PDBL and PNEG (R332). -/
def pointUnary (op : Point → Point) (s : State) : Check Effects := do
  s.checkRange 0 64
  s.checkRange 2 64
  s.checkOverlap 2 64 [(s.arg 0, 64)]
  let p ← s.point (s.arg 0)
  return written (s.arg 2) (op p).slot

/-- PVALID (R330): the errors of ValidPub are not raised, they give RESULT = 0. -/
def execPvalid (s : State) : Host.Outcome State Fault Refusal :=
  s.complete do
    s.checkRange 0 64
    return verdict (s.publicKey (s.arg 0)).isOk

/-- PADD (R331). -/
def execPadd (s : State) : Host.Outcome State Fault Refusal :=
  s.complete do
    s.checkRange 0 64
    s.checkRange 1 64
    s.checkRange 2 64
    s.checkOverlap 2 64 [(s.arg 0, 64), (s.arg 1, 64)]
    let p ← s.point (s.arg 0)
    let q ← s.point (s.arg 1)
    return written (s.arg 2) (p.add q).slot

/-- PDBL (R332). -/
def execPdbl (s : State) : Host.Outcome State Fault Refusal := s.complete (pointUnary (fun p => p.add p) s)

/-- PNEG (R333). -/
def execPneg (s : State) : Host.Outcome State Fault Refusal := s.complete (pointUnary Point.neg s)

/-- PMUL (R334). -/
def execPmul (s : State) : Host.Outcome State Fault Refusal :=
  s.complete do
    s.checkRange 0 32
    s.checkRange 1 64
    s.checkRange 2 64
    s.checkOverlap 2 64 [(s.arg 0, 32), (s.arg 1, 64)]
    let p ← s.point (s.arg 1)
    return written (s.arg 2) (p.mul (s.scalar (s.arg 0))).slot

/-- PMULG (R335). -/
def execPmulg (s : State) : Host.Outcome State Fault Refusal :=
  s.complete do
    s.checkRange 0 32
    s.checkRange 2 64
    s.checkOverlap 2 64 [(s.arg 0, 32)]
    return written (s.arg 2) (basePoint.mul (s.scalar (s.arg 0))).slot

/-- PJ2A (R336). -/
def execPj2a (s : State) : Host.Outcome State Fault Refusal :=
  s.complete do
    s.checkRange 0 96
    s.checkRange 2 64
    s.checkOverlap 2 64 [(s.arg 0, 96)]
    let x ← s.canonical primeP (s.arg 0)
    let y ← s.canonical primeP (s.arg 0 + 32)
    let z ← s.canonical primeP (s.arg 0 + 64)
    return written (s.arg 2) (jacobianSlot x y z)

/-- The length PENC writes (R337). -/
def wireLength : PointForm → Nat
  | .uncompressed => 65
  | .compressed => 33

/-- The wire encoding of a point; O has none (R327, R337). -/
def encodeWire (form : PointForm) : Point → Check (List Byte)
  | .infinity => .error .encodedInfinity
  | .affine x y =>
    match form with
    | .uncompressed => .ok (enc65 x y)
    | .compressed => .ok (enc33 x y)

/-- PENC (R337). -/
def execPenc (form : PointForm) (s : State) : Host.Outcome State Fault Refusal :=
  s.complete do
    s.checkRange 0 64
    s.checkRange 2 (wireLength form)
    s.checkOverlap 2 (wireLength form) [(s.arg 0, 64)]
    let p ← s.point (s.arg 0)
    let e ← encodeWire form p
    return written (s.arg 2) e

/-- PDEC (R338). -/
def execPdec (s : State) : Host.Outcome State Fault Refusal :=
  s.complete do
    s.checkRange 0 (s.arg 1)
    s.checkRange 2 64
    s.checkOverlap 2 64 [(s.arg 0, s.arg 1)]
    let p ← decodeWire (s.memRead (s.arg 0) (s.arg 1))
    return written (s.arg 2) p.slot

end Sys2Proof.Machine
end

