-- ==== Sys2Proof/Machine/Sm2Commands.lean ====
section
/-! DEFINITION. The SM2 commands (44_sm2_protocols.md R370-R378). -/

namespace Sys2Proof.Machine

/-- KDF (R370). -/
def execKdf (s : State) : Host.Outcome State Fault Refusal :=
  s.complete do
    s.checkRange 0 (s.arg 1)
    s.checkRange 2 (s.arg 3)
    s.checkRange 5 (s.arg 4)
    s.checkOverlap 5 (s.arg 4) [(s.arg 0, s.arg 1), (s.arg 2, s.arg 3)]
    let k := kdfSm3 (s.memRead (s.arg 0) (s.arg 1)) (s.arg 4) (s.memRead (s.arg 2) (s.arg 3))
    return written (s.arg 5) k (allZero k)

/-- ZVAL (R371). -/
def execZval (id : IdSource) (s : State) : Host.Outcome State Fault Refusal :=
  s.complete do
    s.checkRange 0 64
    s.checkIdRange id 1 2
    s.checkRange 3 32
    s.checkOverlap 3 32 ((s.arg 0, 64) :: s.idInput id 1 2)
    s.checkIdLength id 2
    let p ← s.publicKey (s.arg 0)
    return written (s.arg 3) (zValue (s.identifier id 1 2) p.x p.y)

/-- KEYGEN (R372): one draw, and no retry. -/
def execKeygen (s : State) : Host.Outcome State Fault Refusal :=
  s.completeWithDraw (s.checkRange 0 96) fun _ d =>
    some (written (s.arg 0) (beBytes 32 d ++ (basePoint.mul d).slot))

/-- The checks of SIGN, and what its loop needs: the private key and the digest (R373). -/
def signChecks (msg : MsgForm) (id : IdSource) (s : State) : Check (Nat × Nat) := do
  let used := usedId msg id
  s.checkRange 0 (s.arg 1)
  s.checkRange 2 32
  s.checkIdRange used 3 4
  s.checkRange 5 64
  s.checkOverlap 5 64 ((s.arg 0, s.arg 1) :: (s.arg 2, 32) :: s.idInput used 3 4)
  checkMsgLength msg (s.arg 1)
  s.checkIdLength used 4
  let d ← s.privateKey (s.arg 2)
  require ((1 + d) % orderN != 0) .invZero
  let p := basePoint.mul d
  return (d, signDigest msg (s.memRead (s.arg 0) (s.arg 1)) (s.identifier used 3 4) p.x p.y)

/-- SIGN (R373): one draw for each pass of its loop. -/
def execSign (msg : MsgForm) (id : IdSource) (s : State) : Host.Outcome State Fault Refusal :=
  s.completeWithDraw (signChecks msg id s) fun de k =>
    (signAttempt de.1 de.2 k).map fun rs => written (s.arg 5) (beBytes 32 rs.1 ++ beBytes 32 rs.2)

/-- VERIFY (R374): a rejection is RESULT = 0, not an error. -/
def execVerify (msg : MsgForm) (id : IdSource) (s : State) : Host.Outcome State Fault Refusal :=
  s.complete do
    let used := usedId msg id
    s.checkRange 0 (s.arg 1)
    s.checkRange 2 64
    s.checkRange 3 64
    s.checkIdRange used 4 5
    checkMsgLength msg (s.arg 1)
    s.checkIdLength used 5
    let p ← s.publicKey (s.arg 3)
    let e := signDigest msg (s.memRead (s.arg 0) (s.arg 1)) (s.identifier used 4 5) p.x p.y
    return verdict (verifySignature e (s.scalar (s.arg 2)) (s.scalar (s.arg 2 + 32)) p)

/-- The checks of ENC, and its public key (R375). -/
def encChecks (s : State) : Check Point := do
  s.checkRange 0 (s.arg 1)
  s.checkRange 2 64
  s.checkRange 3 (97 + s.arg 1)
  s.checkOverlap 3 (97 + s.arg 1) [(s.arg 0, s.arg 1), (s.arg 2, 64)]
  require (s.arg 1 != 0) .badLength
  s.publicKey (s.arg 2)

/-- ENC (R375): one draw for each pass of its loop. -/
def execEnc (layout : Layout) (s : State) : Host.Outcome State Fault Refusal :=
  s.completeWithDraw (encChecks s) fun p k =>
    (encAttempt layout (s.memRead (s.arg 0) (s.arg 1)) p k).map fun c => written (s.arg 3) c

/-- C1 of a ciphertext, refused as `C1_INVALID` if it is no point of the curve (R376). -/
def ciphertextPoint (ct : List Byte) : Check Point :=
  let x := beNat (slice ct 1 33)
  let y := beNat (slice ct 33 65)
  if x < primeP ∧ y < primeP ∧ onCurve x y then .ok (.affine x y) else .error .c1Invalid

/-- DEC (R376). -/
def execDec (layout : Layout) (s : State) : Host.Outcome State Fault Refusal :=
  s.complete do
    let n := s.arg 1
    s.checkRange 0 n
    s.checkRange 2 32
    s.checkRange 3 (n - 97)
    s.checkOverlap 3 (n - 97) [(s.arg 0, n), (s.arg 2, 32)]
    require (decide (n > 97)) .badLength
    let ct := s.memRead (s.arg 0) n
    require (ct.headD 0 == 0x04) .badPrefix
    let c1 ← ciphertextPoint ct
    let d ← s.privateKey (s.arg 2)
    let m ← decryptMessage layout ct c1 d
    return written (s.arg 3) m

/-- KEYX (R377); the parameter block is that of 30_encoding.md R150. -/
def execKeyx (idA idB : IdSource) (role : Role) (s : State) : Host.Outcome State Fault Refusal :=
  s.complete do
    let block := s.arg 0
    s.checkRange 0 320
    s.checkIdRange idA 1 2
    s.checkIdRange idB 3 4
    s.checkRange 6 (s.arg 5)
    s.checkOverlap 6 (s.arg 5) ((block, 320) :: (s.idInput idA 1 2 ++ s.idInput idB 3 4))
    s.checkIdLength idA 2
    s.checkIdLength idB 4
    let dA ← s.privateKey block
    let pA ← s.publicKey (block + 32)
    let rA ← s.privateKey (block + 96)
    let ownR ← s.publicKey (block + 128)
    let pB ← s.publicKey (block + 192)
    let peerR ← s.publicKey (block + 256)
    let u := sharedPoint dA rA ownR pB peerR
    require (u != .infinity) .uInfinity
    let zA := zValue (s.identifier idA 1 2) pA.x pA.y
    let zB := zValue (s.identifier idB 3 4) pB.x pB.y
    let k := sharedKey role u zA zB (s.arg 5)
    return written (s.arg 6) k (allZero k)

/-- ECDH (R378). -/
def execEcdh (s : State) : Host.Outcome State Fault Refusal :=
  s.complete do
    s.checkRange 0 32
    s.checkRange 1 64
    s.checkRange 2 32
    s.checkOverlap 2 32 [(s.arg 0, 32), (s.arg 1, 64)]
    let d ← s.privateKey (s.arg 0)
    let p ← s.publicKey (s.arg 1)
    return written (s.arg 2) (beBytes 32 (p.mul d).x)

end Sys2Proof.Machine
end

