-- ==== Sys2Proof/Machine/Sm3Commands.lean ====
section
/-! DEFINITION. The SM3 commands (41_sm3.md R250-R256). SM3HASH, HMAC and HKDF use private contexts (R249). -/

namespace Sys2Proof.Machine

/-- SM3INIT (R250). -/
def execSm3init (s : State) : Host.Outcome State Fault Refusal :=
  s.complete (.ok { sm3 := some Sm3Context.iv })

/-- SM3UPD (R251). -/
def execSm3upd (s : State) : Host.Outcome State Fault Refusal :=
  s.complete do
    s.checkRange 0 (s.arg 1)
    require (decide (s.sm3.bitlen.toNat + 8 * s.arg 1 < 2 ^ 64)) .lenOverflow
    return { sm3 := some (s.sm3.absorb (s.memRead (s.arg 0) (s.arg 1))) }

/-- SM3FIN (R252). -/
def execSm3fin (s : State) : Host.Outcome State Fault Refusal :=
  s.complete do
    s.checkRange 0 32
    return { written (s.arg 0) s.sm3.final with sm3 := some Sm3Context.iv }

/-- SM3CF (R253). -/
def execSm3cf (s : State) : Host.Outcome State Fault Refusal :=
  s.complete do
    s.checkRange 0 64
    return { sm3 := some { s.sm3 with v := sm3CF s.sm3.v (s.memRead (s.arg 0) 64) } }

/-- SM3HASH (R254). -/
def execSm3hash (s : State) : Host.Outcome State Fault Refusal :=
  s.complete do
    s.checkRange 0 (s.arg 1)
    s.checkRange 2 32
    s.checkOverlap 2 32 [(s.arg 0, s.arg 1)]
    return written (s.arg 2) (sm3Hash (s.memRead (s.arg 0) (s.arg 1)))

/-- HMAC (R255). -/
def execHmac (s : State) : Host.Outcome State Fault Refusal :=
  s.complete do
    s.checkRange 0 (s.arg 1)
    s.checkRange 2 (s.arg 3)
    s.checkRange 4 32
    s.checkOverlap 4 32 [(s.arg 0, s.arg 1), (s.arg 2, s.arg 3)]
    return written (s.arg 4) (hmacSm3 (s.memRead (s.arg 0) (s.arg 1)) (s.memRead (s.arg 2) (s.arg 3)))

/-- HKDF (R256). -/
def execHkdf (s : State) : Host.Outcome State Fault Refusal :=
  s.complete do
    s.checkRange 0 (s.arg 1)
    s.checkRange 2 (s.arg 3)
    s.checkRange 4 (s.arg 5)
    s.checkRange 7 (s.arg 6)
    s.checkOverlap 7 (s.arg 6) [(s.arg 0, s.arg 1), (s.arg 2, s.arg 3), (s.arg 4, s.arg 5)]
    require (decide (s.arg 6 ≤ 8160)) .outLimit
    let salt := if s.arg 3 = 0 then none else some (s.memRead (s.arg 2) (s.arg 3))
    return written (s.arg 7)
      (hkdfSm3 (s.memRead (s.arg 0) (s.arg 1)) salt (s.memRead (s.arg 4) (s.arg 5)) (s.arg 6))

end Sys2Proof.Machine
end

