-- ==== Sys2Proof/Machine/Sm4Commands.lean ====
section
/-! DEFINITION. The SM4 commands (42_sm4.md R290-R296). -/

namespace Sys2Proof.Machine

/-- The checks and the write of SM4EBLK and SM4DBLK (R291). -/
def sm4OneBlock (f : List Byte → List Byte) (s : State) : Check Effects := do
  s.checkKey
  s.checkRange 0 16
  s.checkRange 1 16
  s.checkOverlap 1 16 [(s.arg 0, 16)]
  return written (s.arg 1) (f (s.memRead (s.arg 0) 16))

/-- The checks of an ECB command with the reserved length `r` and the length rule `ok` (R288, R293). -/
def sm4EcbChecks (r : Nat) (ok : Bool) (s : State) : Check Unit := do
  s.checkKey
  s.checkRange 0 (s.arg 1)
  s.checkRange 2 r
  s.checkOverlap 2 r [(s.arg 0, s.arg 1)]
  require ok .badLength

/-- The checks of a CBC command (R295). -/
def sm4CbcChecks (r : Nat) (ok : Bool) (s : State) : Check Unit := do
  s.checkKey
  s.checkRange 0 (s.arg 1)
  s.checkRange 2 r
  s.checkRange 3 16
  s.checkOverlap 2 r [(s.arg 0, s.arg 1), (s.arg 3, 16)]
  require ok .badLength

/-- What a decryption writes: with PAD = 1 the unpadded bytes, or `InvalidPadding` (R294, R296). -/
def sm4Unpadded (pad : Padding) (p : List Byte) : Check (List Byte) :=
  match pad with
  | .unpadded => .ok p
  | .pkcs7 =>
    match unpad7 p with
    | some d => .ok d
    | none => .error .badPad

/-- SM4KEY (R290). -/
def execSm4key (s : State) : Host.Outcome State Fault Refusal :=
  s.complete do
    s.checkRange 0 16
    return { roundKeys := some (sm4KeySchedule (s.memRead (s.arg 0) 16)) }

/-- SM4EBLK (R291). -/
def execSm4eblk (s : State) : Host.Outcome State Fault Refusal := s.complete (sm4OneBlock (sm4Enc s.rk) s)

/-- SM4DBLK (R292). -/
def execSm4dblk (s : State) : Host.Outcome State Fault Refusal := s.complete (sm4OneBlock (sm4Dec s.rk) s)

/-- SM4ECBE (R293). -/
def execSm4ecbe (pad : Padding) (s : State) : Host.Outcome State Fault Refusal :=
  s.complete do
    sm4EcbChecks (sm4EncReserved pad (s.arg 1)) (sm4EncLengthOk pad (s.arg 1)) s
    return written (s.arg 2) (sm4Ecb (sm4Enc s.rk) (sm4PadData pad (s.memRead (s.arg 0) (s.arg 1))))

/-- SM4ECBD (R294). -/
def execSm4ecbd (pad : Padding) (s : State) : Host.Outcome State Fault Refusal :=
  s.complete do
    sm4EcbChecks (s.arg 1) (sm4DecLengthOk pad (s.arg 1)) s
    let p ← sm4Unpadded pad (sm4Ecb (sm4Dec s.rk) (s.memRead (s.arg 0) (s.arg 1)))
    return written (s.arg 2) p

/-- SM4CBCE (R295). -/
def execSm4cbce (pad : Padding) (s : State) : Host.Outcome State Fault Refusal :=
  s.complete do
    sm4CbcChecks (sm4EncReserved pad (s.arg 1)) (sm4EncLengthOk pad (s.arg 1)) s
    let d := sm4PadData pad (s.memRead (s.arg 0) (s.arg 1))
    return written (s.arg 2) (sm4CbcEnc s.rk (s.memRead (s.arg 3) 16) d)

/-- SM4CBCD (R296). -/
def execSm4cbcd (pad : Padding) (s : State) : Host.Outcome State Fault Refusal :=
  s.complete do
    sm4CbcChecks (s.arg 1) (sm4DecLengthOk pad (s.arg 1)) s
    let p ← sm4Unpadded pad (sm4CbcDec s.rk (s.memRead (s.arg 3) 16) (s.memRead (s.arg 0) (s.arg 1)))
    return written (s.arg 2) p

end Sys2Proof.Machine
end

