-- ==== Sys2Proof/Machine/Dispatch.lean ====
section
/-! DEFINITION. The dispatch: one arm a command, each one direct call of its meaning (30_encoding.md R143, "execute the
rule of opc"). -/

namespace Sys2Proof.Machine

def exec (i : Instr) (s : State) : Host.Outcome State Fault Refusal :=
  match i with
  | .fred f => Sys2Proof.Machine.execFred f s
  | .fadd f => Sys2Proof.Machine.execFadd f s
  | .fsub f => Sys2Proof.Machine.execFsub f s
  | .fmul f => Sys2Proof.Machine.execFmul f s
  | .fsqr f => Sys2Proof.Machine.execFsqr f s
  | .fneg f => Sys2Proof.Machine.execFneg f s
  | .finv f => Sys2Proof.Machine.execFinv f s
  | .fpow f => Sys2Proof.Machine.execFpow f s
  | .fsqrt f => Sys2Proof.Machine.execFsqrt f s
  | .fiszero f => Sys2Proof.Machine.execFiszero f s
  | .fisodd f => Sys2Proof.Machine.execFisodd f s
  | .feq f => Sys2Proof.Machine.execFeq f s
  | .fbinv f => Sys2Proof.Machine.execFbinv f s
  | .sm3init => Sys2Proof.Machine.execSm3init s
  | .sm3upd => Sys2Proof.Machine.execSm3upd s
  | .sm3fin => Sys2Proof.Machine.execSm3fin s
  | .sm3cf => Sys2Proof.Machine.execSm3cf s
  | .sm3hash => Sys2Proof.Machine.execSm3hash s
  | .hmac => Sys2Proof.Machine.execHmac s
  | .hkdf => Sys2Proof.Machine.execHkdf s
  | .sm4key => Sys2Proof.Machine.execSm4key s
  | .sm4eblk => Sys2Proof.Machine.execSm4eblk s
  | .sm4dblk => Sys2Proof.Machine.execSm4dblk s
  | .sm4ecbe pad => Sys2Proof.Machine.execSm4ecbe pad s
  | .sm4ecbd pad => Sys2Proof.Machine.execSm4ecbd pad s
  | .sm4cbce pad => Sys2Proof.Machine.execSm4cbce pad s
  | .sm4cbcd pad => Sys2Proof.Machine.execSm4cbcd pad s
  | .pvalid => Sys2Proof.Machine.execPvalid s
  | .padd => Sys2Proof.Machine.execPadd s
  | .pdbl => Sys2Proof.Machine.execPdbl s
  | .pneg => Sys2Proof.Machine.execPneg s
  | .pmul => Sys2Proof.Machine.execPmul s
  | .pmulg => Sys2Proof.Machine.execPmulg s
  | .pj2a => Sys2Proof.Machine.execPj2a s
  | .penc form => Sys2Proof.Machine.execPenc form s
  | .pdec => Sys2Proof.Machine.execPdec s
  | .kdf => Sys2Proof.Machine.execKdf s
  | .zval id => Sys2Proof.Machine.execZval id s
  | .keygen => Sys2Proof.Machine.execKeygen s
  | .sign msg id => Sys2Proof.Machine.execSign msg id s
  | .verify msg id => Sys2Proof.Machine.execVerify msg id s
  | .enc layout => Sys2Proof.Machine.execEnc layout s
  | .dec layout => Sys2Proof.Machine.execDec layout s
  | .keyx idA idB role => Sys2Proof.Machine.execKeyx idA idB role s
  | .ecdh => Sys2Proof.Machine.execEcdh s

end Sys2Proof.Machine
end

