-- ==== Sys2Proof/Machine/HostBus.lean ====
section
/-! DEFINITION. The host's steps: bus accesses to the CSRs (10_state.md R46-R62) and to LMEM (20_memory.md R104-R106), and
the pseudo-instructions as lists of accesses (30_encoding.md R151, R152). -/

namespace Sys2Proof.Machine

/-- What a read of a mapped offset returns. -/
inductive ReadValue where
  /-- the register's or memory's value -/
  | exact (v : Word)
  /-- an unspecified value (R106, R60) -/
  | unspecified
deriving DecidableEq, Repr

/-- The number of bytes of an access (20_memory.md R105). -/
def Width.bytes : Width → Nat
  | .w8 => 1
  | .w16 => 2
  | .w32 => 4

/-- The offset of `ARGi` (R46). -/
def argOffset (i : Nat) : Nat := 0x040 + 4 * i

/-- The value of the CSR at an offset, `none` if the offset is unmapped (R46-R62). -/
def State.readCsr (s : State) (off : Nat) : Option ReadValue :=
  if off = 0x000 then some (.exact idRegister)
  else if off = 0x004 then some (.exact versionRegister)
  else if off = 0x008 then some (.exact (BitVec.ofNat 32 s.lmemSize))
  else if off = 0x010 then some (.exact 0)
  else if off = 0x014 then some (.exact s.statusWord)
  else if off = 0x018 then some (.exact s.intStatusWord)
  else if off = 0x01C then some (.exact s.intEnableWord)
  else if off = 0x020 then some (.exact s.cmdl)
  else if off = 0x024 then some (.exact s.outlen)
  else if 0x040 ≤ off ∧ off ≤ 0x05C ∧ off % 4 = 0 then some (.exact (s.args.toList.getD ((off - 0x040) / 4) 0))
  else if 0x100 ≤ off ∧ off ≤ 0x11C ∧ off % 4 = 0 then
    some (if s.busy then .unspecified else .exact (s.sm3.v.toList.getD ((off - 0x100) / 4) 0))
  else if off = 0x120 then some (.exact s.bufLen)
  else if off = 0x124 then some (.exact s.bitLenLo)
  else if off = 0x128 then some (.exact s.bitLenHi)
  else none

/-- A dropped access while busy: only `INT_STATUS.OVR` is set (R55, R460). -/
def State.dropped (s : State) : State := { s with intOvr := true }

/-- The state after a write to the CSR at an offset, `none` if the offset is unmapped (R46-R62). A write to a read-only
register has no effect (R47). -/
def State.writeCsr (s : State) (off : Nat) (v : Word) : Option State :=
  if off = 0x010 then some (if v.getLsbD 0 then s.softReset else s)
  else if off = 0x018 then
    some { s with intDone := s.intDone && !v.getLsbD 0, intOvr := s.intOvr && !v.getLsbD 1 }
  else if off = 0x01C then some { s with doneEn := v.getLsbD 0, ovrEn := v.getLsbD 1 }
  else if off = 0x020 then some (if s.busy then s.dropped else s.launch v)
  else if 0x040 ≤ off ∧ off ≤ 0x05C ∧ off % 4 = 0 then
    some { s with args := s.args.setIfInBounds ((off - 0x040) / 4) v }
  else if 0x100 ≤ off ∧ off ≤ 0x11C ∧ off % 4 = 0 then
    some (if s.busy then s.dropped
      else { s with sm3 := { s.sm3 with v := s.sm3.v.setIfInBounds ((off - 0x100) / 4) v } })
  else if (s.readCsr off).isSome then some s
  else none

/-- Bytes put on the bus lanes, the byte at the lowest offset in bits 7:0 (R105). -/
def laneWord (bs : List Byte) : Word := BitVec.ofNat 32 (beNat bs.reverse)

/-- The low `n` bytes of the bus word, bits 7:0 first (R105). -/
def laneBytes (n : Nat) (v : Word) : List Byte := (beBytes 4 v.toNat).reverse.take n

/-- The read of a host access, `none` for BUSERR (R47, R104, R105, R106). -/
def State.hostRead (s : State) (off : Nat) (w : Width) : Option ReadValue :=
  if off < 0x10000 then
    if w = .w32 ∧ off % 4 = 0 then s.readCsr off else none
  else if off < 0x10000 + s.lmemSize then
    if off % w.bytes ≠ 0 then none
    else if s.busy then some .unspecified
    else some (.exact (laneWord (s.lmem.readBytes (off - 0x10000) w.bytes)))
  else none

/-- The state after the write of a host access, `none` for BUSERR (R47, R104, R105, R106). -/
def State.hostWrite (s : State) (off : Nat) (w : Width) (v : Word) : Option State :=
  if off < 0x10000 then
    if w = .w32 ∧ off % 4 = 0 then s.writeCsr off v else none
  else if off < 0x10000 + s.lmemSize then
    if off % w.bytes ≠ 0 then none
    else if s.busy then some s.dropped
    else some { s with lmem := s.lmem.writeBytes (off - 0x10000) (laneBytes w.bytes v) }
  else none

/-- The low bits of a bus word that an access of a width carries. -/
def narrow (w : Width) (v : Word) : Word := laneWord (laneBytes w.bytes v)

/-- One step of the host (R40, R105). BUSERR changes nothing of the core (60_exceptions.md R406). An unspecified read
value is a free value (log 8). -/
def State.hostAccess (s : State) (a : Access) : State :=
  match a with
  | .read off w =>
    match s.hostRead off w with
    | none => { s with response := some .busErr }
    | some (.exact v) => { s with response := some (.data v) }
    | some .unspecified =>
      { s with response := some (.data (narrow w (Config.busyReadValue s.busyReads))), busyReads := s.busyReads + 1 }
  | .write off w v =>
    match s.hostWrite off w v with
    | none => { s with response := some .busErr }
    | some t => { t with response := some .okay }

/-- The flag bits a suffix sets (R151). `.p` sets none: FSEL = 0 is the default. -/
def suffixBits : Suffix → Word
  | .p => 0
  | .n => flagWord fselBit true
  | .pkcs7 => flagWord padBit true
  | .comp => flagWord compBit true
  | .c1c2c3 => flagWord layoutBit true
  | .prehash => flagWord prehashBit true
  | .id => flagWord useidBit true
  | .idb => flagWord useidbBit true
  | .resp => flagWord roleBit true

/-- The encoded command word of an assembler line (R151). -/
def asmWord (l : AsmLine) : Word :=
  l.suffixes.foldl (fun w x => w ||| suffixBits x) (l.mnemonic.opcode.setWidth 32)

/-- The pseudo-instruction `<command> a<i>=v, ...` (R152): the listed arguments in increasing order, then the launch. -/
def commandAccesses (l : AsmLine) : List Access :=
  ((List.range 8).flatMap fun i =>
    (l.args.filter fun a => a.1 == i).map fun a => Access.write (argOffset i) .w32 (BitVec.ofNat 32 a.2)) ++
    [.write 0x020 .w32 (asmWord l)]

/-- The pseudo-instruction `lm.put <off>, <hex bytes>` (R152). -/
def lmPut : Nat → List Byte → List Access
  | _, [] => []
  | off, b :: bs => .write (0x10000 + off) .w8 (b.setWidth 32) :: lmPut (off + 1) bs

/-- The pseudo-instruction `lm.get <off>, <len>` (R152). -/
def lmGet (off len : Nat) : List Access := (List.range len).map fun j => .read (0x10000 + off + j) .w8

/-- A register of the CSR map by name (10_state.md R46). -/
inductive CsrName where
  | id
  | version
  | cfg
  | ctrl
  | status
  | intStatus
  | intEnable
  | cmd
  | outlen
  | arg (i : Fin 8)
  | sm3V (i : Fin 8)
  | sm3Buflen
  | sm3BitlenLo
  | sm3BitlenHi
deriving DecidableEq, Repr

/-- The offset of a register (10_state.md R46). -/
def csrOffset : CsrName → Nat
  | .id => 0x000
  | .version => 0x004
  | .cfg => 0x008
  | .ctrl => 0x010
  | .status => 0x014
  | .intStatus => 0x018
  | .intEnable => 0x01C
  | .cmd => 0x020
  | .outlen => 0x024
  | .arg i => argOffset i.val
  | .sm3V i => 0x100 + 4 * i.val
  | .sm3Buflen => 0x120
  | .sm3BitlenLo => 0x124
  | .sm3BitlenHi => 0x128

/-- The pseudo-instruction `csr.rd <name>` (R152). -/
def csrRd (r : CsrName) : Access := .read (csrOffset r) .w32

/-- The pseudo-instruction `csr.wr <name>, v` (R152). -/
def csrWr (r : CsrName) (v : Word) : Access := .write (csrOffset r) .w32 v

/-- The pseudo-instruction `ack` (R152). -/
def ackAccess : Access := .write 0x018 .w32 0x00000003

/-- The read that the pseudo-instruction `wait` repeats, `Read(0x014, 32)` (R152). -/
def waitAccess : Access := csrRd .status

/-- One poll of the pseudo-instruction `wait` (R152): the read of STATUS. The loop ends when bit 0 (BUSY) of the value read
is 0. Else the core has a turn and the host polls again (log 18). -/
def State.waitStep (s : State) : State :=
  let t := s.hostAccess waitAccess
  match t.response with
  | some (.data v) => if v.getLsbD 0 then { t with schedule := .core :: .wait :: t.schedule } else t
  | _ => t

/-- The pseudo-instruction `run <command> ...` as moves (R152): the accesses of the command, then `wait`. -/
def runMoves (l : AsmLine) : List Move := (commandAccesses l).map .host ++ [.wait]

end Sys2Proof.Machine
end

