-- ==== Sys2Proof/Machine/Step.lean ====
section
/-! DEFINITION. One step of the machine (10_state.md R40): the next move of the schedule, or a turn of the core where no
move is listed. -/

namespace Sys2Proof.Machine

/-- The core's step, `Complete()` (30_encoding.md R143), enabled only while BUSY = 1. An idle core takes no step
(70_reset_and_hazards.md R451): the state stays as it is (log 5). -/
def coreStep (s : State) : Host.Outcome State Fault Refusal :=
  if s.busy then
    match decode s.cmdl with
    | .ok i => exec i s
    | .error e => .next (s.raise (illegalCommand e))
  else .next s

/-- One step (R40, log 3). -/
def step (s : State) : Host.Outcome State Fault Refusal :=
  match s.schedule with
  | [] => coreStep s
  | .core :: rest => coreStep { s with schedule := rest }
  | .wait :: rest => .next (State.waitStep { s with schedule := rest })
  | .host a :: rest => .next (State.hostAccess { s with schedule := rest } a)

/-- The state whose very next step runs the command word `w`: the word launched (30_encoding.md R142), and the core's
turn next. `nbits` is at most 32, the whole command word (log 4). -/
def State.withFetchWord (s : State) (nbits w : Nat) : State :=
  { s.launch (BitVec.ofNat 32 (w % 2 ^ nbits)) with schedule := .core :: s.schedule }

end Sys2Proof.Machine
end

