-- ==== Sys2Proof/Safety.lean ====
section
/-! DEFINITION. What claims about the machine are made of: legal states, the conditions under which a command runs, and what
a completion leaves. Stated over the state's fields and LMEM reads, apart from the checks the meanings make. -/

namespace Sys2Proof.Machine

/-- A value the open parameter `LMEM_SIZE` may take: a multiple of 64 in [1024, 65536] (00_scope.md R5). -/
abbrev LegalSize (n : Nat) : Prop := 1024 ≤ n ∧ n ≤ 65536 ∧ n % 64 = 0

/-- Every (code, detail) pair that may be reported (60_exceptions.md R400): all others are "reserved and never
reported". -/
def reportedErrors : List (Byte × Byte) :=
  [(0x01, 0x01), (0x01, 0x02), (0x01, 0x03), (0x01, 0x04), (0x01, 0x05), (0x01, 0x06), (0x01, 0x07),
   (0x02, 0x01), (0x02, 0x02), (0x02, 0x03), (0x02, 0x04), (0x03, 0x01), (0x03, 0x02), (0x03, 0x03), (0x04, 0x01),
   (0x05, 0x01), (0x05, 0x02), (0x05, 0x03), (0x07, 0x01), (0x10, 0x01), (0x10, 0x02),
   (0x11, 0), (0x11, 1), (0x11, 2), (0x11, 3), (0x11, 4), (0x11, 5), (0x11, 6), (0x11, 7),
   (0x12, 0), (0x12, 1), (0x12, 2), (0x12, 3), (0x12, 4), (0x12, 5), (0x12, 6), (0x12, 7), (0x13, 0x01)]

/-- LMEM is in canonical form and lists only offsets below `LMEM_SIZE` (10_state.md R66). -/
abbrev State.LmemLegal (s : State) : Prop := s.lmem.wf = true ∧ s.lmem.within s.lmemSize = true

/-- `BITLEN` counts whole bytes, and `BUFLEN` is their number modulo 64, so at most 63 (10_state.md R61, R64). -/
abbrev Sm3Context.Legal (c : Sm3Context) : Prop := c.bitlen.toNat % 8 = 0 ∧ c.buf.length = c.bitlen.toNat / 8 % 64

/-- Without a loaded schedule the round-key file holds its reset value (10_state.md R65). -/
abbrev State.KeysLegal (s : State) : Prop := s.keyv = false → s.rk = Vector.replicate 32 0

/-- While BUSY the report shows the launch values (70_reset_and_hazards.md R461). -/
abbrev State.BusyLegal (s : State) : Prop := s.busy = true → s.error = false ∧ s.result = false ∧ s.outlen = 0

/-- An error report is one of R400's, with RESULT and OUTLEN 0; without an error the codes are 0 (60_exceptions.md R400,
R402). -/
abbrev State.ReportLegal (s : State) : Prop :=
  if s.error then (s.errcode, s.errdetail) ∈ reportedErrors ∧ s.result = false ∧ s.outlen = 0
  else s.errcode = 0 ∧ s.errdetail = 0

/-- The invariant of the machine. -/
abbrev State.Legal (s : State) : Prop :=
  LegalSize s.lmemSize ∧ s.LmemLegal ∧ s.sm3.Legal ∧ s.KeysLegal ∧ s.BusyLegal ∧ s.ReportLegal ∧
    s.outlen.toNat ≤ s.lmemSize

/-- The `len` bytes at the offset in argument `i` lie in LMEM (20_memory.md R103). -/
abbrev State.InRange (s : State) (i : Fin 8) (len : Nat) : Prop := s.arg i + len ≤ s.lmemSize

/-- An output `[o, o + lo)` and an input `[a, a + la)` may stand together: one is empty, they start at one offset, or they
do not intersect (20_memory.md R107). -/
abbrev Apart (o lo a la : Nat) : Prop := lo = 0 ∨ la = 0 ∨ o = a ∨ o + lo ≤ a ∨ a + la ≤ o

/-- `t` is `s` after a command that ended with `finish(result, |v|)` and wrote the string `v` at `addr`: those bytes read
as `v`, every other byte of LMEM reads as before, and nothing else but BUSY, DONE, RESULT and OUTLEN changes (30_encoding.md
R143). -/
def Wrote (s t : State) (addr : Nat) (v : List Byte) (result : Bool) : Prop :=
  t.lmem.readBytes addr v.length = v ∧
  (∀ a, a < addr ∨ addr + v.length ≤ a → t.lmem.read a = s.lmem.read a) ∧
  t = { s with lmem := t.lmem, busy := false, intDone := true, result := result, outlen := BitVec.ofNat 32 v.length }

/-- The state `s` after a command that ended with `finish(result, 0)` and changed neither LMEM, the SM3 context nor the
SM4 keys (30_encoding.md R143). -/
def State.judged (s : State) (result : Bool) : State :=
  { s with busy := false, intDone := true, result := result, outlen := 0 }

/-- The state `s` after an error completion with a code and a detail (60_exceptions.md R402). -/
def State.errored (s : State) (code detail : Byte) : State :=
  { s with
    error := true, result := false, errcode := code, errdetail := detail
    outlen := 0, busy := false, intDone := true }

/-- A 64-byte slot that holds a public key (43_ec_point.md R323): not the zero slot, coordinates below p, on the curve. -/
abbrev ValidKeySlot (b : List Byte) : Prop :=
  b ≠ List.replicate 64 0 ∧ beNat (b.take 32) < primeP ∧ beNat (b.drop 32) < primeP ∧
    beNat (b.drop 32) * beNat (b.drop 32) % primeP =
      (beNat (b.take 32) * beNat (b.take 32) * beNat (b.take 32) + curveA * beNat (b.take 32) + curveB) % primeP

/-- The affine point a slot's two halves name (30_encoding.md R145). -/
def slotPoint (b : List Byte) : Point := .affine (beNat (b.take 32)) (beNat (b.drop 32))

/-- A slot of an arithmetic operand with its point: the zero slot is O (43_ec_point.md R322). -/
abbrev SlotHolds (b : List Byte) (p : Point) : Prop :=
  (b = List.replicate 64 0 ∧ p = .infinity) ∨ (ValidKeySlot b ∧ p = slotPoint b)

/-- One check of a command: what must hold, and the code and detail of the error completion if it does not
(60_exceptions.md R400, R405). -/
structure Guard where
  holds : Bool
  code : Byte
  detail : Byte
deriving DecidableEq, Repr

/-- "When several errors apply, the one reported is the first" (60_exceptions.md R405): the error of the first check that
does not hold. -/
def firstFailed : List Guard → Option (Byte × Byte)
  | [] => none
  | g :: gs => if g.holds then firstFailed gs else some (g.code, g.detail)

/-- `CheckRange(i, A[i], len)` (20_memory.md R103). -/
def State.rangeGuard (s : State) (i : Fin 8) (len : Nat) : Guard :=
  { holds := decide (s.InRange i len), code := 0x11, detail := BitVec.ofNat 8 i.val }

/-- `CheckOverlap(i, [A[i], A[i] + lo), inputs)`, an input given by its offset and length (20_memory.md R107). -/
def State.overlapGuard (s : State) (i : Fin 8) (lo : Nat) (inputs : List (Nat × Nat)) : Guard :=
  { holds := inputs.all fun x => decide (Apart (s.arg i) lo x.1 x.2), code := 0x12, detail := BitVec.ofNat 8 i.val }

/-- `KEYV = 1`, else `SequenceError(NO_KEY)` (42_sm4.md R289). -/
def State.keyGuard (s : State) : Guard := { holds := s.keyv, code := 0x13, detail := 0x01 }

/-- A length rule, else `InvalidEncoding(BAD_LENGTH)`. -/
def lengthGuard (ok : Bool) : Guard := { holds := ok, code := 0x01, detail := 0x01 }

/-- A field element below its modulus, else `InvalidField(NONCANONICAL)` (40_modarith.md R200). -/
def canonicalGuard (m a : Nat) : Guard := { holds := decide (a < m), code := 0x03, detail := 0x03 }

/-- A slot that decodes as a point or O, else `InvalidKey(NOT_ON_CURVE)` (43_ec_point.md R322). -/
def slotGuard (b : List Byte) : Guard :=
  { holds := decide (b = List.replicate 64 0 ∨ ValidKeySlot b), code := 0x02, detail := 0x02 }

/-- `ValidPub(S)`: not the zero slot, else PUB_INFINITY, and a point of the curve, else NOT_ON_CURVE (43_ec_point.md R323). -/
def publicGuards (b : List Byte) : List Guard :=
  [{ holds := decide (b ≠ List.replicate 64 0), code := 0x02, detail := 0x03 },
   { holds := decide (ValidKeySlot b), code := 0x02, detail := 0x02 }]

/-- `ValidPriv(d)`, else PRIV_RANGE (44_sm2_protocols.md R363). -/
def privateGuard (d : Nat) : Guard := { holds := decide (1 ≤ d ∧ d < orderN), code := 0x02, detail := 0x01 }

/-- The range check of an identifier at `A[i]` of length `A[j]`, made if it is in LMEM (44_sm2_protocols.md R360). -/
def State.idRangeGuards (s : State) (src : IdSource) (i j : Fin 8) : List Guard :=
  match src with
  | .defaultId => []
  | .lmemId => [s.rangeGuard i (s.arg j)]

/-- Its range as an input of the overlap rule, if it is in LMEM. -/
def State.idRange (s : State) (src : IdSource) (i j : Fin 8) : List (Nat × Nat) :=
  match src with
  | .defaultId => []
  | .lmemId => [(s.arg i, s.arg j)]

/-- Its length rule, at most 8191 bytes, else `InvalidEncoding(ID_TOO_LONG)` (44_sm2_protocols.md R360). -/
def State.idLengthGuards (s : State) (src : IdSource) (j : Fin 8) : List Guard :=
  match src with
  | .defaultId => []
  | .lmemId => [{ holds := decide (s.arg j ≤ 8191), code := 0x01, detail := 0x05 }]

/-- The identifier: the ASCII string `1234567812345678`, or the LMEM bytes (44_sm2_protocols.md R360). -/
def State.idBytes (s : State) (src : IdSource) (i j : Fin 8) : List Byte :=
  match src with
  | .defaultId =>
    [0x31, 0x32, 0x33, 0x34, 0x35, 0x36, 0x37, 0x38, 0x31, 0x32, 0x33, 0x34, 0x35, 0x36, 0x37, 0x38]
  | .lmemId => s.memRead (s.arg i) (s.arg j)

/-- The digest of SIGN and VERIFY for the message `m`, the identifier `id` and the public key `p` (44_sm2_protocols.md
R365): `BE(SM3(Z(ID, P) ‖ M))`, or `BE(M)` for a digest. -/
def digestOf (msg : MsgForm) (m id : List Byte) (p : Point) : Nat :=
  match msg with
  | .message => beNat (sm3Hash (zValue id p.x p.y ++ m))
  | .digest => beNat m

/-- `k·P` as R324 of 43_ec_point.md defines it: `0·P = O`, `(k + 1)·P = k·P + P`. -/
def Point.times : Nat → Point → Point
  | 0, _ => .infinity
  | k + 1, p => (Point.times k p).add p

/-- A point of the curve with coordinates below p, or O (43_ec_point.md R321, R322). -/
abbrev Point.Valid : Point → Prop
  | .infinity => True
  | .affine x y => x < primeP ∧ y < primeP ∧ onCurve x y = true

/-- The 32-bit match and mask of each command, as spec/opcode_table.json writes them (30_encoding.md R149). -/
def opcodeTable : List (Mnemonic × Word × Word) :=
  [(.fred, 0x00000010, 0xFFFFFEFF), (.fadd, 0x00000011, 0xFFFFFEFF), (.fsub, 0x00000012, 0xFFFFFEFF),
   (.fmul, 0x00000013, 0xFFFFFEFF), (.fsqr, 0x00000014, 0xFFFFFEFF), (.fneg, 0x00000015, 0xFFFFFEFF),
   (.finv, 0x00000016, 0xFFFFFEFF), (.fpow, 0x00000017, 0xFFFFFEFF), (.fsqrt, 0x00000018, 0xFFFFFEFF),
   (.fiszero, 0x00000019, 0xFFFFFEFF), (.fisodd, 0x0000001A, 0xFFFFFEFF), (.feq, 0x0000001B, 0xFFFFFEFF),
   (.fbinv, 0x0000001C, 0xFFFFFEFF), (.sm3init, 0x00000020, 0xFFFFFFFF), (.sm3upd, 0x00000021, 0xFFFFFFFF),
   (.sm3fin, 0x00000022, 0xFFFFFFFF), (.sm3cf, 0x00000023, 0xFFFFFFFF), (.sm3hash, 0x00000024, 0xFFFFFFFF),
   (.hmac, 0x00000025, 0xFFFFFFFF), (.hkdf, 0x00000026, 0xFFFFFFFF), (.sm4key, 0x00000030, 0xFFFFFFFF),
   (.sm4eblk, 0x00000031, 0xFFFFFFFF), (.sm4dblk, 0x00000032, 0xFFFFFFFF), (.sm4ecbe, 0x00000033, 0xFFFFFDFF),
   (.sm4ecbd, 0x00000034, 0xFFFFFDFF), (.sm4cbce, 0x00000035, 0xFFFFFDFF), (.sm4cbcd, 0x00000036, 0xFFFFFDFF),
   (.pvalid, 0x00000040, 0xFFFFFFFF), (.padd, 0x00000041, 0xFFFFFFFF), (.pdbl, 0x00000042, 0xFFFFFFFF),
   (.pneg, 0x00000043, 0xFFFFFFFF), (.pmul, 0x00000044, 0xFFFFFFFF), (.pmulg, 0x00000045, 0xFFFFFFFF),
   (.pj2a, 0x00000046, 0xFFFFFFFF), (.penc, 0x00000047, 0xFFFFFBFF), (.pdec, 0x00000048, 0xFFFFFFFF),
   (.kdf, 0x00000050, 0xFFFFFFFF), (.zval, 0x00000051, 0xFFFFDFFF), (.keygen, 0x00000052, 0xFFFFFFFF),
   (.sign, 0x00000053, 0xFFFFCFFF), (.verify, 0x00000054, 0xFFFFCFFF), (.enc, 0x00000055, 0xFFFFF7FF),
   (.dec, 0x00000056, 0xFFFFF7FF), (.keyx, 0x00000057, 0xFFFF1FFF), (.ecdh, 0x00000058, 0xFFFFFFFF)]

/-- The 256 bytes of the S-box, one row for each high digit of the input byte, as the table of 42_sm4.md R282 writes them. -/
def sboxTable : List Byte :=
  [0xD6, 0x90, 0xE9, 0xFE, 0xCC, 0xE1, 0x3D, 0xB7, 0x16, 0xB6, 0x14, 0xC2, 0x28, 0xFB, 0x2C, 0x05] ++
  [0x2B, 0x67, 0x9A, 0x76, 0x2A, 0xBE, 0x04, 0xC3, 0xAA, 0x44, 0x13, 0x26, 0x49, 0x86, 0x06, 0x99] ++
  [0x9C, 0x42, 0x50, 0xF4, 0x91, 0xEF, 0x98, 0x7A, 0x33, 0x54, 0x0B, 0x43, 0xED, 0xCF, 0xAC, 0x62] ++
  [0xE4, 0xB3, 0x1C, 0xA9, 0xC9, 0x08, 0xE8, 0x95, 0x80, 0xDF, 0x94, 0xFA, 0x75, 0x8F, 0x3F, 0xA6] ++
  [0x47, 0x07, 0xA7, 0xFC, 0xF3, 0x73, 0x17, 0xBA, 0x83, 0x59, 0x3C, 0x19, 0xE6, 0x85, 0x4F, 0xA8] ++
  [0x68, 0x6B, 0x81, 0xB2, 0x71, 0x64, 0xDA, 0x8B, 0xF8, 0xEB, 0x0F, 0x4B, 0x70, 0x56, 0x9D, 0x35] ++
  [0x1E, 0x24, 0x0E, 0x5E, 0x63, 0x58, 0xD1, 0xA2, 0x25, 0x22, 0x7C, 0x3B, 0x01, 0x21, 0x78, 0x87] ++
  [0xD4, 0x00, 0x46, 0x57, 0x9F, 0xD3, 0x27, 0x52, 0x4C, 0x36, 0x02, 0xE7, 0xA0, 0xC4, 0xC8, 0x9E] ++
  [0xEA, 0xBF, 0x8A, 0xD2, 0x40, 0xC7, 0x38, 0xB5, 0xA3, 0xF7, 0xF2, 0xCE, 0xF9, 0x61, 0x15, 0xA1] ++
  [0xE0, 0xAE, 0x5D, 0xA4, 0x9B, 0x34, 0x1A, 0x55, 0xAD, 0x93, 0x32, 0x30, 0xF5, 0x8C, 0xB1, 0xE3] ++
  [0x1D, 0xF6, 0xE2, 0x2E, 0x82, 0x66, 0xCA, 0x60, 0xC0, 0x29, 0x23, 0xAB, 0x0D, 0x53, 0x4E, 0x6F] ++
  [0xD5, 0xDB, 0x37, 0x45, 0xDE, 0xFD, 0x8E, 0x2F, 0x03, 0xFF, 0x6A, 0x72, 0x6D, 0x6C, 0x5B, 0x51] ++
  [0x8D, 0x1B, 0xAF, 0x92, 0xBB, 0xDD, 0xBC, 0x7F, 0x11, 0xD9, 0x5C, 0x41, 0x1F, 0x10, 0x5A, 0xD8] ++
  [0x0A, 0xC1, 0x31, 0x88, 0xA5, 0xCD, 0x7B, 0xBD, 0x2D, 0x74, 0xD0, 0x12, 0xB8, 0xE5, 0xB4, 0xB0] ++
  [0x89, 0x69, 0x97, 0x4A, 0x0C, 0x96, 0x77, 0x7E, 0x65, 0xB9, 0xF1, 0x09, 0xC5, 0x6E, 0xC6, 0x84] ++
  [0x18, 0xF0, 0x7D, 0xEC, 0x3A, 0xDC, 0x4D, 0x20, 0x79, 0xEE, 0x5F, 0x3E, 0xD7, 0xCB, 0x39, 0x48]

/-- The step is a turn of the core: no move is listed, or one of the core is first (10_state.md R40). -/
abbrev State.CoreTurn (s : State) : Prop := s.schedule = [] ∨ ∃ rest, s.schedule = .core :: rest

/-- A host write to what is locked while BUSY: CMD, an `SM3_Vi`, or LMEM, each as the bus accepts it (60_exceptions.md
R410; 70_reset_and_hazards.md R460). -/
abbrev State.LockedWrite (s : State) (off : Nat) (w : Width) : Prop :=
  (w = .w32 ∧ (off = 0x020 ∨ ∃ i < 8, off = 0x100 + 4 * i)) ∨
    (0x10000 ≤ off ∧ off < 0x10000 + s.lmemSize ∧ off % w.bytes = 0)

/-- The offsets of the CSR map (10_state.md R46); every other offset of the CSR region is unmapped. -/
def mappedCsrs : List Nat :=
  [0x000, 0x004, 0x008, 0x010, 0x014, 0x018, 0x01C, 0x020, 0x024, 0x040, 0x044, 0x048, 0x04C, 0x050, 0x054, 0x058,
   0x05C, 0x100, 0x104, 0x108, 0x10C, 0x110, 0x114, 0x118, 0x11C, 0x120, 0x124, 0x128]

/-- An access of a width at an offset of the host window that gets OKAY (20_memory.md R104, R105): a 32-bit access to a
mapped CSR, or a naturally aligned access inside the LMEM window. -/
abbrev State.Accessible (s : State) (off : Nat) (w : Width) : Prop :=
  (off ∈ mappedCsrs ∧ w = .w32) ∨ (0x10000 ≤ off ∧ off < 0x10000 + s.lmemSize ∧ off % w.bytes = 0)

/-- The argument register that holds the offset of a command's output range, if it has one (30_encoding.md R146: "out"). -/
def outputArg : Instr → Option (Fin 8)
  | .fred _ | .fadd _ | .fsub _ | .fmul _ | .fsqr _ | .fneg _ | .finv _ | .fpow _ | .fsqrt _ | .fbinv _ => some 2
  | .fiszero _ | .fisodd _ | .feq _ => none
  | .sm3init | .sm3upd | .sm3cf => none
  | .sm3fin => some 0
  | .sm3hash => some 2
  | .hmac => some 4
  | .hkdf => some 7
  | .sm4key => none
  | .sm4eblk | .sm4dblk => some 1
  | .sm4ecbe _ | .sm4ecbd _ | .sm4cbce _ | .sm4cbcd _ => some 2
  | .pvalid => none
  | .padd | .pdbl | .pneg | .pmul | .pmulg | .pj2a | .penc _ | .pdec => some 2
  | .kdf => some 5
  | .zval _ => some 3
  | .keygen => some 0
  | .sign _ _ => some 5
  | .verify _ _ => none
  | .enc _ => some 3
  | .dec _ => some 3
  | .keyx _ _ _ => some 6
  | .ecdh => some 2

end Sys2Proof.Machine
end

