-- ==== Sys2Proof/WellFormed.lean ====
section
/-! DEFINITION. What is well formed: a command word (30_encoding.md R141, R147), a command, and an assembler line (R151).
The flags of a command are typed, so every command is well formed. What can be ill formed is a word or a line. -/

namespace Sys2Proof

/-- OPC is an opcode of R146. -/
def opcodeListed (w : Word) : Bool := (Mnemonic.ofOpcode (opcField w)).isSome

/-- Bits 31:16 are 0 (R140: "must be 0"). -/
def reservedBitsClear (w : Word) : Bool := w &&& 0xFFFF0000#32 == 0#32

/-- Every flag bit that is 1 is legal for the opcode (R141). -/
def flagBitsLegal (w : Word) : Bool :=
  match Mnemonic.ofOpcode (opcField w) with
  | none => false
  | some m => w &&& 0x0000FF00#32 &&& ~~~m.legalFlags == 0#32

/-- A legal command word (R147). -/
def wordWellFormed (w : Word) : Bool := opcodeListed w && reservedBitsClear w && flagBitsLegal w

/-- A command is well formed when the word it stands for is legal. -/
def Instr.wellFormed (i : Instr) : Bool := wordWellFormed (encode i)

/-- The flag bit a suffix is about (R151). -/
def Suffix.flagMask : Suffix → Word
  | .p => flagWord fselBit true
  | .n => flagWord fselBit true
  | .pkcs7 => flagWord padBit true
  | .comp => flagWord compBit true
  | .c1c2c3 => flagWord layoutBit true
  | .prehash => flagWord prehashBit true
  | .id => flagWord useidBit true
  | .idb => flagWord useidbBit true
  | .resp => flagWord roleBit true

/-- "A suffix not legal for the mnemonic is an assembly error" (R151). -/
def AsmLine.suffixesLegal (l : AsmLine) : Bool := l.suffixes.all fun x => x.flagMask &&& ~~~l.mnemonic.legalFlags == 0#32

/-- `a<i>` names one of the eight argument registers (R59, R151). -/
def AsmLine.argIndicesLegal (l : AsmLine) : Bool := l.args.all fun a => decide (a.1 < 8)

/-- A value is a 32-bit unsigned number (R59). -/
def AsmLine.argValuesLegal (l : AsmLine) : Bool := l.args.all fun a => decide (a.2 < 2 ^ 32)

/-- A well-formed assembler line (R151). -/
def AsmLine.wellFormed (l : AsmLine) : Bool := l.suffixesLegal && l.argIndicesLegal && l.argValuesLegal

end Sys2Proof
end

