-- ==== Sys2Proof/Certificates/Slice0/Obligations.lean ====
section
/-! DEFINITION. The statements for the provers. A statement about a command gives its whole rule: the list of its checks
in order with the error of each (the first that does not hold ends the command), and, where all hold, the next state. -/

open Sys2Proof Sys2Proof.Machine

/-! ## Encoding -/

/-- R140, R146, R151: decoding and encoding agree on every word and every command, every flag at every value. -/
def Obligations.DecodingInvertsEncoding : Prop :=
  ∀ (w : Word) (i : Instr), decode w = .ok i ↔ encode i = w

/-- R149: a word is a command of a row of the table exactly when its bits under the row's mask are the row's match. -/
def Obligations.WordsDecodeByMatchAndMask : Prop :=
  ∀ row ∈ opcodeTable, ∀ w : Word, (w &&& row.2.2 = row.2.1 ↔ ∃ i, decode w = .ok i ∧ i.mnemonic = row.1)

/-- R147: a reserved OPC completes with BAD_OPCODE; a legal OPC with a 1 in a reserved bit or an illegal flag bit
completes with RESERVED_BITS. -/
def Obligations.IllegalWordsCompleteAsIllegalCommands : Prop :=
  ∀ s : State, s.busy = true →
    (let opc := s.cmdl.toNat % 256
     (opc ≤ 0x0F ∨ (0x1D ≤ opc ∧ opc ≤ 0x1F) ∨ (0x27 ≤ opc ∧ opc ≤ 0x2F) ∨ (0x37 ≤ opc ∧ opc ≤ 0x3F) ∨
        (0x49 ≤ opc ∧ opc ≤ 0x4F) ∨ 0x59 ≤ opc) →
      coreStep s = .next (s.errored 0x10 0x01)) ∧
    (∀ row ∈ opcodeTable, row.2.1 = s.cmdl &&& 0xFF#32 → s.cmdl &&& row.2.2 ≠ row.2.1 →
      coreStep s = .next (s.errored 0x10 0x02))

/-- R153: the worked encodings. -/
def Obligations.WorkedEncodingsAssembleAndDecode : Prop :=
  commandAccesses { mnemonic := .fadd, suffixes := [.n], args := [(0, 0x0), (1, 0x20), (2, 0x40)] } =
    [.write 0x040 .w32 0x0, .write 0x044 .w32 0x20, .write 0x048 .w32 0x40, .write 0x020 .w32 0x00000111] ∧
  decode 0x00000111 = .ok (.fadd .fn) ∧
  asmWord { mnemonic := .sm4cbcd, suffixes := [.pkcs7], args := [] } = 0x00000236 ∧
  decode 0x00000236 = .ok (.sm4cbcd .pkcs7) ∧
  asmWord { mnemonic := .keyx, suffixes := [.id, .idb, .resp], args := [] } = 0x0000E057 ∧
  decode 0x0000E057 = .ok (.keyx .lmemId .lmemId .responder) ∧
  asmWord { mnemonic := .sign, suffixes := [.prehash], args := [] } = 0x00001053 ∧
  decode 0x00001053 = .ok (.sign .digest .defaultId) ∧
  (∀ s : State, s.busy = true → s.cmdl = 0x00000211 → coreStep s = .next (s.errored 0x10 0x02))

/-- R151: a well-formed line assembles to a legal word of its mnemonic, with a flag bit 1 exactly for its suffix. That a line
with both `.p` and `.n` is well-formed and has FSEL = 1 is the model's choice (log 20). -/
def Obligations.WellFormedLinesAssembleToTheirCommand : Prop :=
  ∀ l : AsmLine, l.wellFormed = true →
    (∃ i, decode (asmWord l) = .ok i ∧ i.mnemonic = l.mnemonic) ∧
    (asmWord l).toNat % 256 = l.mnemonic.opcode.toNat ∧
    (asmWord l).getLsbD 8 = decide (Suffix.n ∈ l.suffixes) ∧
    (asmWord l).getLsbD 9 = decide (Suffix.pkcs7 ∈ l.suffixes) ∧
    (asmWord l).getLsbD 10 = decide (Suffix.comp ∈ l.suffixes) ∧
    (asmWord l).getLsbD 11 = decide (Suffix.c1c2c3 ∈ l.suffixes) ∧
    (asmWord l).getLsbD 12 = decide (Suffix.prehash ∈ l.suffixes) ∧
    (asmWord l).getLsbD 13 = decide (Suffix.id ∈ l.suffixes) ∧
    (asmWord l).getLsbD 14 = decide (Suffix.idb ∈ l.suffixes) ∧
    (asmWord l).getLsbD 15 = decide (Suffix.resp ∈ l.suffixes)

/-! ## The step -/

/-- R40, R143, R451, R152: the core's turn runs the decoded command, an idle core changes nothing but the schedule, a
host's turn is its bus access, and a poll of `wait` reads STATUS and, while BUSY, comes again. The schedule, and the core's
turn between two polls, are the model's choices (logs 3, 5, 18). -/
def Obligations.StepRunsTheDecodedCommand : Prop :=
  ∀ s : State,
    (s.CoreTurn →
      (∀ i, s.busy = true → decode s.cmdl = .ok i → step s = exec i { s with schedule := s.schedule.tail }) ∧
      (s.busy = false → step s = .next { s with schedule := s.schedule.tail })) ∧
    (∀ a rest, s.schedule = .host a :: rest → step s = .next (State.hostAccess { s with schedule := rest } a)) ∧
    (∀ rest, s.schedule = .wait :: rest → step s = .next { s with
      schedule := if s.busy then .core :: .wait :: rest else rest, response := some (.data s.statusWord) })

/-- R400, R402: an error report that a command leaves is one of the reported pairs, in a state that differs only in STATUS,
OUTLEN, DONE and the draw used up. That every command answers a next state, a pass of SIGN or ENC that retries among them,
is the model's inference (logs 7, 21). -/
def Obligations.ErrorCompletionsArePrecise : Prop :=
  ∀ (i : Instr) (s : State), s.error = false →
    ∃ t, exec i s = .next t ∧
      (t.error = true → ∃ c d, (c, d) ∈ reportedErrors ∧ (t = s.errored c d ∨ t = s.afterDraw.errored c d))

/-- R421: a command whose completion step leaves BUSY at 1 is SIGN or ENC, retrying: only the draw is used up. -/
def Obligations.OnlySignAndEncRetry : Prop :=
  ∀ (i : Instr) (s t : State), s.busy = true → exec i s = .next t → t.busy = true →
    t = s.afterDraw ∧ ((∃ msg id, i = .sign msg id) ∨ ∃ layout, i = .enc layout)

/-- R65, R64: the step changes the SM4 key state only in a turn of the core that runs SM4KEY or by a soft reset, and the SM3
context only in a turn that runs SM3INIT, SM3UPD, SM3FIN or SM3CF, by an idle host write to an `SM3_Vi` or by a soft reset. -/
def Obligations.KeyStateAndHashContextHaveTheirWriters : Prop :=
  ∀ s t : State, step s = .next t →
    ((t.rk ≠ s.rk ∨ t.keyv ≠ s.keyv) →
      (s.CoreTurn ∧ s.busy = true ∧ decode s.cmdl = .ok .sm4key) ∨
      ∃ v rest, s.schedule = .host (.write 0x010 .w32 v) :: rest ∧ v.getLsbD 0 = true) ∧
    (t.sm3 ≠ s.sm3 →
      (s.CoreTurn ∧ s.busy = true ∧ ∃ i, decode s.cmdl = .ok i ∧ i ∈ [.sm3init, .sm3upd, .sm3fin, .sm3cf]) ∨
      (s.busy = false ∧ ∃ i v rest, i < 8 ∧ s.schedule = .host (.write (0x100 + 4 * i) .w32 v) :: rest) ∨
      ∃ v rest, s.schedule = .host (.write 0x010 .w32 v) :: rest ∧ v.getLsbD 0 = true)

/-- R45, R55, R56, R58, R59: no command changes `ARGi`, `A[i]`, CMDL, INT_ENABLE, OVR or `LMEM_SIZE`, nor the model's own
schedule, count of free reads and response, nor any byte of LMEM outside the OUTLEN bytes of its output range. -/
def Obligations.CommandsChangeOnlyTheirOutput : Prop :=
  ∀ (i : Instr) (s t : State), s.lmemSize ≤ 65536 → exec i s = .next t →
    t.args = s.args ∧ t.latched = s.latched ∧ t.cmdl = s.cmdl ∧ t.doneEn = s.doneEn ∧ t.ovrEn = s.ovrEn ∧
    t.intOvr = s.intOvr ∧ t.lmemSize = s.lmemSize ∧ t.schedule = s.schedule ∧ t.busyReads = s.busyReads ∧
    t.response = s.response ∧
    (outputArg i = none → t.lmem = s.lmem) ∧
    (∀ k, outputArg i = some k → ∀ a, a < s.arg k ∨ s.arg k + t.outlen.toNat ≤ a → t.lmem.read a = s.lmem.read a)

/-- The invariant: a legal LMEM size, LMEM in canonical form inside it, a legal SM3 context, zero round keys without a
schedule, launch values while BUSY, a reported error or none, and OUTLEN within LMEM (R5, R54, R58, R61, R64, R65, R400,
R402, R461). -/
def Obligations.StepKeepsTheStateLegal : Prop :=
  ∀ s t : State, s.Legal → step s = .next t → t.Legal

/-- The state after power-on is legal, for every legal size and canonical contents of LMEM, and so is the model's reset. -/
def Obligations.PowerOnIsLegal : Prop :=
  (∀ (n : Nat) (m : Memory), LegalSize n → m.wf = true → m.within n = true → (State.powerOn n m).Legal) ∧
    State.reset.Legal

/-! ## Launch, reset, interrupts and the host bus -/

/-- R142: the launch. -/
def Obligations.LaunchLatchesCommandAndArguments : Prop :=
  ∀ (s : State) (w : Word), s.busy = false →
    s.hostAccess (.write 0x020 .w32 w) =
      { s with
        cmdl := w, latched := s.args, busy := true, error := false, result := false
        errcode := 0x00, errdetail := 0x00, outlen := 0, response := some .okay }

/-- R450: what every register holds after power-on; LMEM holds what it held. -/
def Obligations.PowerOnRegisterValues : Prop :=
  ∀ (n : Nat) (m : Memory),
    let s := State.powerOn n m
    s.readCsr 0x000 = some (.exact 0x534D4332) ∧ s.readCsr 0x004 = some (.exact 0x00000007) ∧
    s.readCsr 0x008 = some (.exact (BitVec.ofNat 32 n)) ∧ s.readCsr 0x010 = some (.exact 0) ∧
    s.readCsr 0x014 = some (.exact 0) ∧ s.readCsr 0x018 = some (.exact 0) ∧ s.readCsr 0x01C = some (.exact 0) ∧
    s.readCsr 0x020 = some (.exact 0) ∧ s.readCsr 0x024 = some (.exact 0) ∧
    (∀ i < 8, s.readCsr (0x040 + 4 * i) = some (.exact 0)) ∧
    (∀ i < 8, s.readCsr (0x100 + 4 * i) = some (.exact
      ([0x7380166F, 0x4914B2B9, 0x172442D7, 0xDA8A0600, 0xA96F30BC, 0x163138AA, 0xE38DEE4D, 0xB0FB0E4E].getD i 0))) ∧
    s.readCsr 0x120 = some (.exact 0) ∧ s.readCsr 0x124 = some (.exact 0) ∧ s.readCsr 0x128 = some (.exact 0) ∧
    (∀ (i : Nat) (h : i < 32), s.rk[i] = 0) ∧ (∀ (i : Nat) (h : i < 8), s.latched[i] = 0) ∧ s.sm3.buf = [] ∧
    s.irq = false ∧ s.lmem = m

/-- R452, R53: a write to CTRL with bit 0 = 1, idle or busy, restores the power-on values and keeps LMEM; with bit 0 = 0 it
does nothing. The model's own fields go on (log 23). -/
def Obligations.SoftResetRestoresPowerOnAndKeepsLmem : Prop :=
  ∀ (s : State) (v : Word),
    (v.getLsbD 0 = true → s.hostAccess (.write 0x010 .w32 v) =
      { State.powerOn s.lmemSize s.lmem with
        schedule := s.schedule, entropy := s.entropy, drawCount := s.drawCount, busyReads := s.busyReads
        response := some .okay }) ∧
    (v.getLsbD 0 = false → s.hostAccess (.write 0x010 .w32 v) = { s with response := some .okay })

/-- R410, R411: the interrupt output, and what sets its two sources: a completion DONE, a dropped write (to CMD, an `SM3_Vi`
or LMEM while BUSY) OVR, and each of them does. -/
def Obligations.InterruptSourcesAreCompletionsAndDroppedWrites : Prop :=
  (∀ s : State, s.irq = ((s.intDone && s.doneEn) || (s.intOvr && s.ovrEn))) ∧
  (∀ s t : State, step s = .next t →
    (s.intDone = false → t.intDone = true → s.CoreTurn ∧ s.busy = true ∧ t.busy = false) ∧
    (s.CoreTurn → s.busy = true → t.busy = false → t.intDone = true) ∧
    (s.intOvr = false → t.intOvr = true → s.busy = true ∧
      ∃ off w v rest, s.schedule = .host (.write off w v) :: rest ∧ s.LockedWrite off w) ∧
    (∀ off w v rest, s.busy = true → s.schedule = .host (.write off w v) :: rest → s.LockedWrite off w →
      t.intOvr = true))

/-- R460, R47, R53: the busy window, with the writes that have no effect: to a read-only register, and to CTRL with bit 0 = 0.
The values its reads of LMEM and SM3_V0..7 return are the model's free values (log entry 8). -/
def Obligations.BusyWindowEffects : Prop :=
  ∀ s : State, s.busy = true →
    (∀ w, s.hostAccess (.write 0x020 .w32 w) = { s with intOvr := true, response := some .okay }) ∧
    (∀ i v, i < 8 →
      s.hostAccess (.write (0x100 + 4 * i) .w32 v) = { s with intOvr := true, response := some .okay }) ∧
    (∀ off w v, off < s.lmemSize → off % w.bytes = 0 →
      s.hostAccess (.write (0x10000 + off) w v) = { s with intOvr := true, response := some .okay }) ∧
    (∀ off w, off < s.lmemSize → off % w.bytes = 0 →
      s.hostAccess (.read (0x10000 + off) w) =
        { s with response := some (.data (narrow w (Config.busyReadValue s.busyReads))), busyReads := s.busyReads + 1 }) ∧
    (∀ i, i < 8 → s.hostAccess (.read (0x100 + 4 * i) .w32) =
      { s with response := some (.data (narrow .w32 (Config.busyReadValue s.busyReads))), busyReads := s.busyReads + 1 }) ∧
    (∀ i v (h : i < 8), s.hostAccess (.write (0x040 + 4 * i) .w32 v) =
      { s with args := s.args.set i v, response := some .okay }) ∧
    (∀ v, s.hostAccess (.write 0x018 .w32 v) =
      { s with
        intDone := s.intDone && !v.getLsbD 0, intOvr := s.intOvr && !v.getLsbD 1, response := some .okay }) ∧
    (∀ v, s.hostAccess (.write 0x01C .w32 v) =
      { s with doneEn := v.getLsbD 0, ovrEn := v.getLsbD 1, response := some .okay }) ∧
    (∀ v, v.getLsbD 0 = true → s.hostAccess (.write 0x010 .w32 v) = { s.softReset with response := some .okay }) ∧
    (∀ v, v.getLsbD 0 = false → s.hostAccess (.write 0x010 .w32 v) = { s with response := some .okay }) ∧
    (∀ off ∈ [0x000, 0x004, 0x008, 0x014, 0x024, 0x120, 0x124, 0x128], ∀ v,
      s.hostAccess (.write off .w32 v) = { s with response := some .okay }) ∧
    (∀ off, off ∈ mappedCsrs → ¬(0x100 ≤ off ∧ off ≤ 0x11C) →
      ∃ v, s.readCsr off = some (.exact v) ∧ s.hostAccess (.read off .w32) = { s with response := some (.data v) }) ∧
    (∀ off w v, ¬s.Accessible off w →
      s.hostAccess (.read off w) = { s with response := some .busErr } ∧
      s.hostAccess (.write off w v) = { s with response := some .busErr })

/-- R105, R406: an access gets BUSERR exactly when it is not to a mapped CSR at full width nor an aligned access inside the
LMEM window, and then nothing but the bus response changes. -/
def Obligations.BusErrorsChangeNothing : Prop :=
  ∀ (s : State) (off : Nat) (w : Width) (v : Word),
    (¬s.Accessible off w →
      s.hostAccess (.read off w) = { s with response := some .busErr } ∧
      s.hostAccess (.write off w v) = { s with response := some .busErr }) ∧
    (s.Accessible off w →
      (∃ d, (s.hostAccess (.read off w)).response = some (.data d)) ∧
      (s.hostAccess (.write off w v)).response = some .okay)

/-- R105, R106: while idle, an LMEM access of a width reads or writes its bytes little-endian on the bus, and leaves every
other byte and everything else as it was. -/
def Obligations.LmemWindowIsLittleEndian : Prop :=
  ∀ (s : State) (o : Nat) (w : Width) (v : Word), s.lmem.wf = true → s.busy = false → o < s.lmemSize → o % w.bytes = 0 →
    (∃ d, s.hostAccess (.read (0x10000 + o) w) = { s with response := some (.data d) } ∧
      (∀ j < w.bytes, d.extractLsb' (8 * j) 8 = s.lmem.read (o + j)) ∧ d.toNat < 256 ^ w.bytes) ∧
    (let t := s.hostAccess (.write (0x10000 + o) w v)
     (∀ j < w.bytes, t.lmem.read (o + j) = v.extractLsb' (8 * j) 8) ∧
     (∀ a, a < o ∨ o + w.bytes ≤ a → t.lmem.read a = s.lmem.read a) ∧
     t = { s with lmem := t.lmem, response := some .okay })

/-- R47, R50-R62, R110: what a read of each register returns, bit by bit (`SM3_Vi` while idle); no idle read of a register
changes anything but the bus response. -/
def Obligations.RegisterReads : Prop :=
  ∀ s : State,
    (s.busy = false → ∀ off ∈ mappedCsrs, ∃ v, s.readCsr off = some (.exact v) ∧
      s.hostAccess (.read off .w32) = { s with response := some (.data v) }) ∧
    s.readCsr 0x000 = some (.exact 0x534D4332) ∧ s.readCsr 0x004 = some (.exact 0x00000007) ∧
    s.readCsr 0x008 = some (.exact (BitVec.ofNat 32 s.lmemSize)) ∧ s.readCsr 0x010 = some (.exact 0) ∧
    (∃ v, s.readCsr 0x014 = some (.exact v) ∧ v.getLsbD 0 = s.busy ∧ v.getLsbD 1 = s.error ∧ v.getLsbD 2 = s.result ∧
      v.getLsbD 3 = s.keyv ∧ v.extractLsb' 4 4 = 0 ∧ v.extractLsb' 8 8 = s.errcode ∧
      v.extractLsb' 16 8 = s.errdetail ∧ v.extractLsb' 24 8 = 0) ∧
    (∃ v, s.readCsr 0x018 = some (.exact v) ∧ v.getLsbD 0 = s.intDone ∧ v.getLsbD 1 = s.intOvr ∧ v.extractLsb' 2 30 = 0) ∧
    (∃ v, s.readCsr 0x01C = some (.exact v) ∧ v.getLsbD 0 = s.doneEn ∧ v.getLsbD 1 = s.ovrEn ∧ v.extractLsb' 2 30 = 0) ∧
    s.readCsr 0x020 = some (.exact s.cmdl) ∧ s.readCsr 0x024 = some (.exact s.outlen) ∧
    (∀ (i : Nat) (h : i < 8), s.readCsr (0x040 + 4 * i) = some (.exact s.args[i])) ∧
    (s.busy = false → ∀ (i : Nat) (h : i < 8), s.readCsr (0x100 + 4 * i) = some (.exact s.sm3.v[i])) ∧
    s.readCsr 0x120 = some (.exact (BitVec.ofNat 32 s.sm3.buf.length)) ∧
    (∃ lo hi, s.readCsr 0x124 = some (.exact lo) ∧ s.readCsr 0x128 = some (.exact hi) ∧ hi ++ lo = s.sm3.bitlen)

/-- R47, R55, R56, R59, R60: what an idle write to each register but CTRL and CMD does; a write to a read-only register
does nothing, idle or busy. -/
def Obligations.IdleRegisterWrites : Prop :=
  ∀ (s : State) (v : Word),
    (s.busy = false →
      (∀ i (h : i < 8), s.hostAccess (.write (0x040 + 4 * i) .w32 v) =
        { s with args := s.args.set i v, response := some .okay }) ∧
      (∀ i (h : i < 8), s.hostAccess (.write (0x100 + 4 * i) .w32 v) =
        { s with sm3 := { s.sm3 with v := s.sm3.v.set i v }, response := some .okay }) ∧
      s.hostAccess (.write 0x018 .w32 v) =
        { s with
          intDone := s.intDone && !v.getLsbD 0, intOvr := s.intOvr && !v.getLsbD 1, response := some .okay } ∧
      s.hostAccess (.write 0x01C .w32 v) =
        { s with doneEn := v.getLsbD 0, ovrEn := v.getLsbD 1, response := some .okay }) ∧
    (∀ off ∈ [0x000, 0x004, 0x008, 0x014, 0x024, 0x120, 0x124, 0x128],
      s.hostAccess (.write off .w32 v) = { s with response := some .okay })

/-! ## Modular arithmetic -/

/-- R202, R203, R204, R200: FADD, FSUB and FMUL. -/
def Obligations.FaddFsubFmulFollowTheirRules : Prop :=
  ∀ (f : FieldSel) (s : State), s.lmem.wf = true →
    let m := modulus f
    let a := s.scalar (s.arg 0)
    let b := s.scalar (s.arg 1)
    match firstFailed [s.rangeGuard 0 32, s.rangeGuard 1 32, s.rangeGuard 2 32,
        s.overlapGuard 2 32 [(s.arg 0, 32), (s.arg 1, 32)], canonicalGuard m a, canonicalGuard m b] with
    | some (c, d) =>
      exec (.fadd f) s = .next (s.errored c d) ∧ exec (.fsub f) s = .next (s.errored c d) ∧
        exec (.fmul f) s = .next (s.errored c d)
    | none =>
      (∃ t, exec (.fadd f) s = .next t ∧ Wrote s t (s.arg 2) (beBytes 32 ((a + b) % m)) false) ∧
      (∃ t, exec (.fsub f) s = .next t ∧
        Wrote s t (s.arg 2) (beBytes 32 (((a : Int) - (b : Int)) % (m : Int)).toNat) false) ∧
      (∃ t, exec (.fmul f) s = .next t ∧ Wrote s t (s.arg 2) (beBytes 32 (a * b % m)) false)

/-- R205, R206, R207, R200: FSQR, FNEG and FINV; the inverse is the one `r` in [1, m−1] with `r·a ≡ 1`, and 0 ends FINV with
INV_ZERO. -/
def Obligations.FsqrFnegFinvFollowTheirRules : Prop :=
  ∀ (f : FieldSel) (s : State), s.lmem.wf = true →
    let m := modulus f
    let a := s.scalar (s.arg 0)
    let checks := [s.rangeGuard 0 32, s.rangeGuard 2 32, s.overlapGuard 2 32 [(s.arg 0, 32)], canonicalGuard m a]
    (match firstFailed checks with
      | some (c, d) => exec (.fsqr f) s = .next (s.errored c d) ∧ exec (.fneg f) s = .next (s.errored c d)
      | none =>
        (∃ t, exec (.fsqr f) s = .next t ∧ Wrote s t (s.arg 2) (beBytes 32 (a * a % m)) false) ∧
        (∃ t, exec (.fneg f) s = .next t ∧ Wrote s t (s.arg 2) (beBytes 32 ((m - a) % m)) false)) ∧
    (match firstFailed (checks ++ [{ holds := decide (a ≠ 0), code := 0x03, detail := 0x01 }]) with
      | some (c, d) => exec (.finv f) s = .next (s.errored c d)
      | none =>
        ∃ r t, 1 ≤ r ∧ r < m ∧ r * a % m = 1 ∧ exec (.finv f) s = .next t ∧ Wrote s t (s.arg 2) (beBytes 32 r) false)

/-- R208, R200: FPOW, for every 32-byte exponent. -/
def Obligations.FpowFollowsItsRule : Prop :=
  ∀ (f : FieldSel) (s : State), s.lmem.wf = true →
    let m := modulus f
    let a := s.scalar (s.arg 0)
    match firstFailed [s.rangeGuard 0 32, s.rangeGuard 1 32, s.rangeGuard 2 32,
        s.overlapGuard 2 32 [(s.arg 0, 32), (s.arg 1, 32)], canonicalGuard m a] with
    | some (c, d) => exec (.fpow f) s = .next (s.errored c d)
    | none =>
      ∃ t, exec (.fpow f) s = .next t ∧ Wrote s t (s.arg 2) (beBytes 32 (a ^ s.scalar (s.arg 1) % m)) false

/-- R209, R200: FSQRT writes exactly `a^((m+1)/4) mod m`, if its square is `a`; else NQR. -/
def Obligations.FsqrtFollowsItsRule : Prop :=
  ∀ (f : FieldSel) (s : State), s.lmem.wf = true →
    let m := modulus f
    let a := s.scalar (s.arg 0)
    let r := a ^ ((m + 1) / 4) % m
    match firstFailed [s.rangeGuard 0 32, s.rangeGuard 2 32, s.overlapGuard 2 32 [(s.arg 0, 32)], canonicalGuard m a,
        { holds := decide (r * r % m = a), code := 0x03, detail := 0x02 }] with
    | some (c, d) => exec (.fsqrt f) s = .next (s.errored c d)
    | none => ∃ t, exec (.fsqrt f) s = .next t ∧ Wrote s t (s.arg 2) (beBytes 32 r) false

/-- R201: FRED, any integer of at most 64 bytes. -/
def Obligations.FredFollowsItsRule : Prop :=
  ∀ (f : FieldSel) (s : State), s.lmem.wf = true →
    match firstFailed [s.rangeGuard 0 (s.arg 1), s.rangeGuard 2 32, s.overlapGuard 2 32 [(s.arg 0, s.arg 1)],
        lengthGuard (decide (s.arg 1 ≤ 64))] with
    | some (c, d) => exec (.fred f) s = .next (s.errored c d)
    | none =>
      ∃ t, exec (.fred f) s = .next t ∧
        Wrote s t (s.arg 2) (beBytes 32 (beNat (s.memRead (s.arg 0) (s.arg 1)) % modulus f)) false

/-- R210, R211, R212, R200: FISZERO, FISODD and FEQ report in RESULT and write nothing. -/
def Obligations.FieldPredicatesFollowTheirRules : Prop :=
  ∀ (f : FieldSel) (s : State),
    let m := modulus f
    let a := s.scalar (s.arg 0)
    let b := s.scalar (s.arg 1)
    (match firstFailed [s.rangeGuard 0 32, canonicalGuard m a] with
      | some (c, d) => exec (.fiszero f) s = .next (s.errored c d) ∧ exec (.fisodd f) s = .next (s.errored c d)
      | none =>
        exec (.fiszero f) s = .next (s.judged (decide (a = 0))) ∧
          exec (.fisodd f) s = .next (s.judged (decide (a % 2 = 1)))) ∧
    (match firstFailed [s.rangeGuard 0 32, s.rangeGuard 1 32, canonicalGuard m a, canonicalGuard m b] with
      | some (c, d) => exec (.feq f) s = .next (s.errored c d)
      | none => exec (.feq f) s = .next (s.judged (decide (a = b))))

/-- R213, R200: FBINV writes the inverse of each of its k elements. -/
def Obligations.FbinvFollowsItsRule : Prop :=
  ∀ (f : FieldSel) (s : State), s.lmem.wf = true →
    let m := modulus f
    let k := s.arg 1
    let a := fun i => s.scalar (s.arg 0 + 32 * i)
    match firstFailed ([s.rangeGuard 0 (32 * k), s.rangeGuard 2 (32 * k), s.overlapGuard 2 (32 * k) [(s.arg 0, 32 * k)]] ++
        (List.range k).map (fun i => canonicalGuard m (a i)) ++
        [{ holds := decide (∀ i ∈ List.range k, a i ≠ 0), code := 0x03, detail := 0x01 }]) with
    | some (c, d) => exec (.fbinv f) s = .next (s.errored c d)
    | none =>
      ∃ r : Nat → Nat, ∃ t, (∀ i < k, 1 ≤ r i ∧ r i < m ∧ r i * a i % m = 1) ∧ exec (.fbinv f) s = .next t ∧
        Wrote s t (s.arg 2) ((List.range k).flatMap fun i => beBytes 32 (r i)) false

/-! ## SM3 -/

/-- R241, R242, R244, R245: the compression function runs 64 rounds on the expanded block. The rotation of R8, the boolean
functions and the permutations are written out. -/
def Obligations.CompressionRunsItsRounds : Prop :=
  ∀ (v : Vector Word 8) (blk : List Byte), blk.length = 64 →
    let R := fun (x : Word) (n : Nat) => BitVec.ofNat 32 ((x.toNat <<< (n % 32)) ||| (x.toNat >>> (32 - n % 32)))
    let P0 := fun x : Word => x ^^^ R x 9 ^^^ R x 17
    let P1 := fun x : Word => x ^^^ R x 15 ^^^ R x 23
    let FF := fun (j : Nat) (x y z : Word) => if j < 16 then x ^^^ y ^^^ z else (x &&& y) ||| (x &&& z) ||| (y &&& z)
    let GG := fun (j : Nat) (x y z : Word) => if j < 16 then x ^^^ y ^^^ z else (x &&& y) ||| (~~~x &&& z)
    ∃ W A B C D E F G H : Nat → Word,
      (∀ j < 16, W j = BitVec.ofNat 32 (beNat (slice blk (4 * j) (4 * j + 4)))) ∧
      (∀ j, 16 ≤ j → j < 68 →
        W j = P1 (W (j - 16) ^^^ W (j - 9) ^^^ R (W (j - 3)) 15) ^^^ R (W (j - 13)) 7 ^^^ W (j - 6)) ∧
      A 0 = v[0] ∧ B 0 = v[1] ∧ C 0 = v[2] ∧ D 0 = v[3] ∧ E 0 = v[4] ∧ F 0 = v[5] ∧ G 0 = v[6] ∧ H 0 = v[7] ∧
      (∀ j < 64,
        let T : Word := if j < 16 then 0x79CC4519 else 0x7A879D8A
        let SS1 := R (R (A j) 12 + E j + R T (j % 32)) 7
        let SS2 := SS1 ^^^ R (A j) 12
        let TT1 := FF j (A j) (B j) (C j) + D j + SS2 + (W j ^^^ W (j + 4))
        let TT2 := GG j (E j) (F j) (G j) + H j + SS1 + W j
        A (j + 1) = TT1 ∧ B (j + 1) = A j ∧ C (j + 1) = R (B j) 9 ∧ D (j + 1) = C j ∧
        E (j + 1) = P0 TT2 ∧ F (j + 1) = E j ∧ G (j + 1) = R (F j) 19 ∧ H (j + 1) = G j) ∧
      sm3CF v blk = #v[A 64 ^^^ v[0], B 64 ^^^ v[1], C 64 ^^^ v[2], D 64 ^^^ v[3],
        E 64 ^^^ v[4], F 64 ^^^ v[5], G 64 ^^^ v[6], H 64 ^^^ v[7]]

/-- R250, R251, R252, R253: SM3INIT, SM3UPD, SM3FIN and SM3CF. -/
def Obligations.StreamingCommandsFollowTheirRules : Prop :=
  ∀ s : State, s.lmem.wf = true →
    exec .sm3init s = .next { s.judged false with sm3 := Sm3Context.iv } ∧
    (match firstFailed [s.rangeGuard 0 (s.arg 1),
        { holds := decide (s.sm3.bitlen.toNat + 8 * s.arg 1 < 2 ^ 64), code := 0x01, detail := 0x06 }] with
      | some (c, d) => exec .sm3upd s = .next (s.errored c d)
      | none =>
        exec .sm3upd s =
          .next { s.judged false with sm3 := s.sm3.absorb (s.memRead (s.arg 0) (s.arg 1)) }) ∧
    (match firstFailed [s.rangeGuard 0 32] with
      | some (c, d) => exec .sm3fin s = .next (s.errored c d)
      | none =>
        ∃ t, exec .sm3fin s = .next t ∧ t.sm3 = Sm3Context.iv ∧
          Wrote s { t with sm3 := s.sm3 } (s.arg 0) s.sm3.final false) ∧
    (match firstFailed [s.rangeGuard 0 64] with
      | some (c, d) => exec .sm3cf s = .next (s.errored c d)
      | none =>
        exec .sm3cf s =
          .next { s.judged false with sm3 := { s.sm3 with v := sm3CF s.sm3.v (s.memRead (s.arg 0) 64) } })

/-- R246: absorbing counts the bits, keeps fewer than 64 bytes and compresses each full block in order; finishing pads the
rest with the context's bit count; and for every split of a message, absorbing the parts from the IV context and finishing
gives SM3 of the whole. -/
def Obligations.StreamingEqualsOneShot : Prop :=
  (∀ (c : Sm3Context) (S : List Byte), c.buf.length < 64 →
    let T := c.buf ++ S
    (c.absorb S).bitlen = c.bitlen + BitVec.ofNat 64 (8 * S.length) ∧ (c.absorb S).buf.length < 64 ∧
    (T.length < 64 → (c.absorb S).v = c.v ∧ (c.absorb S).buf = T) ∧
    (64 ≤ T.length →
      let next : Sm3Context := { v := sm3CF c.v (T.take 64), buf := [], bitlen := c.bitlen }
      (c.absorb S).v = (next.absorb (T.drop 64)).v ∧ (c.absorb S).buf = (next.absorb (T.drop 64)).buf) ∧
    c.final = wordBytes (sm3Blocks c.v (sm3Pad c.buf c.bitlen.toNat)).toList) ∧
  (∀ parts : List (List Byte), 8 * parts.flatten.length < 2 ^ 64 →
    (parts.foldl Sm3Context.absorb Sm3Context.iv).final = sm3Hash parts.flatten)

/-- R254, R255, R247, R243: SM3HASH and HMAC, with SM3 as padding and compression and HMAC spelt out. -/
def Obligations.Sm3hashAndHmacFollowTheirRules : Prop :=
  ∀ s : State, s.lmem.wf = true →
    (match firstFailed [s.rangeGuard 0 (s.arg 1), s.rangeGuard 2 32, s.overlapGuard 2 32 [(s.arg 0, s.arg 1)]] with
      | some (c, d) => exec .sm3hash s = .next (s.errored c d)
      | none =>
        let M := s.memRead (s.arg 0) (s.arg 1)
        ∃ (z : Nat) (t : State), z < 64 ∧ (M.length + 1 + z) % 64 = 56 ∧ exec .sm3hash s = .next t ∧
          Wrote s t (s.arg 2)
            (wordBytes (sm3Blocks #v[0x7380166F, 0x4914B2B9, 0x172442D7, 0xDA8A0600, 0xA96F30BC, 0x163138AA, 0xE38DEE4D,
                0xB0FB0E4E] (M ++ [0x80] ++ List.replicate z 0 ++ beBytes 8 (8 * M.length))).toList) false) ∧
    (match firstFailed [s.rangeGuard 0 (s.arg 1), s.rangeGuard 2 (s.arg 3), s.rangeGuard 4 32,
        s.overlapGuard 4 32 [(s.arg 0, s.arg 1), (s.arg 2, s.arg 3)]] with
      | some (c, d) => exec .hmac s = .next (s.errored c d)
      | none =>
        let K := s.memRead (s.arg 0) (s.arg 1)
        let K' := if K.length > 64 then sm3Hash K else K
        let K0 := K' ++ List.replicate (64 - K'.length) 0
        ∃ t, exec .hmac s = .next t ∧
          Wrote s t (s.arg 4) (sm3Hash (K0.map (· ^^^ 0x5C) ++ sm3Hash (K0.map (· ^^^ 0x36) ++
            s.memRead (s.arg 2) (s.arg 3)))) false)

/-- R256, R248: HKDF; `T 1 ‖ T 2 ‖ ...` are the blocks of the expand step. -/
def Obligations.HkdfFollowsItsRule : Prop :=
  ∀ s : State, s.lmem.wf = true →
    match firstFailed [s.rangeGuard 0 (s.arg 1), s.rangeGuard 2 (s.arg 3), s.rangeGuard 4 (s.arg 5),
        s.rangeGuard 7 (s.arg 6), s.overlapGuard 7 (s.arg 6) [(s.arg 0, s.arg 1), (s.arg 2, s.arg 3), (s.arg 4, s.arg 5)],
        { holds := decide (s.arg 6 ≤ 8160), code := 0x01, detail := 0x07 }] with
    | some (c, d) => exec .hkdf s = .next (s.errored c d)
    | none =>
      let salt := if s.arg 3 = 0 then List.replicate 32 0 else s.memRead (s.arg 2) (s.arg 3)
      let PRK := hmacSm3 salt (s.memRead (s.arg 0) (s.arg 1))
      ∃ (T : Nat → List Byte) (t : State), T 0 = [] ∧
        (∀ i, 1 ≤ i → i ≤ (s.arg 6 + 31) / 32 →
          T i = hmacSm3 PRK (T (i - 1) ++ s.memRead (s.arg 4) (s.arg 5) ++ [BitVec.ofNat 8 i])) ∧
        exec .hkdf s = .next t ∧
        Wrote s t (s.arg 7) (((List.range ((s.arg 6 + 31) / 32)).flatMap fun i => T (i + 1)).take (s.arg 6)) false

/-! ## SM4 -/

/-- R290, R284: SM4KEY loads the schedule of the recurrence and sets KEYV; nothing is written. `T'` is written out from R282
and R283, the rotation from R8. -/
def Obligations.Sm4keyFollowsItsRule : Prop :=
  ∀ s : State,
    match firstFailed [s.rangeGuard 0 16] with
    | some (c, d) => exec .sm4key s = .next (s.errored c d)
    | none =>
      let S := fun b : Byte => sboxTable.getD b.toNat 0
      let R := fun (x : Word) (n : Nat) => BitVec.ofNat 32 ((x.toNat <<< (n % 32)) ||| (x.toNat >>> (32 - n % 32)))
      let τ := fun x : Word => BitVec.ofNat 32 (beNat [S (x.extractLsb' 24 8), S (x.extractLsb' 16 8),
        S (x.extractLsb' 8 8), S (x.extractLsb' 0 8)])
      let T' := fun x : Word => τ x ^^^ R (τ x) 13 ^^^ R (τ x) 23
      ∃ (K : Nat → Word) (rk : Vector Word 32),
        (∀ i < 4, K i = BitVec.ofNat 32 (beNat (s.memRead (s.arg 0 + 4 * i) 4)) ^^^
          ([0xA3B1BAC6, 0x56AA3350, 0x677D9197, 0xB27022DC].getD i 0)) ∧
        (∀ i < 32, K (i + 4) = K i ^^^ T' (K (i + 1) ^^^ K (i + 2) ^^^ K (i + 3) ^^^
          BitVec.ofNat 32 (beNat [BitVec.ofNat 8 (4 * i * 7), BitVec.ofNat 8 ((4 * i + 1) * 7),
            BitVec.ofNat 8 ((4 * i + 2) * 7), BitVec.ofNat 8 ((4 * i + 3) * 7)]))) ∧
        (∀ (i : Nat) (h : i < 32), rk[i] = K (i + 4)) ∧
        exec .sm4key s = .next { s.judged false with rk := rk, keyv := true }

/-- R286, R282, R283: the block function runs the recurrence on the four words and gives the last four reversed; decryption is
the same with the round keys reversed. The S-box, a permutation of the 256 bytes, τ, L, L', T and T' are written out, the
rotation from R8. -/
def Obligations.BlockFunctionRunsItsRounds : Prop :=
  let S := fun b : Byte => sboxTable.getD b.toNat 0
  let R := fun (x : Word) (n : Nat) => BitVec.ofNat 32 ((x.toNat <<< (n % 32)) ||| (x.toNat >>> (32 - n % 32)))
  let τ := fun x : Word => BitVec.ofNat 32 (beNat [S (x.extractLsb' 24 8), S (x.extractLsb' 16 8),
    S (x.extractLsb' 8 8), S (x.extractLsb' 0 8)])
  let L := fun x : Word => x ^^^ R x 2 ^^^ R x 10 ^^^ R x 18 ^^^ R x 24
  let L' := fun x : Word => x ^^^ R x 13 ^^^ R x 23
  let T := fun x => L (τ x)
  let T' := fun x => L' (τ x)
  (∀ b : Byte, sm4Sbox b = S b) ∧ sboxTable.length = 256 ∧ sboxTable.Nodup ∧
  (∀ x : Word, sm4Tau x = τ x ∧ sm4L x = L x ∧ sm4L' x = L' x ∧ sm4T x = T x ∧ sm4T' x = T' x) ∧
  (∀ (rk : Vector Word 32) (b : List Byte), b.length = 16 →
    (∃ X : Nat → Word,
      (∀ i < 4, X i = BitVec.ofNat 32 (beNat (slice b (4 * i) (4 * i + 4)))) ∧
      (∀ (i : Nat) (h : i < 32), X (i + 4) = X i ^^^ T (X (i + 1) ^^^ X (i + 2) ^^^ X (i + 3) ^^^ rk[i])) ∧
      sm4Enc rk b = beBytes 4 (X 35).toNat ++ beBytes 4 (X 34).toNat ++ beBytes 4 (X 33).toNat ++
        beBytes 4 (X 32).toNat) ∧
    sm4Dec rk b = sm4Enc rk.reverse b ∧ sm4Dec rk (sm4Enc rk b) = b)

/-- R291, R292, R289: SM4EBLK and SM4DBLK. -/
def Obligations.BlockCommandsFollowTheirRules : Prop :=
  ∀ s : State, s.lmem.wf = true →
    match firstFailed [s.keyGuard, s.rangeGuard 0 16, s.rangeGuard 1 16, s.overlapGuard 1 16 [(s.arg 0, 16)]] with
    | some (c, d) => exec .sm4eblk s = .next (s.errored c d) ∧ exec .sm4dblk s = .next (s.errored c d)
    | none =>
      (∃ t, exec .sm4eblk s = .next t ∧ Wrote s t (s.arg 1) (sm4Enc s.rk (s.memRead (s.arg 0) 16)) false) ∧
      (∃ t, exec .sm4dblk s = .next t ∧ Wrote s t (s.arg 1) (sm4Dec s.rk (s.memRead (s.arg 0) 16)) false)

/-- R287: the modes on whole blocks, block by block. -/
def Obligations.ModesChainTheirBlocks : Prop :=
  ∀ (rk : Vector Word 32) (n : Nat) (d iv : List Byte), d.length = 16 * n → iv.length = 16 →
    let B := fun i => slice d (16 * i) (16 * i + 16)
    sm4Ecb (sm4Enc rk) d = (List.range n).flatMap (fun i => sm4Enc rk (B i)) ∧
    sm4Ecb (sm4Dec rk) d = (List.range n).flatMap (fun i => sm4Dec rk (B i)) ∧
    (∃ C : Nat → List Byte, C 0 = iv ∧ (∀ i < n, C (i + 1) = sm4Enc rk (xorBytes (B i) (C i))) ∧
      sm4CbcEnc rk iv d = (List.range n).flatMap fun i => C (i + 1)) ∧
    sm4CbcDec rk iv d =
      (List.range n).flatMap fun i => xorBytes (sm4Dec rk (B i)) (if i = 0 then iv else B (i - 1))

/-- R293, R295, R288, R289, R285: SM4ECBE and SM4CBCE, with and without padding. -/
def Obligations.EncryptionModesFollowTheirRules : Prop :=
  ∀ (pad : Padding) (s : State), s.lmem.wf = true →
    let len := s.arg 1
    let q := 16 - len % 16
    let R := match pad with
      | .unpadded => len
      | .pkcs7 => len + q
    let ok := match pad with
      | .unpadded => decide (len % 16 = 0)
      | .pkcs7 => true
    let D := match pad with
      | .unpadded => s.memRead (s.arg 0) len
      | .pkcs7 => s.memRead (s.arg 0) len ++ List.replicate q (BitVec.ofNat 8 q)
    (match firstFailed [s.keyGuard, s.rangeGuard 0 len, s.rangeGuard 2 R, s.overlapGuard 2 R [(s.arg 0, len)],
        lengthGuard ok] with
      | some (c, d) => exec (.sm4ecbe pad) s = .next (s.errored c d)
      | none => ∃ t, exec (.sm4ecbe pad) s = .next t ∧ Wrote s t (s.arg 2) (sm4Ecb (sm4Enc s.rk) D) false) ∧
    (match firstFailed [s.keyGuard, s.rangeGuard 0 len, s.rangeGuard 2 R, s.rangeGuard 3 16,
        s.overlapGuard 2 R [(s.arg 0, len), (s.arg 3, 16)], lengthGuard ok] with
      | some (c, d) => exec (.sm4cbce pad) s = .next (s.errored c d)
      | none =>
        ∃ t, exec (.sm4cbce pad) s = .next t ∧ Wrote s t (s.arg 2) (sm4CbcEnc s.rk (s.memRead (s.arg 3) 16) D) false)

/-- R294, R296, R288, R289, R285: SM4ECBD and SM4CBCD; with padding the pad bytes are checked and taken off. -/
def Obligations.DecryptionModesFollowTheirRules : Prop :=
  ∀ (pad : Padding) (s : State), s.lmem.wf = true →
    let len := s.arg 1
    let ok := match pad with
      | .unpadded => decide (len % 16 = 0)
      | .pkcs7 => decide (len > 0 ∧ len % 16 = 0)
    let q := fun (P : List Byte) => (P.getD (len - 1) 0).toNat
    let padGuard := fun (P : List Byte) =>
      match pad with
      | .unpadded => ({ holds := true, code := 0x04, detail := 0x01 } : Guard)
      | .pkcs7 =>
        { holds := decide (1 ≤ q P ∧ q P ≤ 16 ∧ ∀ i ∈ List.range (q P), (P.getD (len - (i + 1)) 0).toNat = q P)
          code := 0x04, detail := 0x01 }
    let out := fun (P : List Byte) =>
      match pad with
      | .unpadded => P
      | .pkcs7 => P.take (len - q P)
    (let P := sm4Ecb (sm4Dec s.rk) (s.memRead (s.arg 0) len)
     match firstFailed [s.keyGuard, s.rangeGuard 0 len, s.rangeGuard 2 len, s.overlapGuard 2 len [(s.arg 0, len)],
        lengthGuard ok, padGuard P] with
      | some (c, d) => exec (.sm4ecbd pad) s = .next (s.errored c d)
      | none => ∃ t, exec (.sm4ecbd pad) s = .next t ∧ Wrote s t (s.arg 2) (out P) false) ∧
    (let P := sm4CbcDec s.rk (s.memRead (s.arg 3) 16) (s.memRead (s.arg 0) len)
     match firstFailed [s.keyGuard, s.rangeGuard 0 len, s.rangeGuard 2 len, s.rangeGuard 3 16,
        s.overlapGuard 2 len [(s.arg 0, len), (s.arg 3, 16)], lengthGuard ok, padGuard P] with
      | some (c, d) => exec (.sm4cbcd pad) s = .next (s.errored c d)
      | none => ∃ t, exec (.sm4cbcd pad) s = .next t ∧ Wrote s t (s.arg 2) (out P) false)

/-- R285, R286, R287: what ECB and CBC encryption with padding make of any data, decryption and unpadding give back. -/
def Obligations.PaddedModesDecryptWhatTheyEncrypt : Prop :=
  ∀ (rk : Vector Word 32) (iv d : List Byte), iv.length = 16 →
    unpad7 (sm4Ecb (sm4Dec rk) (sm4Ecb (sm4Enc rk) (pad7 d))) = some d ∧
    unpad7 (sm4CbcDec rk iv (sm4CbcEnc rk iv (pad7 d))) = some d

/-! ## Elliptic-curve points -/

/-- R321: the affine group law, λ given by what it solves. -/
def Obligations.PointAdditionFollowsTheGroupLaw : Prop :=
  (∀ p : Point, Point.infinity.add p = p ∧ p.add .infinity = p) ∧
  Point.infinity.neg = .infinity ∧
  (∀ x1 y1 x2 y2 : Nat, (Point.affine x1 y1).Valid → (Point.affine x2 y2).Valid →
    (Point.affine x1 y1).neg = .affine x1 ((primeP - y1) % primeP) ∧
    (x1 = x2 ∧ (y1 + y2) % primeP = 0 → (Point.affine x1 y1).add (.affine x2 y2) = .infinity) ∧
    (¬(x1 = x2 ∧ (y1 + y2) % primeP = 0) →
      ∃ l x3 y3 : Nat, l < primeP ∧ x3 < primeP ∧ y3 < primeP ∧
        (x1 ≠ x2 → (l : Int) * ((x2 : Int) - x1) ≡ (y2 : Int) - y1 [ZMOD primeP]) ∧
        (x1 = x2 → y1 = y2 ∧ (l : Int) * (2 * (y1 : Int)) ≡ 3 * (x1 : Int) ^ 2 + curveA [ZMOD primeP]) ∧
        (x3 : Int) ≡ (l : Int) ^ 2 - x1 - x2 [ZMOD primeP] ∧
        (y3 : Int) ≡ (l : Int) * ((x1 : Int) - x3) - y1 [ZMOD primeP] ∧
        (Point.affine x1 y1).add (.affine x2 y2) = .affine x3 y3))

/-- R324, R325, and log 10, which rests on it: the ladder of 256 iterations computes `0·P = O`, `(k + 1)·P = k·P + P`, for every 256-bit scalar and every
point of the curve. -/
def Obligations.LadderIsRepeatedAddition : Prop :=
  ∀ (p : Point) (k : Nat), p.Valid → k < 2 ^ 256 → p.mul k = Point.times k p

/-- R330: PVALID. -/
def Obligations.PvalidFollowsItsRule : Prop :=
  ∀ s : State,
    match firstFailed [s.rangeGuard 0 64] with
    | some (c, d) => exec .pvalid s = .next (s.errored c d)
    | none => exec .pvalid s = .next (s.judged (decide (ValidKeySlot (s.memRead (s.arg 0) 64))))

/-- R331, R332, R333, R322: PADD, PDBL and PNEG, for the points the operand slots hold. -/
def Obligations.PaddPdblPnegFollowTheirRules : Prop :=
  ∀ s : State, s.lmem.wf = true →
    let A := s.memRead (s.arg 0) 64
    let B := s.memRead (s.arg 1) 64
    (match firstFailed [s.rangeGuard 0 64, s.rangeGuard 1 64, s.rangeGuard 2 64,
        s.overlapGuard 2 64 [(s.arg 0, 64), (s.arg 1, 64)], slotGuard A, slotGuard B] with
      | some (c, d) => exec .padd s = .next (s.errored c d)
      | none =>
        ∃ p q t, SlotHolds A p ∧ SlotHolds B q ∧ exec .padd s = .next t ∧ Wrote s t (s.arg 2) (p.add q).slot false) ∧
    (match firstFailed [s.rangeGuard 0 64, s.rangeGuard 2 64, s.overlapGuard 2 64 [(s.arg 0, 64)], slotGuard A] with
      | some (c, d) => exec .pdbl s = .next (s.errored c d) ∧ exec .pneg s = .next (s.errored c d)
      | none =>
        ∃ p t u, SlotHolds A p ∧ exec .pdbl s = .next t ∧ Wrote s t (s.arg 2) (p.add p).slot false ∧
          exec .pneg s = .next u ∧ Wrote s u (s.arg 2) p.neg.slot false)

/-- R334, R335, R324: PMUL and PMULG, for every 256-bit scalar. -/
def Obligations.PmulPmulgFollowTheirRules : Prop :=
  ∀ s : State, s.lmem.wf = true →
    let k := s.scalar (s.arg 0)
    (match firstFailed [s.rangeGuard 0 32, s.rangeGuard 1 64, s.rangeGuard 2 64,
        s.overlapGuard 2 64 [(s.arg 0, 32), (s.arg 1, 64)], slotGuard (s.memRead (s.arg 1) 64)] with
      | some (c, d) => exec .pmul s = .next (s.errored c d)
      | none =>
        ∃ p t, SlotHolds (s.memRead (s.arg 1) 64) p ∧ exec .pmul s = .next t ∧
          Wrote s t (s.arg 2) (Point.times k p).slot false) ∧
    (match firstFailed [s.rangeGuard 0 32, s.rangeGuard 2 64, s.overlapGuard 2 64 [(s.arg 0, 32)]] with
      | some (c, d) => exec .pmulg s = .next (s.errored c d)
      | none => ∃ t, exec .pmulg s = .next t ∧ Wrote s t (s.arg 2) (Point.times k basePoint).slot false)

/-- R336, R326: PJ2A writes `X/Z²` and `Y/Z³`, or the zero slot for `Z = 0`. -/
def Obligations.Pj2aFollowsItsRule : Prop :=
  ∀ s : State, s.lmem.wf = true →
    let X := s.scalar (s.arg 0)
    let Y := s.scalar (s.arg 0 + 32)
    let Z := s.scalar (s.arg 0 + 64)
    match firstFailed [s.rangeGuard 0 96, s.rangeGuard 2 64, s.overlapGuard 2 64 [(s.arg 0, 96)], canonicalGuard primeP X,
        canonicalGuard primeP Y, canonicalGuard primeP Z] with
    | some (c, d) => exec .pj2a s = .next (s.errored c d)
    | none =>
      (Z = 0 → ∃ t, exec .pj2a s = .next t ∧ Wrote s t (s.arg 2) (List.replicate 64 0) false) ∧
      (Z ≠ 0 → ∃ x y t, x < primeP ∧ y < primeP ∧ x * (Z * Z) % primeP = X ∧ y * (Z * Z * Z) % primeP = Y ∧
        exec .pj2a s = .next t ∧ Wrote s t (s.arg 2) (beBytes 32 x ++ beBytes 32 y) false)

/-- R337, R327, R322: PENC in both forms; O has no wire form. -/
def Obligations.PencFollowsItsRule : Prop :=
  ∀ (form : PointForm) (s : State), s.lmem.wf = true →
    let A := s.memRead (s.arg 0) 64
    let w := match form with
      | .uncompressed => 65
      | .compressed => 33
    let x := A.take 32
    let y := A.drop 32
    let e := match form with
      | .uncompressed => [(0x04 : Byte)] ++ x ++ y
      | .compressed => [(if beNat y % 2 = 0 then 0x02 else 0x03 : Byte)] ++ x
    match firstFailed [s.rangeGuard 0 64, s.rangeGuard 2 w, s.overlapGuard 2 w [(s.arg 0, 64)], slotGuard A,
        { holds := decide (A ≠ List.replicate 64 0), code := 0x01, detail := 0x04 }] with
    | some (c, d) => exec (.penc form) s = .next (s.errored c d)
    | none => ∃ t, exec (.penc form) s = .next t ∧ Wrote s t (s.arg 2) e false

/-- R338, R328: PDEC, its checks in the order of the wire decoding; the y of a compressed point is the root of the curve
equation with the parity of the prefix byte, if that equation has a root other than 0. -/
def Obligations.PdecFollowsItsRule : Prop :=
  ∀ s : State, s.lmem.wf = true →
    let w := s.memRead (s.arg 0) (s.arg 1)
    let w0 := w.getD 0 0
    let n := s.arg 1
    let x := beNat (slice w 1 33)
    let y := beNat (slice w 33 65)
    let c := (x * x * x + curveA * x + curveB) % primeP
    let r := c ^ ((primeP + 1) / 4) % primeP
    match firstFailed [s.rangeGuard 0 n, s.rangeGuard 2 64, s.overlapGuard 2 64 [(s.arg 0, n)],
        { holds := decide ¬(n = 1 ∧ w0 = 0x00), code := 0x01, detail := 0x04 }, lengthGuard (decide (n = 33 ∨ n = 65)),
        { holds := decide ¬(n = 65 ∧ w0 ≠ 0x04), code := 0x01, detail := 0x02 },
        { holds := decide ¬(n = 33 ∧ w0 ≠ 0x02 ∧ w0 ≠ 0x03), code := 0x01, detail := 0x02 },
        { holds := decide (x < primeP), code := 0x01, detail := 0x03 },
        { holds := decide (n = 65 → y < primeP), code := 0x01, detail := 0x03 },
        { holds := decide (n = 65 → y * y % primeP = c), code := 0x02, detail := 0x02 },
        { holds := decide (n = 33 → r * r % primeP = c), code := 0x02, detail := 0x02 }] with
    | some (c', d) => exec .pdec s = .next (s.errored c' d)
    | none =>
      let y' := if n = 65 then y else if r % 2 + 2 = w0.toNat then r else (primeP - r) % primeP
      ∃ t, exec .pdec s = .next t ∧ Wrote s t (s.arg 2) (beBytes 32 x ++ beBytes 32 y') false

/-! ## SM2 -/

/-- R370, R362: KDF; `H 1 ‖ H 2 ‖ ...` are the hashes with the counter. -/
def Obligations.KdfFollowsItsRule : Prop :=
  ∀ s : State, s.lmem.wf = true →
    let Zs := s.memRead (s.arg 0) (s.arg 1)
    let IV := s.memRead (s.arg 2) (s.arg 3)
    let klen := s.arg 4
    let K := ((List.range ((klen + 31) / 32)).flatMap fun i => sm3Hash (Zs ++ beBytes 4 (i + 1) ++ IV)).take klen
    match firstFailed [s.rangeGuard 0 (s.arg 1), s.rangeGuard 2 (s.arg 3), s.rangeGuard 5 klen,
        s.overlapGuard 5 klen [(s.arg 0, s.arg 1), (s.arg 2, s.arg 3)]] with
    | some (c, d) => exec .kdf s = .next (s.errored c d)
    | none =>
      ∃ t, exec .kdf s = .next t ∧ Wrote s t (s.arg 5) K (decide (klen > 0 ∧ ∀ b ∈ K, b = 0))

/-- R371, R361, R360: ZVAL; a, b, Gx and Gy are written out. -/
def Obligations.ZvalFollowsItsRule : Prop :=
  ∀ (id : IdSource) (s : State), s.lmem.wf = true →
    let P := s.memRead (s.arg 0) 64
    let ID := s.idBytes id 1 2
    match firstFailed ([s.rangeGuard 0 64] ++ s.idRangeGuards id 1 2 ++ [s.rangeGuard 3 32,
        s.overlapGuard 3 32 ((s.arg 0, 64) :: s.idRange id 1 2)] ++ s.idLengthGuards id 2 ++ publicGuards P) with
    | some (c, d) => exec (.zval id) s = .next (s.errored c d)
    | none =>
      ∃ t, exec (.zval id) s = .next t ∧
        Wrote s t (s.arg 3) (sm3Hash (beBytes 2 (8 * ID.length) ++ ID ++
          beBytes 32 0xFFFFFFFEFFFFFFFFFFFFFFFFFFFFFFFFFFFFFFFF00000000FFFFFFFFFFFFFFFC ++
          beBytes 32 0x28E9FA9E9D9F5E344D5A9E4BCF6509A7F39789F515AB8F92DDBCBD414D940E93 ++
          beBytes 32 0x32C4AE2C1F1981195F9904466A39C9948FE30BBFF2660BE1715A4589334C74C7 ++
          beBytes 32 0xBC3736A2F4F6779C59BDCEE36B692153D0A9877CC62A474002DF32E52139F0A0 ++
          P.take 32 ++ P.drop 32)) false

/-- R372, R364: KEYGEN makes one draw; a failed draw ends it with RngFailure. -/
def Obligations.KeygenFollowsItsRule : Prop :=
  ∀ s : State, s.lmem.wf = true →
    match firstFailed [s.rangeGuard 0 96] with
    | some (c, e) => exec .keygen s = .next (s.errored c e)
    | none =>
      (s.nextDraw = none → exec .keygen s = .next (s.afterDraw.errored 0x07 0x01)) ∧
      (∀ raw, s.nextDraw = some raw →
        let d := raw.toNat % (orderN - 1) + 1
        ∃ t, exec .keygen s = .next t ∧
          Wrote s.afterDraw t (s.arg 0) (beBytes 32 d ++ (basePoint.mul d).slot) false)

/-- R373, R363, R364, R365: SIGN. One draw k; `sg` is the residue with `(1 + d)·sg ≡ k − r·d (mod n)`. It retries, one draw
used up and nothing else changed, for `r = 0`, `r + k = n` or `sg = 0` (the retry as a step of its own is the model's
choice, log 7), and writes `r ‖ sg` otherwise. -/
def Obligations.SignFollowsItsRule : Prop :=
  ∀ (msg : MsgForm) (id : IdSource) (s : State), s.lmem.wf = true →
    let used := usedId msg id
    let M := s.memRead (s.arg 0) (s.arg 1)
    let d := s.scalar (s.arg 2)
    match firstFailed ([s.rangeGuard 0 (s.arg 1), s.rangeGuard 2 32] ++ s.idRangeGuards used 3 4 ++ [s.rangeGuard 5 64,
        s.overlapGuard 5 64 ([(s.arg 0, s.arg 1), (s.arg 2, 32)] ++ s.idRange used 3 4),
        lengthGuard (decide (msg = .digest → s.arg 1 = 32))] ++ s.idLengthGuards used 4 ++
        [privateGuard d, { holds := decide ((1 + d) % orderN ≠ 0), code := 0x03, detail := 0x01 }]) with
    | some (c, e) => exec (.sign msg id) s = .next (s.errored c e)
    | none =>
      (s.nextDraw = none → exec (.sign msg id) s = .next (s.afterDraw.errored 0x07 0x01)) ∧
      (∀ raw, s.nextDraw = some raw →
        let k := raw.toNat % (orderN - 1) + 1
        let e := digestOf msg M (s.idBytes used 3 4) (basePoint.mul d)
        let r := (e + (basePoint.mul k).x) % orderN
        ∃ sg, sg < orderN ∧ ((1 + d) * sg + r * d) % orderN = k % orderN ∧
          (r = 0 ∨ r + k = orderN ∨ sg = 0 → exec (.sign msg id) s = .next s.afterDraw) ∧
          (r ≠ 0 → r + k ≠ orderN → sg ≠ 0 → ∃ t, exec (.sign msg id) s = .next t ∧
            Wrote s.afterDraw t (s.arg 5) (beBytes 32 r ++ beBytes 32 sg) false))

/-- R374, R365: VERIFY reports its verdict in RESULT; a rejection is no error. -/
def Obligations.VerifyFollowsItsRule : Prop :=
  ∀ (msg : MsgForm) (id : IdSource) (s : State),
    let used := usedId msg id
    let M := s.memRead (s.arg 0) (s.arg 1)
    let r := s.scalar (s.arg 2)
    let sg := s.scalar (s.arg 2 + 32)
    let P := s.memRead (s.arg 3) 64
    match firstFailed ([s.rangeGuard 0 (s.arg 1), s.rangeGuard 2 64, s.rangeGuard 3 64] ++ s.idRangeGuards used 4 5 ++
        [lengthGuard (decide (msg = .digest → s.arg 1 = 32))] ++ s.idLengthGuards used 5 ++ publicGuards P) with
    | some (c, d) => exec (.verify msg id) s = .next (s.errored c d)
    | none =>
      let e := digestOf msg M (s.idBytes used 4 5) (slotPoint P)
      let t := (r + sg) % orderN
      let R := (basePoint.mul sg).add ((slotPoint P).mul t)
      exec (.verify msg id) s = .next (s.judged (decide
        (1 ≤ r ∧ r ≤ orderN - 1 ∧ 1 ≤ sg ∧ sg ≤ orderN - 1 ∧ t ≠ 0 ∧ R ≠ .infinity ∧ (e + R.x) % orderN = r)))

/-- R375, R364, R366: ENC. One draw k; it retries, one draw used up and nothing else changed, if the mask is all zero (the
retry as a step of its own is the model's choice, log 7), and writes the ciphertext in its layout otherwise. -/
def Obligations.EncFollowsItsRule : Prop :=
  ∀ (layout : Layout) (s : State), s.lmem.wf = true →
    let L := s.arg 1
    let M := s.memRead (s.arg 0) L
    let P := s.memRead (s.arg 2) 64
    match firstFailed ([s.rangeGuard 0 L, s.rangeGuard 2 64, s.rangeGuard 3 (97 + L),
        s.overlapGuard 3 (97 + L) [(s.arg 0, L), (s.arg 2, 64)], lengthGuard (decide (L ≠ 0))] ++ publicGuards P) with
    | some (c, d) => exec (.enc layout) s = .next (s.errored c d)
    | none =>
      (s.nextDraw = none → exec (.enc layout) s = .next (s.afterDraw.errored 0x07 0x01)) ∧
      (∀ raw, s.nextDraw = some raw →
        let k := raw.toNat % (orderN - 1) + 1
        let C1 := [(0x04 : Byte)] ++ beBytes 32 (basePoint.mul k).x ++ beBytes 32 (basePoint.mul k).y
        let q := (slotPoint P).mul k
        let mask := kdfSm3 (beBytes 32 q.x ++ beBytes 32 q.y) L []
        let C2 := List.zipWith (· ^^^ ·) M mask
        let C3 := sm3Hash (beBytes 32 q.x ++ M ++ beBytes 32 q.y)
        let out := match layout with
          | .c1c3c2 => C1 ++ C3 ++ C2
          | .c1c2c3 => C1 ++ C2 ++ C3
        ((∀ b ∈ mask, b = 0) → exec (.enc layout) s = .next s.afterDraw) ∧
        (¬(∀ b ∈ mask, b = 0) → ∃ t, exec (.enc layout) s = .next t ∧ Wrote s.afterDraw t (s.arg 3) out false))

/-- R376, R363: DEC, its checks in order, C1 before the private key; a zero mask and a wrong tag are errors. -/
def Obligations.DecFollowsItsRule : Prop :=
  ∀ (layout : Layout) (s : State), s.lmem.wf = true →
    let N := s.arg 1
    let ct := s.memRead (s.arg 0) N
    let d := s.scalar (s.arg 2)
    let x := beNat (slice ct 1 33)
    let y := beNat (slice ct 33 65)
    let C3 := match layout with
      | .c1c3c2 => slice ct 65 97
      | .c1c2c3 => slice ct (N - 32) N
    let C2 := match layout with
      | .c1c3c2 => slice ct 97 N
      | .c1c2c3 => slice ct 65 (N - 32)
    let q := (Point.affine x y).mul d
    let mask := kdfSm3 (beBytes 32 q.x ++ beBytes 32 q.y) (N - 97) []
    let M := List.zipWith (· ^^^ ·) C2 mask
    match firstFailed [s.rangeGuard 0 N, s.rangeGuard 2 32, s.rangeGuard 3 (N - 97),
        s.overlapGuard 3 (N - 97) [(s.arg 0, N), (s.arg 2, 32)], lengthGuard (decide (97 < N)),
        { holds := decide (ct.getD 0 0 = 0x04), code := 0x01, detail := 0x02 },
        { holds := decide (x < primeP ∧ y < primeP ∧ y * y % primeP = (x * x * x + curveA * x + curveB) % primeP)
          code := 0x05, detail := 0x01 },
        privateGuard d,
        { holds := decide ¬(∀ b ∈ mask, b = 0), code := 0x05, detail := 0x02 },
        { holds := decide (sm3Hash (beBytes 32 q.x ++ M ++ beBytes 32 q.y) = C3), code := 0x05, detail := 0x03 }] with
    | some (c, e) => exec (.dec layout) s = .next (s.errored c e)
    | none => ∃ t, exec (.dec layout) s = .next t ∧ Wrote s t (s.arg 3) M false

/-- R377, R367, R150: KEYX, for both roles and both sources of each identifier; an all-zero key sets RESULT. -/
def Obligations.KeyxFollowsItsRule : Prop :=
  ∀ (idA idB : IdSource) (role : Role) (s : State), s.lmem.wf = true →
    let klen := s.arg 5
    let dA := s.scalar (s.arg 0)
    let PA := s.memRead (s.arg 0 + 32) 64
    let rA := s.scalar (s.arg 0 + 96)
    let RA := s.memRead (s.arg 0 + 128) 64
    let PB := s.memRead (s.arg 0 + 192) 64
    let RB := s.memRead (s.arg 0 + 256) 64
    let bar := fun x : Nat => 2 ^ 127 + x % 2 ^ 127
    let tA := (dA + bar (slotPoint RA).x * rA) % orderN
    let U := ((slotPoint PB).add ((slotPoint RB).mul (bar (slotPoint RB).x))).mul tA
    let ZA := zValue (s.idBytes idA 1 2) (slotPoint PA).x (slotPoint PA).y
    let ZB := zValue (s.idBytes idB 3 4) (slotPoint PB).x (slotPoint PB).y
    let Z := match role with
      | .initiator => ZA ++ ZB
      | .responder => ZB ++ ZA
    let K := kdfSm3 (beBytes 32 U.x ++ beBytes 32 U.y ++ Z) klen []
    match firstFailed ([s.rangeGuard 0 320] ++ s.idRangeGuards idA 1 2 ++ s.idRangeGuards idB 3 4 ++
        [s.rangeGuard 6 klen, s.overlapGuard 6 klen ([(s.arg 0, 320)] ++ s.idRange idA 1 2 ++ s.idRange idB 3 4)] ++
        s.idLengthGuards idA 2 ++ s.idLengthGuards idB 4 ++ [privateGuard dA] ++ publicGuards PA ++ [privateGuard rA] ++
        publicGuards RA ++ publicGuards PB ++ publicGuards RB ++
        [{ holds := decide (U ≠ .infinity), code := 0x02, detail := 0x04 }]) with
    | some (c, e) => exec (.keyx idA idB role) s = .next (s.errored c e)
    | none =>
      ∃ t, exec (.keyx idA idB role) s = .next t ∧ Wrote s t (s.arg 6) K (decide (klen > 0 ∧ ∀ b ∈ K, b = 0))

/-- R378, R363, R323: ECDH writes the x coordinate of `d·P`. -/
def Obligations.EcdhFollowsItsRule : Prop :=
  ∀ s : State, s.lmem.wf = true →
    let d := s.scalar (s.arg 0)
    let P := s.memRead (s.arg 1) 64
    match firstFailed ([s.rangeGuard 0 32, s.rangeGuard 1 64, s.rangeGuard 2 32,
        s.overlapGuard 2 32 [(s.arg 0, 32), (s.arg 1, 64)], privateGuard d] ++ publicGuards P) with
    | some (c, e) => exec .ecdh s = .next (s.errored c e)
    | none => ∃ t, exec .ecdh s = .next t ∧ Wrote s t (s.arg 2) (beBytes 32 ((slotPoint P).mul d).x) false

/-- R373, R374: VERIFY's rule accepts every signature that SIGN's rule makes. -/
def Obligations.SignaturesVerify : Prop :=
  ∀ d e k r sg : Nat, 1 ≤ d → d < orderN - 1 → 1 ≤ k → k < orderN → signAttempt d e k = some (r, sg) →
    verifySignature e r sg (basePoint.mul d) = true

/-- R375, R376: a ciphertext that ENC's rule makes is 97 bytes longer than the message, its first byte is 04, its next 64 parse
to the point k·G, and DEC's rule with that point gives the message back, in either layout. -/
def Obligations.CiphertextsDecrypt : Prop :=
  ∀ (layout : Layout) (m ct : List Byte) (d k : Nat), m ≠ [] → 1 ≤ d → d < orderN → 1 ≤ k → k < orderN →
    encAttempt layout m (basePoint.mul d) k = some ct →
    ct.length = 97 + m.length ∧ ct.getD 0 0 = 0x04 ∧ ciphertextPoint ct = .ok (basePoint.mul k) ∧
      decryptMessage layout ct (basePoint.mul k) d = .ok m

/-- R377, R378: both parties of KEYX compute the same point U and, whatever the identifiers and the key's length, the same
key K; both of ECDH compute the same x coordinate. -/
def Obligations.KeyAgreementsAgree : Prop :=
  ∀ dA rA dB rB : Nat, 1 ≤ dA → dA < orderN → 1 ≤ rA → rA < orderN → 1 ≤ dB → dB < orderN → 1 ≤ rB → rB < orderN →
    let PA := basePoint.mul dA
    let RA := basePoint.mul rA
    let PB := basePoint.mul dB
    let RB := basePoint.mul rB
    let UA := sharedPoint dA rA RA PB RB
    let UB := sharedPoint dB rB RB PA RA
    UA = UB ∧
    (∀ (idA idB : List Byte) (klen : Nat),
      sharedKey .initiator UA (zValue idA PA.x PA.y) (zValue idB PB.x PB.y) klen =
        sharedKey .responder UB (zValue idB PB.x PB.y) (zValue idA PA.x PA.y) klen) ∧
    (PB.mul dA).x = (PA.mul dB).x
end

