-- ==== Sys2Proof/Laws/Arith.lean ====
section
/-! SUPPORT. What the modular arithmetic computes: the power, the difference, and the inverse of a unit. -/

namespace Sys2Proof.Machine

theorem subMod_lt {m : Nat} (a b : Nat) (hm : 0 < m) : subMod m a b < m := Nat.mod_lt _ hm

/-- A difference is the residue it should be: adding `b` back gives `a`. -/
theorem subMod_add {m a b : Nat} (hb : b ≤ m) : (subMod m a b + b) % m = a % m := by
  rw [subMod, Nat.mod_add_mod, show a + (m - b) + b = a + m by omega, Nat.add_mod_right]

theorem powModBits_eq (m a e i acc : Nat) :
    powModBits m a e i (acc % m) = acc ^ 2 ^ i * a ^ (e % 2 ^ i) % m := by
  induction i generalizing acc with
  | zero => simp [powModBits, Nat.mod_one]
  | succ i ih =>
    have hsq : acc % m * (acc % m) % m = acc * acc % m := (Nat.mul_mod acc acc m).symm
    have hbit : e % 2 ^ (i + 1) = e % 2 ^ i + 2 ^ i * (e / 2 ^ i % 2) := by rw [pow_succ, Nat.mod_mul]
    have hpow : acc ^ 2 ^ (i + 1) = (acc * acc) ^ 2 ^ i := by rw [← pow_two, ← pow_mul, pow_succ, mul_comm]
    simp only [powModBits, hsq]
    rw [Nat.testBit_eq_decide_div_mod_eq]
    rcases Nat.mod_two_eq_zero_or_one (e / 2 ^ i) with h | h
    · simp only [h, zero_ne_one, decide_false, Bool.false_eq_true, if_false]
      rw [ih, hpow, hbit, h]
      simp
    · simp only [h, decide_true, if_true]
      rw [show acc * acc % m * a % m = acc * acc * a % m by rw [Nat.mod_mul_mod], ih, hpow, hbit, h, pow_add, mul_one]
      congr 1
      ring

/-- FPOW's power is the power (40_modarith.md R208). -/
theorem powMod_eq {m a e : Nat} (he : e < 2 ^ 256) : powMod m a e = a ^ e % m := by
  rw [powMod, powModBits_eq, Nat.mod_eq_of_lt he]
  simp

theorem euclid_lt {m fuel r0 r1 t0 t1 : Nat} (h0 : t0 < m) (h1 : t1 < m) : euclid m fuel r0 r1 t0 t1 < m := by
  induction fuel generalizing r0 r1 t0 t1 with
  | zero => exact h0
  | succ fuel ih =>
    simp only [euclid]
    split
    · exact h0
    · exact ih h1 (subMod_lt _ _ (by omega))

theorem modEq_subMod {m a b c : Nat} (hb : b ≤ m) (hab : subMod m a b ≡ c [MOD m]) : a ≡ c + b [MOD m] := by
  have h := subMod_add (a := a) hb
  exact (Nat.ModEq.symm h).trans (hab.add_right b)

/-- The invariant of the extended Euclidean algorithm, and that the steps are enough. -/
theorem euclid_spec {m a : Nat} : ∀ {fuel r0 r1 t0 t1 : Nat}, t1 < m → r1 ≤ r0 → 0 < r0 →
    r0 * r1 < 2 ^ fuel → Nat.Coprime r0 r1 → t0 * a ≡ r0 [MOD m] → t1 * a ≡ r1 [MOD m] →
    euclid m fuel r0 r1 t0 t1 * a ≡ 1 [MOD m] := by
  intro fuel
  induction fuel with
  | zero =>
    intro r0 r1 t0 t1 _ _ hr0 hf hc h0 _
    have : r1 = 0 := by
      rcases Nat.eq_zero_or_pos r1 with h | h
      · exact h
      · have := Nat.mul_pos hr0 h
        omega
    subst this
    rw [Nat.coprime_zero_right] at hc
    simpa [euclid, hc] using h0
  | succ fuel ih =>
    intro r0 r1 t0 t1 ht1 hle hr0 hf hc h0 h1
    simp only [euclid]
    split
    · rename_i hz
      subst hz
      rw [Nat.coprime_zero_right] at hc
      simpa [hc] using h0
    · rename_i hz
      have hpos : 0 < r1 := Nat.pos_of_ne_zero hz
      have hm : 0 < m := by omega
      have hmod := Nat.mod_lt r0 hpos
      have hdiv := Nat.div_add_mod r0 r1
      have hq : 1 ≤ r0 / r1 := (Nat.one_le_div_iff hpos).2 hle
      apply ih (subMod_lt _ _ hm) hmod.le hpos
      · have h2 : 2 * (r0 % r1) ≤ r0 := by nlinarith
        have : 2 * (r1 * (r0 % r1)) ≤ r0 * r1 := by nlinarith
        rw [pow_succ] at hf
        omega
      · rw [Nat.coprime_comm]
        rw [Nat.Coprime, ← Nat.gcd_rec, Nat.gcd_comm]
        exact hc
      · exact h1
      · have hb : r0 / r1 * t1 % m ≤ m := (Nat.mod_lt _ hm).le
        have hs := subMod_add (a := t0) hb
        have h3 : (subMod m t0 (r0 / r1 * t1 % m) + r0 / r1 * t1 % m) * a ≡ t0 * a [MOD m] :=
          Nat.ModEq.mul_right a hs
        have h4 : r0 / r1 * t1 % m * a ≡ r0 / r1 * r1 [MOD m] :=
          ((Nat.mod_modEq _ m).mul_right a).trans (by rw [mul_assoc]; exact h1.mul_left _)
        have h5 : subMod m t0 (r0 / r1 * t1 % m) * a + r0 / r1 * r1 ≡ r0 % r1 + r0 / r1 * r1 [MOD m] := by
          calc subMod m t0 (r0 / r1 * t1 % m) * a + r0 / r1 * r1
              ≡ subMod m t0 (r0 / r1 * t1 % m) * a + r0 / r1 * t1 % m * a [MOD m] := h4.symm.add_left _
            _ = (subMod m t0 (r0 / r1 * t1 % m) + r0 / r1 * t1 % m) * a := by ring
            _ ≡ t0 * a [MOD m] := h3
            _ ≡ r0 [MOD m] := h0
            _ = r0 % r1 + r0 / r1 * r1 := by rw [mul_comm (r0 / r1)]; omega
        exact Nat.ModEq.add_right_cancel' _ h5

theorem invMod_lt {m : Nat} (a : Nat) (hm : 1 < m) : invMod m a < m := euclid_lt (by omega) hm

/-- The inverse of a unit is its inverse (40_modarith.md R207). -/
theorem invMod_mul {m a : Nat} (hm : 1 < m) (hm' : m < 2 ^ 256) (ha : a < m) (hc : Nat.Coprime m a) :
    invMod m a * a % m = 1 := by
  have hf : m * a < 2 ^ 512 := by
    calc m * a < 2 ^ 256 * 2 ^ 256 := by
          apply Nat.mul_lt_mul'' hm' (lt_trans ha hm')
      _ = 2 ^ 512 := by rw [← pow_add]
  have h := euclid_spec (m := m) (a := a) (fuel := 512) (r0 := m) (r1 := a) (t0 := 0) (t1 := 1) hm ha.le (by omega) hf hc
    (by simpa using (Nat.modEq_zero_iff_dvd.2 (dvd_refl m)).symm) (by simp [Nat.ModEq])
  rw [Nat.ModEq, Nat.mod_eq_of_lt hm] at h
  exact h

/-- An inverse is the only one. -/
theorem inverse_unique {m a x y : Nat} (hx : x < m) (hy : y < m) (h1 : x * a % m = 1 % m) (h2 : y * a % m = 1 % m) :
    x = y := by
  have e1 : x * a ≡ 1 [MOD m] := h1
  have e2 : y * a ≡ 1 [MOD m] := h2
  have : x ≡ y [MOD m] := by
    calc x = x * 1 := (mul_one x).symm
      _ ≡ x * (y * a) [MOD m] := (e2.symm.mul_left x)
      _ = y * (x * a) := by ring
      _ ≡ y * 1 [MOD m] := e1.mul_left y
      _ = y := mul_one y
  exact Nat.ModEq.eq_of_lt_of_lt this hx hy

end Sys2Proof.Machine
end

