-- ==== Sys2Proof/Laws/Bytes.lean ====
section
/-! SUPPORT. Byte strings: lengths, and big-endian encoding and decoding. -/

namespace Sys2Proof.Machine

/-- The rotation as 00_scope.md R8 writes it, on numbers. -/
theorem rotl_eq (x : Word) (n : Nat) :
    rotl x n = BitVec.ofNat 32 ((x.toNat <<< (n % 32)) ||| (x.toNat >>> (32 - n % 32))) := by
  apply BitVec.eq_of_toNat_eq
  simp only [rotl, BitVec.toNat_or, BitVec.toNat_shiftLeft, BitVec.toNat_ushiftRight, BitVec.toNat_ofNat,
    Nat.or_mod_two_pow]
  rw [Nat.mod_eq_of_lt (a := _ >>> _) (lt_of_le_of_lt (Nat.shiftRight_le _ _) x.isLt)]

@[simp] theorem beNat_nil : beNat [] = 0 := rfl

theorem beNat_append_singleton (s : List Byte) (b : Byte) : beNat (s ++ [b]) = 256 * beNat s + b.toNat := by
  simp [beNat, List.foldl_append]

theorem beNat_foldl (s : List Byte) (acc : Nat) :
    s.foldl (fun acc b => 256 * acc + b.toNat) acc = acc * 256 ^ s.length + beNat s := by
  induction s using List.reverseRecOn with
  | nil => simp
  | append_singleton s b ih =>
    rw [List.foldl_append, ih, beNat_append_singleton]
    simp [pow_succ]
    ring

theorem beNat_cons (b : Byte) (s : List Byte) : beNat (b :: s) = b.toNat * 256 ^ s.length + beNat s := by
  rw [beNat, List.foldl_cons, beNat_foldl]
  simp

theorem beNat_append (s t : List Byte) : beNat (s ++ t) = beNat s * 256 ^ t.length + beNat t := by
  rw [beNat, List.foldl_append, beNat_foldl]
  rfl

theorem beNat_lt (s : List Byte) : beNat s < 256 ^ s.length := by
  induction s with
  | nil => simp
  | cons b s ih =>
    rw [beNat_cons, List.length_cons, pow_succ]
    have hb := b.isLt
    have : (b.toNat + 1) * 256 ^ s.length ≤ 256 * 256 ^ s.length := Nat.mul_le_mul_right _ (by omega)
    have e : (b.toNat + 1) * 256 ^ s.length = b.toNat * 256 ^ s.length + 256 ^ s.length := by ring
    omega

@[simp] theorem beBytes_length (k x : Nat) : (beBytes k x).length = k := by
  induction k with
  | zero => rfl
  | succ k ih => simp [beBytes, ih]

/-- Decoding an encoded integer gives it back, modulo the width. -/
theorem beNat_beBytes (k x : Nat) : beNat (beBytes k x) = x % 256 ^ k := by
  induction k with
  | zero => simp [beBytes, Nat.mod_one]
  | succ k ih =>
    rw [beBytes, beNat_cons, ih, beBytes_length, BitVec.toNat_ofNat, pow_succ 256 k,
      Nat.mod_mul (x := x) (a := 256 ^ k) (b := 256)]
    rw [show (2 : Nat) ^ 8 = 256 by rfl]
    ring

theorem beBytes_mod (k x : Nat) : beBytes k (x % 256 ^ k) = beBytes k x := by
  suffices h : ∀ j, k ≤ j → beBytes k (x % 256 ^ j) = beBytes k x from h k le_rfl
  induction k with
  | zero => intro j _; rfl
  | succ k ih =>
    intro j hj
    rw [beBytes, beBytes, ih j (by omega)]
    congr 1
    apply BitVec.eq_of_toNat_eq
    simp only [BitVec.toNat_ofNat]
    obtain ⟨i, rfl⟩ : ∃ i, j = k + 1 + i := ⟨j - (k + 1), by omega⟩
    rw [show 256 ^ (k + 1 + i) = 256 ^ k * (256 * 256 ^ i) by ring, Nat.mod_mul_right_div_self]
    exact Nat.mod_mul_right_mod _ _ _

/-- Encoding a decoded string gives it back. -/
theorem beBytes_beNat (s : List Byte) : beBytes s.length (beNat s) = s := by
  induction s with
  | nil => rfl
  | cons b s ih =>
    rw [List.length_cons, beBytes]
    have hlt := beNat_lt s
    congr 1
    · rw [beNat_cons, mul_comm, Nat.mul_add_div (by positivity), Nat.div_eq_of_lt hlt]
      simp
    · rw [beNat_cons, ← beBytes_mod, mul_comm, Nat.mul_add_mod, Nat.mod_eq_of_lt hlt]
      exact ih

@[simp] theorem copies_length (b : Byte) (k : Nat) : (copies b k).length = k := by simp [copies]

@[simp] theorem xorBytes_length (s t : List Byte) : (xorBytes s t).length = min s.length t.length := by
  simp [xorBytes]

@[simp] theorem blocks_length (k n : Nat) (s : List Byte) : (blocks k n s).length = n := by
  induction n generalizing s with
  | zero => rfl
  | succ n ih => simp [blocks, ih]

/-- Every block of a string that is long enough has the block size. -/
theorem blocks_mem_length {k n : Nat} {s b : List Byte} (hs : k * n ≤ s.length) (hb : b ∈ blocks k n s) :
    b.length = k := by
  induction n generalizing s with
  | zero => simp [blocks] at hb
  | succ n ih =>
    rw [Nat.mul_succ] at hs
    simp only [blocks, List.mem_cons] at hb
    rcases hb with rfl | hb
    · simp; omega
    · exact ih (by simp; omega) hb

@[simp] theorem wordBytes_length (ws : List Word) : (wordBytes ws).length = 4 * ws.length := by
  induction ws with
  | nil => rfl
  | cons w ws ih =>
    simp only [wordBytes, List.flatMap_cons, List.length_append, beBytes_length, List.length_cons] at *
    omega

@[simp] theorem beWords_length (s : List Byte) : (beWords s).length = s.length / 4 := by simp [beWords]

@[simp] theorem sm3Emit_length (v : Vector Word 8) : (sm3Emit v).length = 32 := by simp [sm3Emit]

@[simp] theorem sm3Hash_length (m : List Byte) : (sm3Hash m).length = 32 := by simp [sm3Hash]

@[simp] theorem sm3Final_length (c : Sm3Context) : c.final.length = 32 := by simp [Sm3Context.final]

@[simp] theorem hmacSm3_length (k m : List Byte) : (hmacSm3 k m).length = 32 := by simp [hmacSm3]

@[simp] theorem zValue_length (id : List Byte) (x y : Nat) : (zValue id x y).length = 32 := by simp [zValue]

theorem kdfBlocks_length (zs iv : List Byte) (n i : Nat) : (kdfBlocks zs iv n i).length = 32 * n := by
  induction n generalizing i with
  | zero => rfl
  | succ n ih => simp [kdfBlocks, ih]; omega

@[simp] theorem kdfSm3_length (zs iv : List Byte) (l : Nat) : (kdfSm3 zs l iv).length = l := by
  simp only [kdfSm3, List.length_take, kdfBlocks_length]
  omega

theorem hkdfExpand_length (prk info prev : List Byte) (n i : Nat) :
    (hkdfExpand prk info n i prev).length = 32 * n := by
  induction n generalizing i prev with
  | zero => rfl
  | succ n ih => simp [hkdfExpand, ih]; omega

@[simp] theorem hkdfSm3_length (ikm info : List Byte) (salt : Option (List Byte)) (l : Nat) :
    (hkdfSm3 ikm salt info l).length = l := by
  simp only [hkdfSm3, List.length_take, hkdfExpand_length]
  omega

@[simp] theorem sm4Block_length (rks : List Word) (b : List Byte) : (sm4Block rks b).length = 16 := by
  simp [sm4Block]

@[simp] theorem sm4Enc_length (rk : Vector Word 32) (b : List Byte) : (sm4Enc rk b).length = 16 := by simp [sm4Enc]

@[simp] theorem sm4Dec_length (rk : Vector Word 32) (b : List Byte) : (sm4Dec rk b).length = 16 := by simp [sm4Dec]

@[simp] theorem slot_length (p : Point) : p.slot.length = 64 := by
  cases p <;> simp [Point.slot]

@[simp] theorem enc65_length (x y : Nat) : (enc65 x y).length = 65 := by simp [enc65]

@[simp] theorem enc33_length (x y : Nat) : (enc33 x y).length = 33 := by simp [enc33]

@[simp] theorem jacobianSlot_length (x y z : Nat) : (jacobianSlot x y z).length = 64 := by
  simp only [jacobianSlot]
  split <;> simp

end Sys2Proof.Machine
end

