-- ==== Sys2Proof/Laws/Memory.lean ====
section
/-! SUPPORT. The laws of LMEM: reading after a write, and the canonical form that every operation keeps. -/

namespace Sys2Proof.Machine

/-- The canonical form as a proposition: every offset below the ones after it, no byte equal to the unlisted one. -/
theorem Memory.wf_cons_iff (k : Nat) (b : Byte) (rest : Memory) :
    Memory.wf ((k, b) :: rest) = true ↔
      b ≠ Config.unlistedByte ∧ (∀ c ∈ rest, k < c.1) ∧ Memory.wf rest = true := by
  induction rest generalizing k b with
  | nil => simp [Memory.wf]
  | cons c rest ih =>
    obtain ⟨k', b'⟩ := c
    simp only [Memory.wf, Bool.and_eq_true, bne_iff_ne, decide_eq_true_eq, ih, List.forall_mem_cons]
    constructor
    · rintro ⟨⟨h1, h2⟩, h3, h4, h5⟩
      exact ⟨h1, ⟨h2, fun c hc => lt_trans h2 (h4 c hc)⟩, h3, h4, h5⟩
    · rintro ⟨h1, ⟨h2, -⟩, h3, h4, h5⟩
      exact ⟨⟨h1, h2⟩, h3, h4, h5⟩

/-- An offset below every listed one reads as unlisted. -/
theorem Memory.read_of_lt {m : Memory} {a : Nat} (h : ∀ c ∈ m, a < c.1) : m.read a = Config.unlistedByte := by
  induction m with
  | nil => rfl
  | cons c rest ih =>
    obtain ⟨k, b⟩ := c
    simp only [List.forall_mem_cons] at h
    simp [Memory.read, Nat.ne_of_gt h.1, ih h.2]

theorem Memory.mem_write {m : Memory} {a : Nat} {v : Byte} {c : Host.Cell} (h : c ∈ m.write a v) :
    c.1 = a ∨ c ∈ m := by
  induction m with
  | nil =>
    simp only [Memory.write] at h
    split at h <;> simp_all
  | cons d rest ih =>
    obtain ⟨k, b⟩ := d
    simp only [Memory.write] at h
    split at h
    · split at h <;> simp_all
      rcases h with h | h | h <;> simp_all
    · split at h
      · split at h <;> simp_all
        rcases h with h | h <;> simp_all
      · rcases List.mem_cons.1 h with h | h
        · simp [h]
        · rcases ih h with h | h <;> simp_all

/-- A write keeps the canonical form. -/
theorem Memory.write_wf {m : Memory} (a : Nat) (v : Byte) (h : m.wf = true) : (m.write a v).wf = true := by
  induction m with
  | nil =>
    simp only [Memory.write]
    split <;> simp_all [Memory.wf]
  | cons d rest ih =>
    obtain ⟨k, b⟩ := d
    have hc := (Memory.wf_cons_iff k b rest).1 h
    simp only [Memory.write]
    split
    · rename_i hak
      split
      · exact h
      · rename_i hv
        refine (Memory.wf_cons_iff _ _ _).2 ⟨hv, ?_, h⟩
        simp only [List.forall_mem_cons]
        exact ⟨hak, fun c hcm => lt_trans hak (hc.2.1 c hcm)⟩
    · split
      · rename_i hak
        subst hak
        split
        · exact hc.2.2
        · rename_i hv
          exact (Memory.wf_cons_iff _ _ _).2 ⟨hv, hc.2.1, hc.2.2⟩
      · rename_i h1 h2
        refine (Memory.wf_cons_iff _ _ _).2 ⟨hc.1, ?_, ih hc.2.2⟩
        intro c hcm
        rcases Memory.mem_write hcm with h | h
        · omega
        · exact hc.2.1 c h

/-- A byte reads as it was written. -/
theorem Memory.read_write_same {m : Memory} (a : Nat) (v : Byte) (h : m.wf = true) : (m.write a v).read a = v := by
  induction m with
  | nil =>
    simp only [Memory.write]
    split <;> simp_all [Memory.read]
  | cons d rest ih =>
    obtain ⟨k, b⟩ := d
    have hc := (Memory.wf_cons_iff k b rest).1 h
    simp only [Memory.write]
    split
    · rename_i hak
      split
      · rename_i hv
        rw [hv]
        apply Memory.read_of_lt
        simp only [List.forall_mem_cons]
        exact ⟨hak, fun c hcm => lt_trans hak (hc.2.1 c hcm)⟩
      · simp [Memory.read]
    · split
      · rename_i hak
        subst hak
        split
        · rename_i hv
          rw [hv]
          exact Memory.read_of_lt hc.2.1
        · simp [Memory.read]
      · rename_i h1 h2
        simp [Memory.read, Ne.symm h2, ih hc.2.2]

/-- A write leaves every other byte alone. -/
theorem Memory.read_write_other {m : Memory} {a a' : Nat} (v : Byte) (h : a' ≠ a) :
    (m.write a v).read a' = m.read a' := by
  induction m with
  | nil =>
    simp only [Memory.write]
    split <;> simp_all [Memory.read, Ne.symm h]
  | cons d rest ih =>
    obtain ⟨k, b⟩ := d
    simp only [Memory.write]
    split
    · split <;> simp [Memory.read, Ne.symm h]
    · split
      · rename_i hak
        subst hak
        split <;> simp [Memory.read, Ne.symm h]
      · simp [Memory.read, ih]

theorem Memory.writeBytes_wf {m : Memory} (addr : Nat) (bs : List Byte) (h : m.wf = true) :
    (m.writeBytes addr bs).wf = true := by
  induction bs generalizing m addr with
  | nil => exact h
  | cons b bs ih => exact ih _ (Memory.write_wf _ _ h)

/-- A string write leaves every byte outside it alone. -/
theorem Memory.read_writeBytes_outside {m : Memory} {addr a : Nat} {bs : List Byte}
    (h : a < addr ∨ addr + bs.length ≤ a) : (m.writeBytes addr bs).read a = m.read a := by
  induction bs generalizing m addr with
  | nil => rfl
  | cons b bs ih =>
    simp only [List.length_cons] at h
    simp only [Memory.writeBytes]
    rw [ih (by omega), Memory.read_write_other _ (by omega)]

@[simp] theorem Memory.readBytes_length (m : Memory) (addr n : Nat) : (m.readBytes addr n).length = n := by
  induction n generalizing addr with
  | zero => rfl
  | succ n ih => simp [Memory.readBytes, ih]

/-- Two memories that agree on a range read the same string there. -/
theorem Memory.readBytes_congr {m m' : Memory} {addr n : Nat}
    (h : ∀ a, addr ≤ a → a < addr + n → m.read a = m'.read a) : m.readBytes addr n = m'.readBytes addr n := by
  induction n generalizing addr with
  | zero => rfl
  | succ n ih =>
    simp only [Memory.readBytes]
    rw [h addr (by omega) (by omega), ih fun a h1 h2 => h a (by omega) (by omega)]

/-- A string reads as it was written. -/
theorem Memory.readBytes_writeBytes {m : Memory} (addr : Nat) (bs : List Byte) (h : m.wf = true) :
    (m.writeBytes addr bs).readBytes addr bs.length = bs := by
  induction bs generalizing m addr with
  | nil => rfl
  | cons b bs ih =>
    simp only [List.length_cons, Memory.readBytes, Memory.writeBytes]
    rw [ih _ (Memory.write_wf _ _ h), Memory.read_writeBytes_outside (by omega), Memory.read_write_same _ _ h]

theorem Memory.write_within {m : Memory} {a size : Nat} (v : Byte) (h : m.within size = true) (ha : a < size) :
    (m.write a v).within size = true := by
  simp only [Memory.within, List.all_eq_true, decide_eq_true_eq] at *
  intro c hc
  rcases Memory.mem_write hc with h' | h'
  · omega
  · exact h c h'

theorem Memory.writeBytes_within {m : Memory} {addr size : Nat} {bs : List Byte} (h : m.within size = true)
    (hb : addr + bs.length ≤ size) : (m.writeBytes addr bs).within size = true := by
  induction bs generalizing m addr with
  | nil => exact h
  | cons b bs ih =>
    simp only [List.length_cons] at hb
    exact ih (Memory.write_within _ h (by omega)) (by omega)

theorem Memory.applyWrites_wf {m : Memory} (ws : List (Nat × List Byte)) (h : m.wf = true) :
    (m.applyWrites ws).wf = true := by
  induction ws generalizing m with
  | nil => exact h
  | cons w ws ih => exact ih (Memory.writeBytes_wf _ _ h)

@[simp] theorem Memory.applyWrites_nil (m : Memory) : m.applyWrites [] = m := rfl

@[simp] theorem Memory.applyWrites_one (m : Memory) (addr : Nat) (v : List Byte) :
    m.applyWrites [(addr, v)] = m.writeBytes addr v := rfl

end Sys2Proof.Machine
end

