-- ==== Sys2Proof/Laws/Checks.lean ====
section
/-! SUPPORT. One lemma per shared check and per way a command completes: when it passes, what it raises, what it leaves. -/

namespace Sys2Proof.Machine

theorem require_true {c : Bool} {e : CmdError} (h : c = true) : require c e = .ok () := by simp [require, h]

theorem require_false {c : Bool} {e : CmdError} (h : c = false) : require c e = .error e := by simp [require, h]

/-- CheckRange passes on a range inside LMEM (20_memory.md R103). -/
theorem checkRange_ok {s : State} {i : Fin 8} {len : Nat} (h : s.InRange i len) : s.checkRange i len = .ok () :=
  require_true (by simpa using h)

/-- CheckRange raises AddressRange with the argument's index otherwise (20_memory.md R103). -/
theorem checkRange_error {s : State} {i : Fin 8} {len : Nat} (h : ¬ s.InRange i len) :
    s.checkRange i len = .error (.addressRange i) :=
  require_false (by simpa using h)

theorem clashes_eq_false {o lo a la : Nat} : clashes o lo (a, la) = false ↔ Apart o lo a la := by
  simp only [clashes, decide_eq_false_iff_not, Apart]
  omega

/-- CheckOverlap passes when every input may stand beside the output (20_memory.md R107). -/
theorem checkOverlap_ok {s : State} {i : Fin 8} {lo : Nat} {inputs : List (Nat × Nat)}
    (h : ∀ x ∈ inputs, Apart (s.arg i) lo x.1 x.2) : s.checkOverlap i lo inputs = .ok () := by
  apply require_true
  rw [Bool.not_eq_true', List.any_eq_false]
  intro x hx
  rw [Bool.not_eq_true]
  exact clashes_eq_false.2 (h x hx)

/-- CheckOverlap raises Overlap with the output's index when some input may not (20_memory.md R107). -/
theorem checkOverlap_error {s : State} {i : Fin 8} {lo : Nat} {inputs : List (Nat × Nat)} {x : Nat × Nat}
    (hx : x ∈ inputs) (h : ¬ Apart (s.arg i) lo x.1 x.2) : s.checkOverlap i lo inputs = .error (.overlap i) := by
  apply require_false
  rw [Bool.not_eq_false', List.any_eq_true]
  refine ⟨x, hx, ?_⟩
  rw [← Bool.not_eq_false]
  exact fun hf => h (clashes_eq_false.1 hf)

theorem canonical_ok {s : State} {m addr : Nat} (h : s.scalar addr < m) : s.canonical m addr = .ok (s.scalar addr) :=
  if_pos h

theorem canonical_error {s : State} {m addr : Nat} (h : ¬ s.scalar addr < m) :
    s.canonical m addr = .error .noncanonical :=
  if_neg h

@[simp] theorem complete_ok (s : State) (e : Effects) : s.complete (.ok e) = .next (s.finish e) := rfl

@[simp] theorem complete_error (s : State) (e : CmdError) : s.complete (.error e) = .next (s.raise e) := rfl

/-- A completion answers a next state: what it staged, or its error. -/
theorem complete_next {s t : State} {c : Check Effects} (h : s.complete c = .next t) :
    (∃ e, c = .ok e ∧ t = s.finish e) ∨ (∃ e, c = .error e ∧ t = s.raise e) := by
  cases c with
  | ok e => exact .inl ⟨e, rfl, by simpa using h.symm⟩
  | error e => exact .inr ⟨e, rfl, by simpa using h.symm⟩

/-- A command that draws answers a next state in one of four ways. -/
theorem completeWithDraw_next {α : Type} {s t : State} {ready : Check α} {attempt : α → Nat → Option Effects}
    (h : s.completeWithDraw ready attempt = .next t) :
    (∃ e, ready = .error e ∧ t = s.raise e) ∨
    (∃ x, ready = .ok x ∧ s.nextDraw = none ∧ t = s.afterDraw.raise .entropyFail) ∨
    (∃ x raw e, ready = .ok x ∧ s.nextDraw = some raw ∧ attempt x (drawnScalar raw) = some e ∧ t = s.afterDraw.finish e) ∨
    (∃ x raw, ready = .ok x ∧ s.nextDraw = some raw ∧ attempt x (drawnScalar raw) = none ∧ t = s.afterDraw) := by
  cases ready with
  | error e => exact .inl ⟨e, rfl, by simpa [State.completeWithDraw] using h.symm⟩
  | ok x =>
    right
    simp only [State.completeWithDraw] at h
    cases hd : s.nextDraw with
    | none => exact .inl ⟨x, rfl, rfl, by simpa [hd] using h.symm⟩
    | some raw =>
      right
      simp only [hd] at h
      cases ha : attempt x (drawnScalar raw) with
      | some e => exact .inl ⟨x, raw, e, rfl, rfl, ha, by simpa [ha] using h.symm⟩
      | none => exact .inr ⟨x, raw, rfl, rfl, ha, by simpa [ha] using h.symm⟩

/-- A drawn scalar lies in [1, n − 1] (44_sm2_protocols.md R364). -/
theorem drawnScalar_range (raw : BitVec 256) : 1 ≤ drawnScalar raw ∧ drawnScalar raw ≤ orderN - 1 := by
  have h := Nat.mod_lt raw.toNat (show 0 < orderN - 1 by decide)
  simp only [drawnScalar]
  omega

/-- What a command that stages one output leaves (30_encoding.md R143). -/
theorem finish_written {s : State} (addr : Nat) (v : List Byte) (r : Bool) (h : s.lmem.wf = true) :
    Wrote s (s.finish (written addr v r)) addr v r := by
  refine ⟨Memory.readBytes_writeBytes addr v h, fun a ha => Memory.read_writeBytes_outside ha, ?_⟩
  simp [State.finish, written]

@[simp] theorem finish_verdict (s : State) (r : Bool) : s.finish (verdict r) = s.judged r := by
  simp [State.finish, verdict, State.judged]

@[simp] theorem raise_errored (s : State) (e : CmdError) : s.raise e = s.errored e.code e.detail := rfl

/-- A decoded slot operand, and the error of one that decodes to nothing (43_ec_point.md R322). -/
theorem decodeSlot_ok_iff {b : List Byte} {p : Point} : decodeSlot b = .ok p ↔ SlotHolds b p := by
  simp only [decodeSlot, SlotHolds, ValidKeySlot, slotPoint, onCurve, curveRhs, copies, beq_iff_eq]
  split
  · simp_all [eq_comm]
  · split <;> simp_all [eq_comm]

/-- A valid public key, and the point it is (43_ec_point.md R323). -/
theorem validPub_ok_iff {b : List Byte} {p : Point} : validPub b = .ok p ↔ ValidKeySlot b ∧ p = slotPoint b := by
  simp only [validPub, ValidKeySlot, slotPoint, onCurve, curveRhs, copies, beq_iff_eq]
  split
  · simp_all
  · split <;> simp_all [eq_comm]

/-- A valid private key (44_sm2_protocols.md R363). -/
theorem validPriv_ok_iff {b : List Byte} {d : Nat} :
    validPriv b = .ok d ↔ d = beNat b ∧ 1 ≤ d ∧ d ≤ orderN - 1 := by
  simp only [validPriv]
  have : 0 < orderN := by decide
  split
  · constructor
    · intro h; cases h
    · rintro ⟨rfl, h1, h2⟩; omega
  · constructor
    · intro h; cases h; omega
    · rintro ⟨rfl, -, -⟩; rfl

end Sys2Proof.Machine
end

