-- ==== Sys2Proof/Laws/Primes.lean ====
section
/-! SUPPORT. Both moduli are prime (40_modarith.md R207), by Lucas certificates: a complete factorisation of m − 1 and an
element of order m − 1. So every canonical value but 0 has an inverse. -/

namespace Sys2Proof.Machine

-- The certificates are checked one at a time: a thread for each would reserve more memory than check.sh allows.
set_option Elab.async false

theorem zmod_pow_eq_one_iff {p a e : Nat} (hp : 1 < p) (he : e < 2 ^ 256) :
    (a : ZMod p) ^ e = 1 ↔ powMod p a e = 1 := by
  rw [powMod_eq he]
  have h : ((a ^ e : Nat) : ZMod p) = ((1 : Nat) : ZMod p) ↔ a ^ e ≡ 1 [MOD p] := ZMod.natCast_eq_natCast_iff _ _ _
  rw [Nat.ModEq, Nat.mod_eq_of_lt hp] at h
  simpa using h

/-- A Lucas certificate: the prime factors of p − 1, and a base whose order is p − 1. -/
theorem prime_of_certificate (p a : Nat) (fs : List Nat) (hp : 1 < p) (hlt : p < 2 ^ 256) (hprod : fs.prod = p - 1)
    (hfs : ∀ q ∈ fs, q.Prime) (h1 : powMod p a (p - 1) = 1) (h2 : ∀ q ∈ fs, powMod p a ((p - 1) / q) ≠ 1) :
    p.Prime := by
  refine lucas_primality p (a : ZMod p) ((zmod_pow_eq_one_iff hp (by omega)).2 h1) fun q hq hd => ?_
  have hmem : q ∈ fs := by
    rw [← hprod] at hd
    obtain ⟨r, hr, hqr⟩ := (Prime.dvd_prod_iff hq.prime).1 hd
    rwa [(Nat.prime_dvd_prime_iff_eq hq (hfs r hr)).1 hqr]
  have hle : (p - 1) / q ≤ p - 1 := Nat.div_le_self _ _
  exact fun h => h2 q hmem ((zmod_pow_eq_one_iff hp (by omega)).1 h)

theorem prime_3079049 : Nat.Prime 3079049 := by
  refine prime_of_certificate 3079049 3
    [2, 2, 2, 7, 54983]
    (by decide +kernel) (by decide +kernel) (by decide +kernel) ?_ (by decide +kernel) (by decide +kernel)
  simp only [List.forall_mem_cons, List.not_mem_nil, false_imp_iff, implies_true, and_true]
  exact ⟨by norm_num, by norm_num, by norm_num, by norm_num, by norm_num⟩

theorem prime_6158099 : Nat.Prime 6158099 := by
  refine prime_of_certificate 6158099 2
    [2, 3079049]
    (by decide +kernel) (by decide +kernel) (by decide +kernel) ?_ (by decide +kernel) (by decide +kernel)
  simp only [List.forall_mem_cons, List.not_mem_nil, false_imp_iff, implies_true, and_true]
  exact ⟨by norm_num, prime_3079049⟩

theorem prime_8214737 : Nat.Prime 8214737 := by
  refine prime_of_certificate 8214737 3
    [2, 2, 2, 2, 67, 79, 97]
    (by decide +kernel) (by decide +kernel) (by decide +kernel) ?_ (by decide +kernel) (by decide +kernel)
  simp only [List.forall_mem_cons, List.not_mem_nil, false_imp_iff, implies_true, and_true]
  exact ⟨by norm_num, by norm_num, by norm_num, by norm_num, by norm_num, by norm_num, by norm_num⟩

theorem prime_9061163 : Nat.Prime 9061163 := by
  refine prime_of_certificate 9061163 2
    [2, 11, 71, 5801]
    (by decide +kernel) (by decide +kernel) (by decide +kernel) ?_ (by decide +kernel) (by decide +kernel)
  simp only [List.forall_mem_cons, List.not_mem_nil, false_imp_iff, implies_true, and_true]
  exact ⟨by norm_num, by norm_num, by norm_num, by norm_num⟩

theorem prime_10042883 : Nat.Prime 10042883 := by
  refine prime_of_certificate 10042883 2
    [2, 1013, 4957]
    (by decide +kernel) (by decide +kernel) (by decide +kernel) ?_ (by decide +kernel) (by decide +kernel)
  simp only [List.forall_mem_cons, List.not_mem_nil, false_imp_iff, implies_true, and_true]
  exact ⟨by norm_num, by norm_num, by norm_num⟩

theorem prime_17965699 : Nat.Prime 17965699 := by
  refine prime_of_certificate 17965699 2
    [2, 3, 71, 181, 233]
    (by decide +kernel) (by decide +kernel) (by decide +kernel) ?_ (by decide +kernel) (by decide +kernel)
  simp only [List.forall_mem_cons, List.not_mem_nil, false_imp_iff, implies_true, and_true]
  exact ⟨by norm_num, by norm_num, by norm_num, by norm_num, by norm_num⟩

theorem prime_107615843 : Nat.Prime 107615843 := by
  refine prime_of_certificate 107615843 2
    [2, 43, 103, 12149]
    (by decide +kernel) (by decide +kernel) (by decide +kernel) ?_ (by decide +kernel) (by decide +kernel)
  simp only [List.forall_mem_cons, List.not_mem_nil, false_imp_iff, implies_true, and_true]
  exact ⟨by norm_num, by norm_num, by norm_num, by norm_num⟩

theorem prime_117774739 : Nat.Prime 117774739 := by
  refine prime_of_certificate 117774739 2
    [2, 3, 3, 59, 110899]
    (by decide +kernel) (by decide +kernel) (by decide +kernel) ?_ (by decide +kernel) (by decide +kernel)
  simp only [List.forall_mem_cons, List.not_mem_nil, false_imp_iff, implies_true, and_true]
  exact ⟨by norm_num, by norm_num, by norm_num, by norm_num, by norm_num⟩

theorem prime_1413296869 : Nat.Prime 1413296869 := by
  refine prime_of_certificate 1413296869 6
    [2, 2, 3, 117774739]
    (by decide +kernel) (by decide +kernel) (by decide +kernel) ?_ (by decide +kernel) (by decide +kernel)
  simp only [List.forall_mem_cons, List.not_mem_nil, false_imp_iff, implies_true, and_true]
  exact ⟨by norm_num, by norm_num, by norm_num, prime_117774739⟩

theorem prime_2566129871 : Nat.Prime 2566129871 := by
  refine prime_of_certificate 2566129871 7
    [2, 5, 3049, 84163]
    (by decide +kernel) (by decide +kernel) (by decide +kernel) ?_ (by decide +kernel) (by decide +kernel)
  simp only [List.forall_mem_cons, List.not_mem_nil, false_imp_iff, implies_true, and_true]
  exact ⟨by norm_num, by norm_num, by norm_num, by norm_num⟩

theorem prime_3017783777 : Nat.Prime 3017783777 := by
  refine prime_of_certificate 3017783777 3
    [2, 2, 2, 2, 2, 7, 7, 337, 5711]
    (by decide +kernel) (by decide +kernel) (by decide +kernel) ?_ (by decide +kernel) (by decide +kernel)
  simp only [List.forall_mem_cons, List.not_mem_nil, false_imp_iff, implies_true, and_true]
  exact ⟨by norm_num, by norm_num, by norm_num, by norm_num, by norm_num, by norm_num, by norm_num, by norm_num,
    by norm_num⟩

theorem prime_348253387243 : Nat.Prime 348253387243 := by
  refine prime_of_certificate 348253387243 3
    [2, 3, 61, 5303, 179429]
    (by decide +kernel) (by decide +kernel) (by decide +kernel) ?_ (by decide +kernel) (by decide +kernel)
  simp only [List.forall_mem_cons, List.not_mem_nil, false_imp_iff, implies_true, and_true]
  exact ⟨by norm_num, by norm_num, by norm_num, by norm_num, by norm_num⟩

theorem prime_2368433183657 : Nat.Prime 2368433183657 := by
  refine prime_of_certificate 2368433183657 3
    [2, 2, 2, 41, 719, 10042883]
    (by decide +kernel) (by decide +kernel) (by decide +kernel) ?_ (by decide +kernel) (by decide +kernel)
  simp only [List.forall_mem_cons, List.not_mem_nil, false_imp_iff, implies_true, and_true]
  exact ⟨by norm_num, by norm_num, by norm_num, by norm_num, by norm_num, prime_10042883⟩

theorem prime_4641351449027 : Nat.Prime 4641351449027 := by
  refine prime_of_certificate 4641351449027 2
    [2, 769, 3017783777]
    (by decide +kernel) (by decide +kernel) (by decide +kernel) ?_ (by decide +kernel) (by decide +kernel)
  simp only [List.forall_mem_cons, List.not_mem_nil, false_imp_iff, implies_true, and_true]
  exact ⟨by norm_num, by norm_num, prime_3017783777⟩

theorem prime_5636460199499 : Nat.Prime 5636460199499 := by
  refine prime_of_certificate 5636460199499 2
    [2, 31, 79, 127, 9061163]
    (by decide +kernel) (by decide +kernel) (by decide +kernel) ?_ (by decide +kernel) (by decide +kernel)
  simp only [List.forall_mem_cons, List.not_mem_nil, false_imp_iff, implies_true, and_true]
  exact ⟨by norm_num, by norm_num, by norm_num, by norm_num, prime_9061163⟩

theorem prime_101456283590983 : Nat.Prime 101456283590983 := by
  refine prime_of_certificate 101456283590983 3
    [2, 3, 3, 5636460199499]
    (by decide +kernel) (by decide +kernel) (by decide +kernel) ?_ (by decide +kernel) (by decide +kernel)
  simp only [List.forall_mem_cons, List.not_mem_nil, false_imp_iff, implies_true, and_true]
  exact ⟨by norm_num, by norm_num, by norm_num, prime_5636460199499⟩

theorem prime_417514796639753 : Nat.Prime 417514796639753 := by
  refine prime_of_certificate 417514796639753 3
    [2, 2, 2, 7, 367, 2473, 8214737]
    (by decide +kernel) (by decide +kernel) (by decide +kernel) ?_ (by decide +kernel) (by decide +kernel)
  simp only [List.forall_mem_cons, List.not_mem_nil, false_imp_iff, implies_true, and_true]
  exact ⟨by norm_num, by norm_num, by norm_num, by norm_num, by norm_num, by norm_num, prime_8214737⟩

theorem prime_3258964060712033 : Nat.Prime 3258964060712033 := by
  refine prime_of_certificate 3258964060712033 3
    [2, 2, 2, 2, 2, 43, 2368433183657]
    (by decide +kernel) (by decide +kernel) (by decide +kernel) ?_ (by decide +kernel) (by decide +kernel)
  simp only [List.forall_mem_cons, List.not_mem_nil, false_imp_iff, implies_true, and_true]
  exact ⟨by norm_num, by norm_num, by norm_num, by norm_num, by norm_num, by norm_num, prime_2368433183657⟩

theorem prime_4773264379806847 : Nat.Prime 4773264379806847 := by
  refine prime_of_certificate 4773264379806847 3
    [2, 3, 7, 11, 823, 34511, 363761]
    (by decide +kernel) (by decide +kernel) (by decide +kernel) ?_ (by decide +kernel) (by decide +kernel)
  simp only [List.forall_mem_cons, List.not_mem_nil, false_imp_iff, implies_true, and_true]
  exact ⟨by norm_num, by norm_num, by norm_num, by norm_num, by norm_num, by norm_num, by norm_num⟩

theorem prime_66013261729388519804782124120027 : Nat.Prime 66013261729388519804782124120027 := by
  refine prime_of_certificate 66013261729388519804782124120027 2
    [2, 13, 1213, 71209, 6158099, 4773264379806847]
    (by decide +kernel) (by decide +kernel) (by decide +kernel) ?_ (by decide +kernel) (by decide +kernel)
  simp only [List.forall_mem_cons, List.not_mem_nil, false_imp_iff, implies_true, and_true]
  exact ⟨by norm_num, by norm_num, by norm_num, by norm_num, prime_6158099, prime_4773264379806847⟩

theorem prime_18120927127286907576013935251791662753637 : Nat.Prime 18120927127286907576013935251791662753637 := by
  refine prime_of_certificate 18120927127286907576013935251791662753637 6
    [2, 2, 3, 3, 17965699, 107615843, 2566129871, 101456283590983]
    (by decide +kernel) (by decide +kernel) (by decide +kernel) ?_ (by decide +kernel) (by decide +kernel)
  simp only [List.forall_mem_cons, List.not_mem_nil, false_imp_iff, implies_true, and_true]
  exact ⟨by norm_num, by norm_num, by norm_num, by norm_num, prime_17965699, prime_107615843, prime_2566129871,
    prime_101456283590983⟩

theorem prime_125197554539772723432468576818475380947471091418362477724521 : Nat.Prime 125197554539772723432468576818475380947471091418362477724521 := by
  refine prime_of_certificate 125197554539772723432468576818475380947471091418362477724521 3
    [2, 2, 2, 5, 53, 3258964060712033, 18120927127286907576013935251791662753637]
    (by decide +kernel) (by decide +kernel) (by decide +kernel) ?_ (by decide +kernel) (by decide +kernel)
  simp only [List.forall_mem_cons, List.not_mem_nil, false_imp_iff, implies_true, and_true]
  exact ⟨by norm_num, by norm_num, by norm_num, by norm_num, by norm_num, prime_3258964060712033,
    prime_18120927127286907576013935251791662753637⟩

theorem prime_orderN : Nat.Prime orderN := by
  refine prime_of_certificate orderN 3
    [2, 3, 7759, 14057, 1413296869, 125197554539772723432468576818475380947471091418362477724521]
    (by decide +kernel) (by decide +kernel) (by decide +kernel) ?_ (by decide +kernel) (by decide +kernel)
  simp only [List.forall_mem_cons, List.not_mem_nil, false_imp_iff, implies_true, and_true]
  exact ⟨by norm_num, by norm_num, by norm_num, by norm_num, prime_1413296869,
    prime_125197554539772723432468576818475380947471091418362477724521⟩

theorem prime_primeP : Nat.Prime primeP := by
  refine prime_of_certificate primeP 13
    [2, 43, 30223, 348253387243, 4641351449027, 417514796639753, 66013261729388519804782124120027]
    (by decide +kernel) (by decide +kernel) (by decide +kernel) ?_ (by decide +kernel) (by decide +kernel)
  simp only [List.forall_mem_cons, List.not_mem_nil, false_imp_iff, implies_true, and_true]
  exact ⟨by norm_num, by norm_num, by norm_num, prime_348253387243, prime_4641351449027, prime_417514796639753,
    prime_66013261729388519804782124120027⟩

theorem modulus_prime (f : FieldSel) : (modulus f).Prime := by
  cases f
  · exact prime_primeP
  · exact prime_orderN

theorem modulus_gt_one (f : FieldSel) : 1 < modulus f := (modulus_prime f).one_lt

theorem modulus_lt (f : FieldSel) : modulus f < 2 ^ 256 := by cases f <;> decide +kernel

/-- Every canonical value but 0 is invertible (40_modarith.md R207). -/
theorem coprime_of_canonical (f : FieldSel) {a : Nat} (h0 : a ≠ 0) (h : a < modulus f) : Nat.Coprime (modulus f) a :=
  ((modulus_prime f).coprime_iff_not_dvd).2 fun hd => by
    have := Nat.le_of_dvd (Nat.pos_of_ne_zero h0) hd
    omega

/-- FINV's result is the inverse (40_modarith.md R207). -/
theorem invMod_spec (f : FieldSel) {a : Nat} (h0 : a ≠ 0) (h : a < modulus f) :
    invMod (modulus f) a < modulus f ∧ invMod (modulus f) a * a % modulus f = 1 :=
  ⟨invMod_lt a (modulus_gt_one f), invMod_mul (modulus_gt_one f) (modulus_lt f) h (coprime_of_canonical f h0 h)⟩

end Sys2Proof.Machine
end

