-- ==== Sys2Proof/Laws/Group.lean ====
section
/-! SUPPORT. The points of 43_ec_point.md R321 form a commutative group: each valid point stands for a point of Mathlib's
Weierstrass curve over the field of p elements, and the model's sum for the sum there. -/

namespace Sys2Proof.Machine

theorem fact_prime : Fact primeP.Prime := ⟨prime_primeP⟩

theorem fact_lt : Fact (1 < primeP) := ⟨prime_primeP.one_lt⟩

/-- The curve of R320 over the residues mod p. -/
def weierstrass : WeierstrassCurve.Affine (ZMod primeP) :=
  { a₁ := 0, a₂ := 0, a₃ := 0, a₄ := (curveA : ZMod primeP), a₆ := (curveB : ZMod primeP) }

theorem cast_mod (a : Nat) : ((a % primeP : Nat) : ZMod primeP) = a := ZMod.natCast_mod a primeP

theorem cast_subMod {a b : Nat} (hb : b ≤ primeP) : ((subMod primeP a b : Nat) : ZMod primeP) = a - b := by
  rw [subMod, cast_mod, Nat.cast_add, Nat.cast_sub hb, ZMod.natCast_self]
  ring

theorem cast_inj {a b : Nat} (ha : a < primeP) (hb : b < primeP) (h : (a : ZMod primeP) = b) : a = b := by
  have := (ZMod.natCast_eq_natCast_iff' a b primeP).1 h
  rwa [Nat.mod_eq_of_lt ha, Nat.mod_eq_of_lt hb] at this

theorem cast_eq_zero {a : Nat} (h : (a : ZMod primeP) = 0) : a % primeP = 0 :=
  Nat.mod_eq_zero_of_dvd ((ZMod.natCast_eq_zero_iff a primeP).1 h)

section

variable [Fact primeP.Prime]

/-- The inverse computed is the inverse of the field. -/
theorem cast_invMod {a : Nat} (h0 : a ≠ 0) (h : a < primeP) :
    ((invMod primeP a : Nat) : ZMod primeP) = (a : ZMod primeP)⁻¹ := by
  have h1 := (invMod_spec .fp h0 h).2
  have h2 : ((invMod primeP a * a % primeP : Nat) : ZMod primeP) = ((1 : Nat) : ZMod primeP) := congrArg _ h1
  rw [cast_mod, Nat.cast_mul, Nat.cast_one] at h2
  exact eq_inv_of_mul_eq_one_left h2

theorem discriminant_ne_zero : weierstrass.Δ ≠ 0 := by
  have h : weierstrass.Δ = -(((16 * (4 * curveA ^ 3 + 27 * curveB ^ 2) : Nat)) : ZMod primeP) := by
    simp only [WeierstrassCurve.Δ, WeierstrassCurve.b₂, WeierstrassCurve.b₄, WeierstrassCurve.b₆, WeierstrassCurve.b₈,
      weierstrass]
    push_cast
    ring
  rw [h, neg_ne_zero]
  intro h0
  have := cast_eq_zero h0
  revert this
  decide +kernel

theorem equation_iff_onCurve {x y : Nat} :
    weierstrass.Equation (x : ZMod primeP) (y : ZMod primeP) ↔ onCurve x y = true := by
  rw [WeierstrassCurve.Affine.equation_iff, onCurve, beq_iff_eq, curveRhs, ← ZMod.natCast_eq_natCast_iff']
  simp only [weierstrass]
  push_cast
  constructor <;> intro h <;> linear_combination h

theorem nonsingular_iff_onCurve {x y : Nat} :
    weierstrass.Nonsingular (x : ZMod primeP) (y : ZMod primeP) ↔ onCurve x y = true := by
  rw [← equation_iff_onCurve, WeierstrassCurve.Affine.equation_iff_nonsingular_of_Δ_ne_zero discriminant_ne_zero]

/-- The point of the curve that a valid point stands for. -/
def Point.toCurve : (p : Point) → p.Valid → weierstrass.Point
  | .infinity, _ => 0
  | .affine x y, h => .some (x : ZMod primeP) (y : ZMod primeP) (nonsingular_iff_onCurve.2 h.2.2)

theorem Point.toCurve_injective {p q : Point} {hp : p.Valid} {hq : q.Valid} (h : p.toCurve hp = q.toCurve hq) : p = q := by
  cases p with
  | infinity =>
    cases q with
    | infinity => rfl
    | affine x y => exact absurd h.symm (WeierstrassCurve.Affine.Point.some_ne_zero _)
  | affine x y =>
    cases q with
    | infinity => exact absurd h (WeierstrassCurve.Affine.Point.some_ne_zero _)
    | affine x' y' =>
      simp only [Point.toCurve, WeierstrassCurve.Affine.Point.some.injEq] at h
      rw [cast_inj hp.1 hq.1 h.1, cast_inj hp.2.1 hq.2.1 h.2]

theorem negY_weierstrass (x y : ZMod primeP) : weierstrass.negY x y = -y := by
  simp [WeierstrassCurve.Affine.negY, weierstrass]

theorem cast_slope {x1 y1 x2 y2 : Nat} (h1 : (Point.affine x1 y1).Valid) (h2 : (Point.affine x2 y2).Valid)
    (h : ¬(x1 = x2 ∧ (y1 + y2) % primeP = 0)) :
    ((slope x1 y1 x2 y2 : Nat) : ZMod primeP) = weierstrass.slope x1 x2 y1 y2 := by
  by_cases hx : x1 = x2
  · subst hx
    have hy : (y1 + y2) % primeP ≠ 0 := fun h0 => h ⟨rfl, h0⟩
    have hne : (y1 : ZMod primeP) ≠ weierstrass.negY x1 y2 := by
      rw [negY_weierstrass]
      intro h0
      exact hy (cast_eq_zero (a := y1 + y2) (by rw [Nat.cast_add, h0]; ring))
    have e1 := equation_iff_onCurve.2 h1.2.2
    have e2 := equation_iff_onCurve.2 h2.2.2
    have heq : (y1 : ZMod primeP) = y2 := WeierstrassCurve.Affine.Y_eq_of_Y_ne e1 e2 rfl hne
    obtain rfl : y1 = y2 := cast_inj h1.2.1 h2.2.1 heq
    rw [WeierstrassCurve.Affine.slope_of_Y_ne rfl hne, negY_weierstrass, slope, if_pos rfl, cast_mod]
    have h2y : 2 * y1 % primeP ≠ 0 := by rwa [two_mul]
    rw [Nat.cast_mul, cast_invMod h2y (Nat.mod_lt _ prime_primeP.pos), cast_mod, div_eq_mul_inv]
    simp only [weierstrass]
    push_cast
    ring
  · have hne : (x1 : ZMod primeP) ≠ x2 := fun h0 => hx (cast_inj h1.1 h2.1 h0)
    rw [WeierstrassCurve.Affine.slope_of_X_ne hne, slope, if_neg hx, cast_mod, Nat.cast_mul, cast_subMod h1.2.1.le]
    have hs : subMod primeP x2 x1 ≠ 0 := by
      intro h0
      have := cast_subMod (a := x2) h1.1.le
      rw [h0, Nat.cast_zero] at this
      exact hne (sub_eq_zero.1 this.symm).symm
    rw [cast_invMod hs (subMod_lt _ _ prime_primeP.pos), cast_subMod h1.1.le, ← div_eq_mul_inv, ← neg_div_neg_eq]
    ring

/-- The sum of valid points stands for the sum of what they stand for, and is valid. -/
theorem Point.toCurve_add {p q : Point} (hp : p.Valid) (hq : q.Valid) :
    ∃ h : (p.add q).Valid, (p.add q).toCurve h = p.toCurve hp + q.toCurve hq := by
  cases p with
  | infinity => exact ⟨hq, (zero_add _).symm⟩
  | affine x1 y1 =>
    cases q with
    | infinity => exact ⟨hp, (add_zero _).symm⟩
    | affine x2 y2 =>
      by_cases h : x1 = x2 ∧ (y1 + y2) % primeP = 0
      · have e : (Point.affine x1 y1).add (.affine x2 y2) = .infinity := by simp only [Point.add, if_pos h]
        rw [e]
        refine ⟨trivial, ?_⟩
        symm
        apply WeierstrassCurve.Affine.Point.add_of_Y_eq (by rw [h.1])
        rw [negY_weierstrass, eq_neg_iff_add_eq_zero, ← Nat.cast_add]
        exact (ZMod.natCast_eq_zero_iff _ _).2 (Nat.dvd_of_mod_eq_zero h.2)
      · have hxy : ¬((x1 : ZMod primeP) = x2 ∧ (y1 : ZMod primeP) = weierstrass.negY x2 y2) := by
          rintro ⟨hx, hy⟩
          refine h ⟨cast_inj hp.1 hq.1 hx, cast_eq_zero ?_⟩
          rw [Nat.cast_add, hy, negY_weierstrass]
          ring
        have hpos := prime_primeP.pos
        have hs := cast_slope hp hq h
        have ea := WeierstrassCurve.Affine.Point.add_some hxy (h₁ := nonsingular_iff_onCurve.2 hp.2.2)
          (h₂ := nonsingular_iff_onCurve.2 hq.2.2)
        have hX : ((subMod primeP (subMod primeP (slope x1 y1 x2 y2 * slope x1 y1 x2 y2 % primeP) x1) x2 : Nat) :
            ZMod primeP) = weierstrass.addX x1 x2 (weierstrass.slope x1 x2 y1 y2) := by
          rw [cast_subMod hq.1.le, cast_subMod hp.1.le, cast_mod, Nat.cast_mul, hs, WeierstrassCurve.Affine.addX]
          simp only [weierstrass]
          ring
        have hY : ((subMod primeP (slope x1 y1 x2 y2 * subMod primeP x1
            (subMod primeP (subMod primeP (slope x1 y1 x2 y2 * slope x1 y1 x2 y2 % primeP) x1) x2) % primeP) y1 : Nat) :
            ZMod primeP) = weierstrass.addY x1 x2 y1 (weierstrass.slope x1 x2 y1 y2) := by
          rw [cast_subMod hp.2.1.le, cast_mod, Nat.cast_mul, cast_subMod (subMod_lt _ _ hpos).le, hX, hs,
            WeierstrassCurve.Affine.addY, negY_weierstrass, WeierstrassCurve.Affine.negAddY]
          ring
        have e : (Point.affine x1 y1).add (.affine x2 y2) = .affine
            (subMod primeP (subMod primeP (slope x1 y1 x2 y2 * slope x1 y1 x2 y2 % primeP) x1) x2)
            (subMod primeP (slope x1 y1 x2 y2 * subMod primeP x1
              (subMod primeP (subMod primeP (slope x1 y1 x2 y2 * slope x1 y1 x2 y2 % primeP) x1) x2) % primeP) y1) := by
          simp only [Point.add, if_neg h]
        rw [e]
        refine ⟨⟨subMod_lt _ _ hpos, subMod_lt _ _ hpos, ?_⟩, ?_⟩
        · rw [← nonsingular_iff_onCurve, hX, hY]
          exact WeierstrassCurve.Affine.nonsingular_add (nonsingular_iff_onCurve.2 hp.2.2)
            (nonsingular_iff_onCurve.2 hq.2.2) hxy
        · simp only [Point.toCurve, hX, hY]
          exact ea.symm

end

/-- The sum of valid points is valid. -/
theorem Point.add_valid {p q : Point} (hp : p.Valid) (hq : q.Valid) : (p.add q).Valid := by
  have := fact_prime
  exact (Point.toCurve_add hp hq).1

theorem Point.add_comm {p q : Point} (hp : p.Valid) (hq : q.Valid) : p.add q = q.add p := by
  have := fact_prime
  obtain ⟨h1, e1⟩ := Point.toCurve_add hp hq
  obtain ⟨h2, e2⟩ := Point.toCurve_add hq hp
  exact Point.toCurve_injective (hp := h1) (hq := h2) (by rw [e1, e2, AddCommMagma.add_comm])

theorem Point.add_assoc {p q r : Point} (hp : p.Valid) (hq : q.Valid) (hr : r.Valid) :
    (p.add q).add r = p.add (q.add r) := by
  have := fact_prime
  obtain ⟨h1, e1⟩ := Point.toCurve_add hp hq
  obtain ⟨h2, e2⟩ := Point.toCurve_add h1 hr
  obtain ⟨h3, e3⟩ := Point.toCurve_add hq hr
  obtain ⟨h4, e4⟩ := Point.toCurve_add hp h3
  exact Point.toCurve_injective (hp := h2) (hq := h4) (by rw [e2, e1, e4, e3, AddSemigroup.add_assoc])

theorem Point.add_infinity (p : Point) : p.add .infinity = p := by cases p <;> rfl

theorem Point.infinity_add (p : Point) : Point.infinity.add p = p := rfl

/-- The base point is a point of the curve (43_ec_point.md R320). -/
theorem basePoint_valid : basePoint.Valid := by
  refine ⟨by decide +kernel, by decide +kernel, by decide +kernel⟩

end Sys2Proof.Machine
end

