-- ==== Sys2Proof/Laws/PerInstr.lean ====
section
/-! SUPPORT. The families of statements made per command: every command stands for a legal command word. -/

namespace Sys2Proof.Laws.EncodeLegal

/-- The word of a command has a listed opcode, its reserved bits clear and only legal flags set (30_encoding.md R147). -/
def Statement (i : Sys2Proof.Instr) : Prop := i.wellFormed = true

theorem fred (f : Sys2Proof.FieldSel) : Statement (.fred f) := by cases f <;> rfl
theorem fadd (f : Sys2Proof.FieldSel) : Statement (.fadd f) := by cases f <;> rfl
theorem fsub (f : Sys2Proof.FieldSel) : Statement (.fsub f) := by cases f <;> rfl
theorem fmul (f : Sys2Proof.FieldSel) : Statement (.fmul f) := by cases f <;> rfl
theorem fsqr (f : Sys2Proof.FieldSel) : Statement (.fsqr f) := by cases f <;> rfl
theorem fneg (f : Sys2Proof.FieldSel) : Statement (.fneg f) := by cases f <;> rfl
theorem finv (f : Sys2Proof.FieldSel) : Statement (.finv f) := by cases f <;> rfl
theorem fpow (f : Sys2Proof.FieldSel) : Statement (.fpow f) := by cases f <;> rfl
theorem fsqrt (f : Sys2Proof.FieldSel) : Statement (.fsqrt f) := by cases f <;> rfl
theorem fiszero (f : Sys2Proof.FieldSel) : Statement (.fiszero f) := by cases f <;> rfl
theorem fisodd (f : Sys2Proof.FieldSel) : Statement (.fisodd f) := by cases f <;> rfl
theorem feq (f : Sys2Proof.FieldSel) : Statement (.feq f) := by cases f <;> rfl
theorem fbinv (f : Sys2Proof.FieldSel) : Statement (.fbinv f) := by cases f <;> rfl
theorem sm3init : Statement (.sm3init) := by rfl
theorem sm3upd : Statement (.sm3upd) := by rfl
theorem sm3fin : Statement (.sm3fin) := by rfl
theorem sm3cf : Statement (.sm3cf) := by rfl
theorem sm3hash : Statement (.sm3hash) := by rfl
theorem hmac : Statement (.hmac) := by rfl
theorem hkdf : Statement (.hkdf) := by rfl
theorem sm4key : Statement (.sm4key) := by rfl
theorem sm4eblk : Statement (.sm4eblk) := by rfl
theorem sm4dblk : Statement (.sm4dblk) := by rfl
theorem sm4ecbe (pad : Sys2Proof.Padding) : Statement (.sm4ecbe pad) := by cases pad <;> rfl
theorem sm4ecbd (pad : Sys2Proof.Padding) : Statement (.sm4ecbd pad) := by cases pad <;> rfl
theorem sm4cbce (pad : Sys2Proof.Padding) : Statement (.sm4cbce pad) := by cases pad <;> rfl
theorem sm4cbcd (pad : Sys2Proof.Padding) : Statement (.sm4cbcd pad) := by cases pad <;> rfl
theorem pvalid : Statement (.pvalid) := by rfl
theorem padd : Statement (.padd) := by rfl
theorem pdbl : Statement (.pdbl) := by rfl
theorem pneg : Statement (.pneg) := by rfl
theorem pmul : Statement (.pmul) := by rfl
theorem pmulg : Statement (.pmulg) := by rfl
theorem pj2a : Statement (.pj2a) := by rfl
theorem penc (form : Sys2Proof.PointForm) : Statement (.penc form) := by cases form <;> rfl
theorem pdec : Statement (.pdec) := by rfl
theorem kdf : Statement (.kdf) := by rfl
theorem zval (id : Sys2Proof.IdSource) : Statement (.zval id) := by cases id <;> rfl
theorem keygen : Statement (.keygen) := by rfl
theorem sign (msg : Sys2Proof.MsgForm) (id : Sys2Proof.IdSource) : Statement (.sign msg id) := by cases msg <;> cases id <;> rfl
theorem verify (msg : Sys2Proof.MsgForm) (id : Sys2Proof.IdSource) : Statement (.verify msg id) := by cases msg <;> cases id <;> rfl
theorem enc (layout : Sys2Proof.Layout) : Statement (.enc layout) := by cases layout <;> rfl
theorem dec (layout : Sys2Proof.Layout) : Statement (.dec layout) := by cases layout <;> rfl
theorem keyx (idA : Sys2Proof.IdSource) (idB : Sys2Proof.IdSource) (role : Sys2Proof.Role) : Statement (.keyx idA idB role) := by cases idA <;> cases idB <;> cases role <;> rfl
theorem ecdh : Statement (.ecdh) := by rfl

end Sys2Proof.Laws.EncodeLegal
end

