-- ==== Sys2Proof/Laws/Rules.lean ====
section
/-! SUPPORT. A command's checks against the list of guards of its rule (60_exceptions.md R405): one lemma for each kind of
check, and what a completion then leaves. -/

namespace Sys2Proof.Machine

/-- The checks and the computation `x` follow a list of guards: the first that fails gives the error, and if none fails
`x` ends in a value with `done`. -/
def Follows {α : Type} (gs : List Guard) (x : Check α) (done : α → Prop) : Prop :=
  match firstFailed gs with
  | some (c, d) => ∃ e, x = .error e ∧ e.code = c ∧ e.detail = d
  | none => ∃ a, x = .ok a ∧ done a

variable {α β : Type} {gs : List Guard} {done : α → Prop}

theorem follows_done {a : α} (h : done a) : Follows [] (.ok a) done := ⟨a, rfl, h⟩

/-- A guard followed by the rest. -/
theorem follows_guard {g : Guard} {x y : Check α} {e : CmdError} (hx : x = if g.holds then y else .error e)
    (hc : e.code = g.code) (hd : e.detail = g.detail) (h : g.holds = true → Follows gs y done) :
    Follows (g :: gs) x done := by
  cases hg : g.holds with
  | true => simpa [Follows, firstFailed, hg, hx] using h hg
  | false => simp [Follows, firstFailed, hg, hx, hc, hd]

/-- A guard known to hold adds nothing. -/
theorem follows_skip {g : Guard} {x : Check α} (hg : g.holds = true) (h : Follows gs x done) : Follows (g :: gs) x done := by
  simpa [Follows, firstFailed, hg] using h

theorem follows_require {g : Guard} {c : Bool} {e : CmdError} {k : Unit → Check α} (hb : c = g.holds)
    (hc : e.code = g.code) (hd : e.detail = g.detail) (h : g.holds = true → Follows gs (k ()) done) :
    Follows (g :: gs) (require c e >>= k) done := by
  refine follows_guard ?_ hc hd h
  subst hb
  cases g.holds <;> simp [require] <;> rfl

/-- A computation that gives a value or one error. -/
theorem follows_value {g : Guard} {x : Check β} {v : β} {e : CmdError} {k : β → Check α}
    (hx : x = if g.holds then .ok v else .error e) (hc : e.code = g.code) (hd : e.detail = g.detail)
    (h : g.holds = true → Follows gs (k v) done) : Follows (g :: gs) (x >>= k) done := by
  refine follows_guard ?_ hc hd h
  subst hx
  cases g.holds <;> rfl

/-- CheckRange (20_memory.md R103). -/
theorem follows_range {s : State} {i : Fin 8} {len : Nat} {k : Unit → Check α}
    (h : s.InRange i len → Follows gs (k ()) done) :
    Follows (s.rangeGuard i len :: gs) (s.checkRange i len >>= k) done :=
  follows_require rfl rfl rfl fun hg => h (by simpa [State.rangeGuard] using hg)

/-- CheckOverlap (20_memory.md R107). -/
theorem follows_overlap {s : State} {i : Fin 8} {lo : Nat} {ins : List (Nat × Nat)} {k : Unit → Check α}
    (h : Follows gs (k ()) done) : Follows (s.overlapGuard i lo ins :: gs) (s.checkOverlap i lo ins >>= k) done := by
  refine follows_require ?_ rfl rfl fun _ => h
  simp only [State.overlapGuard, List.not_any_eq_all_not]
  congr 1
  funext x
  cases hc : clashes (s.arg i) lo x
  · simp [clashes_eq_false.1 hc]
  · have : ¬Apart (s.arg i) lo x.1 x.2 := fun ha => by simp [clashes_eq_false.2 ha] at hc
    simp [this]

/-- A field element (40_modarith.md R200). -/
theorem follows_canonical {s : State} {m addr : Nat} {k : Nat → Check α}
    (h : s.scalar addr < m → Follows gs (k (s.scalar addr)) done) :
    Follows (canonicalGuard m (s.scalar addr) :: gs) (s.canonical m addr >>= k) done := by
  refine follows_guard (e := .noncanonical) ?_ rfl rfl fun hg => h (by simpa [canonicalGuard] using hg)
  by_cases hc : s.scalar addr < m
  · rw [canonical_ok hc]; simp [canonicalGuard, hc]; rfl
  · rw [canonical_error hc]; simp [canonicalGuard, hc]; rfl

/-- A point operand (43_ec_point.md R322). -/
theorem follows_point {s : State} {addr : Nat} {k : Point → Check α}
    (h : ∀ p, SlotHolds (s.memRead addr 64) p → Follows gs (k p) done) :
    Follows (slotGuard (s.memRead addr 64) :: gs) (s.point addr >>= k) done := by
  generalize hb : s.memRead addr 64 = b
  rw [hb] at h
  have hp : s.point addr = decodeSlot b := by rw [State.point, hb]
  cases hd : decodeSlot b with
  | ok p =>
    have hs := decodeSlot_ok_iff.1 hd
    refine follows_skip ?_ (by rw [hp, hd]; exact h p hs)
    simp only [slotGuard, decide_eq_true_eq]
    exact hs.elim (fun x => .inl x.1) fun x => .inr x.1
  | error e =>
    have he : e = .notOnCurve := by
      simp only [decodeSlot] at hd
      split at hd
      · cases hd
      · split at hd <;> cases hd
        rfl
    have hg : (slotGuard b).holds = false := by
      simp only [slotGuard, decide_eq_false_iff_not]
      rintro (h0 | h1)
      · rw [(decodeSlot_ok_iff (p := .infinity)).2 (.inl ⟨h0, rfl⟩)] at hd; cases hd
      · rw [(decodeSlot_ok_iff (p := slotPoint b)).2 (.inr ⟨h1, rfl⟩)] at hd; cases hd
    exact follows_guard (e := .notOnCurve) (y := k .infinity) (by rw [hp, hd, he, hg]; rfl) rfl rfl (by simp [hg])

/-- A public key (43_ec_point.md R323). -/
theorem follows_publicKey {s : State} {addr : Nat} {k : Point → Check α}
    (h : ValidKeySlot (s.memRead addr 64) → Follows gs (k (slotPoint (s.memRead addr 64))) done) :
    Follows (publicGuards (s.memRead addr 64) ++ gs) (s.publicKey addr >>= k) done := by
  generalize hb : s.memRead addr 64 = b
  rw [hb] at h
  have hp : s.publicKey addr = validPub b := by rw [State.publicKey, hb]
  rw [hp]
  by_cases h0 : b = List.replicate 64 0
  · have hd : validPub b = .error .pubInfinity := if_pos h0
    have hg : decide (b ≠ List.replicate 64 0) = false := decide_eq_false fun hn => hn h0
    exact follows_guard (e := .pubInfinity) (y := k .infinity) (by rw [hd, hg]; rfl) rfl rfl fun ht =>
      absurd (hg.symm.trans ht) (by decide)
  · refine follows_skip (decide_eq_true h0) ?_
    by_cases hv : ValidKeySlot b
    · rw [validPub_ok_iff.2 ⟨hv, rfl⟩]
      exact follows_skip (decide_eq_true hv) (h hv)
    · have he : validPub b = .error .notOnCurve := by
        cases hd : validPub b with
        | ok p => exact absurd (validPub_ok_iff.1 hd).1 hv
        | error e =>
          rw [validPub, copies] at hd
          rw [if_neg h0] at hd
          split at hd <;> cases hd
          rfl
      have hg : decide (ValidKeySlot b) = false := decide_eq_false hv
      exact follows_guard (e := .notOnCurve) (y := k .infinity) (by rw [he, hg]; rfl) rfl rfl fun ht =>
        absurd (hg.symm.trans ht) (by decide)

/-- A private key (44_sm2_protocols.md R363). -/
theorem follows_privateKey {s : State} {addr : Nat} {k : Nat → Check α}
    (h : 1 ≤ s.scalar addr → s.scalar addr < orderN → Follows gs (k (s.scalar addr)) done) :
    Follows (privateGuard (s.scalar addr) :: gs) (s.privateKey addr >>= k) done := by
  have hp : s.privateKey addr = if s.scalar addr = 0 ∨ s.scalar addr ≥ orderN then .error .privRange
      else .ok (s.scalar addr) := rfl
  rw [hp]
  by_cases hc : 1 ≤ s.scalar addr ∧ s.scalar addr < orderN
  · rw [if_neg (by omega)]
    exact follows_skip (by simpa [privateGuard] using hc) (h hc.1 hc.2)
  · rw [if_pos (by omega)]
    exact follows_guard (e := .privRange) (y := k 0) (by simp [privateGuard, hc]; rfl) rfl rfl (by simp [privateGuard, hc])

/-- The checks of an identifier (44_sm2_protocols.md R360). -/
theorem follows_idRange {s : State} {src : IdSource} {i j : Fin 8} {k : Unit → Check α}
    (h : (src = .lmemId → s.InRange i (s.arg j)) → Follows gs (k ()) done) :
    Follows (s.idRangeGuards src i j ++ gs) (s.checkIdRange src i j >>= k) done := by
  cases src with
  | defaultId => exact h (by simp)
  | lmemId => exact follows_range fun hr => h fun _ => hr

theorem follows_idLength {s : State} {src : IdSource} {j : Fin 8} {k : Unit → Check α}
    (h : Follows gs (k ()) done) : Follows (s.idLengthGuards src j ++ gs) (s.checkIdLength src j >>= k) done := by
  cases src with
  | defaultId => exact h
  | lmemId => exact follows_require rfl rfl rfl fun _ => h

theorem identifier_eq (s : State) (src : IdSource) (i j : Fin 8) : s.identifier src i j = s.idBytes src i j := by
  cases src <;> rfl

theorem idInput_eq (s : State) (src : IdSource) (i j : Fin 8) : s.idInput src i j = s.idRange src i j := by cases src <;> rfl

/-- The length of a digest operand (44_sm2_protocols.md R365). -/
theorem follows_msgLength {msg : MsgForm} {len : Nat} {k : Unit → Check α} (h : Follows gs (k ()) done) :
    Follows (lengthGuard (decide (msg = .digest → len = 32)) :: gs) (checkMsgLength msg len >>= k) done := by
  cases msg with
  | message => exact follows_skip (by simp [lengthGuard]) h
  | digest => exact follows_require (by simp [lengthGuard]; rfl) rfl rfl fun _ => h

/-- What a command whose checks and computation follow its guards answers (30_encoding.md R143, 60_exceptions.md R402). -/
theorem complete_follows {s : State} {x : Check Effects} {Q : State → Prop} (h : Follows gs x fun e => Q (s.finish e)) :
    match firstFailed gs with
    | some (c, d) => s.complete x = .next (s.errored c d)
    | none => ∃ t, s.complete x = .next t ∧ Q t := by
  simp only [Follows] at h
  split at h
  · obtain ⟨e, rfl, rfl, rfl⟩ := h
    simp
  · obtain ⟨e, rfl, he⟩ := h
    exact ⟨s.finish e, rfl, he⟩

/-- The same for a command that reports a verdict. -/
theorem complete_verdict {s : State} {x : Check Effects} {r : Bool} (h : Follows gs x fun e => e = verdict r) :
    match firstFailed gs with
    | some (c, d) => s.complete x = .next (s.errored c d)
    | none => s.complete x = .next (s.judged r) := by
  simp only [Follows] at h
  split at h
  · obtain ⟨e, rfl, rfl, rfl⟩ := h
    simp
  · obtain ⟨e, rfl, rfl⟩ := h
    simp

/-- And for one that draws, its checks giving what one pass of its loop needs (44_sm2_protocols.md R364). -/
theorem completeWithDraw_follows {s : State} {x : Check α} {attempt : α → Nat → Option Effects} (h : Follows gs x done) :
    match firstFailed gs with
    | some (c, d) => s.completeWithDraw x attempt = .next (s.errored c d)
    | none =>
      ∃ a, done a ∧ (s.nextDraw = none → s.completeWithDraw x attempt = .next (s.afterDraw.errored 0x07 0x01)) ∧
        ∀ raw, s.nextDraw = some raw →
          (attempt a (raw.toNat % (orderN - 1) + 1) = none → s.completeWithDraw x attempt = .next s.afterDraw) ∧
          ∀ e, attempt a (raw.toNat % (orderN - 1) + 1) = some e →
            s.completeWithDraw x attempt = .next (s.afterDraw.finish e) := by
  simp only [Follows] at h
  split at h
  · obtain ⟨e, rfl, rfl, rfl⟩ := h
    simp [State.completeWithDraw]
  · obtain ⟨a, rfl, ha⟩ := h
    refine ⟨a, ha, fun hn => ?_, fun raw hr => ⟨fun hn => ?_, fun e he => ?_⟩⟩
    · simp [State.completeWithDraw, hn, CmdError.code, CmdError.detail]
    · simp [State.completeWithDraw, hr, drawnScalar, hn]
    · simp [State.completeWithDraw, hr, drawnScalar, he]

end Sys2Proof.Machine
end

