-- ==== Sys2Proof/Laws/State.lean ====
section
/-! SUPPORT. One lemma per field per update of the state, so that no proof unfolds an update. -/

namespace Sys2Proof.Machine

section
variable (s : State) (e : CmdError)

@[simp] theorem State.raise_lmemSize : (s.raise e).lmemSize = s.lmemSize := rfl
@[simp] theorem State.raise_busy : (s.raise e).busy = false := rfl
@[simp] theorem State.raise_error : (s.raise e).error = true := rfl
@[simp] theorem State.raise_result : (s.raise e).result = false := rfl
@[simp] theorem State.raise_keyv : (s.raise e).keyv = s.keyv := rfl
@[simp] theorem State.raise_errcode : (s.raise e).errcode = e.code := rfl
@[simp] theorem State.raise_errdetail : (s.raise e).errdetail = e.detail := rfl
@[simp] theorem State.raise_intDone : (s.raise e).intDone = true := rfl
@[simp] theorem State.raise_intOvr : (s.raise e).intOvr = s.intOvr := rfl
@[simp] theorem State.raise_doneEn : (s.raise e).doneEn = s.doneEn := rfl
@[simp] theorem State.raise_ovrEn : (s.raise e).ovrEn = s.ovrEn := rfl
@[simp] theorem State.raise_cmdl : (s.raise e).cmdl = s.cmdl := rfl
@[simp] theorem State.raise_latched : (s.raise e).latched = s.latched := rfl
@[simp] theorem State.raise_outlen : (s.raise e).outlen = 0 := rfl
@[simp] theorem State.raise_args : (s.raise e).args = s.args := rfl
@[simp] theorem State.raise_sm3 : (s.raise e).sm3 = s.sm3 := rfl
@[simp] theorem State.raise_rk : (s.raise e).rk = s.rk := rfl
@[simp] theorem State.raise_lmem : (s.raise e).lmem = s.lmem := rfl
@[simp] theorem State.raise_schedule : (s.raise e).schedule = s.schedule := rfl
@[simp] theorem State.raise_entropy : (s.raise e).entropy = s.entropy := rfl
@[simp] theorem State.raise_drawCount : (s.raise e).drawCount = s.drawCount := rfl
@[simp] theorem State.raise_busyReads : (s.raise e).busyReads = s.busyReads := rfl
@[simp] theorem State.raise_response : (s.raise e).response = s.response := rfl

end

section
variable (s : State) (e : Effects)

@[simp] theorem State.finish_lmemSize : (s.finish e).lmemSize = s.lmemSize := rfl
@[simp] theorem State.finish_busy : (s.finish e).busy = false := rfl
@[simp] theorem State.finish_error : (s.finish e).error = s.error := rfl
@[simp] theorem State.finish_result : (s.finish e).result = e.result := rfl
@[simp] theorem State.finish_keyv : (s.finish e).keyv = (s.keyv || e.roundKeys.isSome) := rfl
@[simp] theorem State.finish_errcode : (s.finish e).errcode = s.errcode := rfl
@[simp] theorem State.finish_errdetail : (s.finish e).errdetail = s.errdetail := rfl
@[simp] theorem State.finish_intDone : (s.finish e).intDone = true := rfl
@[simp] theorem State.finish_intOvr : (s.finish e).intOvr = s.intOvr := rfl
@[simp] theorem State.finish_doneEn : (s.finish e).doneEn = s.doneEn := rfl
@[simp] theorem State.finish_ovrEn : (s.finish e).ovrEn = s.ovrEn := rfl
@[simp] theorem State.finish_cmdl : (s.finish e).cmdl = s.cmdl := rfl
@[simp] theorem State.finish_latched : (s.finish e).latched = s.latched := rfl
@[simp] theorem State.finish_outlen : (s.finish e).outlen = BitVec.ofNat 32 e.outlen := rfl
@[simp] theorem State.finish_args : (s.finish e).args = s.args := rfl
@[simp] theorem State.finish_sm3 : (s.finish e).sm3 = e.sm3.getD s.sm3 := rfl
@[simp] theorem State.finish_rk : (s.finish e).rk = e.roundKeys.getD s.rk := rfl
@[simp] theorem State.finish_lmem : (s.finish e).lmem = s.lmem.applyWrites e.writes := rfl
@[simp] theorem State.finish_schedule : (s.finish e).schedule = s.schedule := rfl
@[simp] theorem State.finish_entropy : (s.finish e).entropy = s.entropy := rfl
@[simp] theorem State.finish_drawCount : (s.finish e).drawCount = s.drawCount := rfl
@[simp] theorem State.finish_busyReads : (s.finish e).busyReads = s.busyReads := rfl
@[simp] theorem State.finish_response : (s.finish e).response = s.response := rfl

end

section
variable (s : State) (w : Word)

@[simp] theorem State.launch_lmemSize : (s.launch w).lmemSize = s.lmemSize := rfl
@[simp] theorem State.launch_busy : (s.launch w).busy = true := rfl
@[simp] theorem State.launch_error : (s.launch w).error = false := rfl
@[simp] theorem State.launch_result : (s.launch w).result = false := rfl
@[simp] theorem State.launch_keyv : (s.launch w).keyv = s.keyv := rfl
@[simp] theorem State.launch_errcode : (s.launch w).errcode = 0 := rfl
@[simp] theorem State.launch_errdetail : (s.launch w).errdetail = 0 := rfl
@[simp] theorem State.launch_intDone : (s.launch w).intDone = s.intDone := rfl
@[simp] theorem State.launch_intOvr : (s.launch w).intOvr = s.intOvr := rfl
@[simp] theorem State.launch_doneEn : (s.launch w).doneEn = s.doneEn := rfl
@[simp] theorem State.launch_ovrEn : (s.launch w).ovrEn = s.ovrEn := rfl
@[simp] theorem State.launch_cmdl : (s.launch w).cmdl = w := rfl
@[simp] theorem State.launch_latched : (s.launch w).latched = s.args := rfl
@[simp] theorem State.launch_outlen : (s.launch w).outlen = 0 := rfl
@[simp] theorem State.launch_args : (s.launch w).args = s.args := rfl
@[simp] theorem State.launch_sm3 : (s.launch w).sm3 = s.sm3 := rfl
@[simp] theorem State.launch_rk : (s.launch w).rk = s.rk := rfl
@[simp] theorem State.launch_lmem : (s.launch w).lmem = s.lmem := rfl
@[simp] theorem State.launch_schedule : (s.launch w).schedule = s.schedule := rfl
@[simp] theorem State.launch_entropy : (s.launch w).entropy = s.entropy := rfl
@[simp] theorem State.launch_drawCount : (s.launch w).drawCount = s.drawCount := rfl
@[simp] theorem State.launch_busyReads : (s.launch w).busyReads = s.busyReads := rfl
@[simp] theorem State.launch_response : (s.launch w).response = s.response := rfl

end

section
variable (s : State)

@[simp] theorem State.afterDraw_lmemSize : (s.afterDraw).lmemSize = s.lmemSize := rfl
@[simp] theorem State.afterDraw_busy : (s.afterDraw).busy = s.busy := rfl
@[simp] theorem State.afterDraw_error : (s.afterDraw).error = s.error := rfl
@[simp] theorem State.afterDraw_result : (s.afterDraw).result = s.result := rfl
@[simp] theorem State.afterDraw_keyv : (s.afterDraw).keyv = s.keyv := rfl
@[simp] theorem State.afterDraw_errcode : (s.afterDraw).errcode = s.errcode := rfl
@[simp] theorem State.afterDraw_errdetail : (s.afterDraw).errdetail = s.errdetail := rfl
@[simp] theorem State.afterDraw_intDone : (s.afterDraw).intDone = s.intDone := rfl
@[simp] theorem State.afterDraw_intOvr : (s.afterDraw).intOvr = s.intOvr := rfl
@[simp] theorem State.afterDraw_doneEn : (s.afterDraw).doneEn = s.doneEn := rfl
@[simp] theorem State.afterDraw_ovrEn : (s.afterDraw).ovrEn = s.ovrEn := rfl
@[simp] theorem State.afterDraw_cmdl : (s.afterDraw).cmdl = s.cmdl := rfl
@[simp] theorem State.afterDraw_latched : (s.afterDraw).latched = s.latched := rfl
@[simp] theorem State.afterDraw_outlen : (s.afterDraw).outlen = s.outlen := rfl
@[simp] theorem State.afterDraw_args : (s.afterDraw).args = s.args := rfl
@[simp] theorem State.afterDraw_sm3 : (s.afterDraw).sm3 = s.sm3 := rfl
@[simp] theorem State.afterDraw_rk : (s.afterDraw).rk = s.rk := rfl
@[simp] theorem State.afterDraw_lmem : (s.afterDraw).lmem = s.lmem := rfl
@[simp] theorem State.afterDraw_schedule : (s.afterDraw).schedule = s.schedule := rfl
@[simp] theorem State.afterDraw_entropy : (s.afterDraw).entropy = s.entropy.tail := rfl
@[simp] theorem State.afterDraw_drawCount : (s.afterDraw).drawCount = s.drawCount + 1 := rfl
@[simp] theorem State.afterDraw_busyReads : (s.afterDraw).busyReads = s.busyReads := rfl
@[simp] theorem State.afterDraw_response : (s.afterDraw).response = s.response := rfl

end

section
variable (s : State)

@[simp] theorem State.dropped_lmemSize : (s.dropped).lmemSize = s.lmemSize := rfl
@[simp] theorem State.dropped_busy : (s.dropped).busy = s.busy := rfl
@[simp] theorem State.dropped_error : (s.dropped).error = s.error := rfl
@[simp] theorem State.dropped_result : (s.dropped).result = s.result := rfl
@[simp] theorem State.dropped_keyv : (s.dropped).keyv = s.keyv := rfl
@[simp] theorem State.dropped_errcode : (s.dropped).errcode = s.errcode := rfl
@[simp] theorem State.dropped_errdetail : (s.dropped).errdetail = s.errdetail := rfl
@[simp] theorem State.dropped_intDone : (s.dropped).intDone = s.intDone := rfl
@[simp] theorem State.dropped_intOvr : (s.dropped).intOvr = true := rfl
@[simp] theorem State.dropped_doneEn : (s.dropped).doneEn = s.doneEn := rfl
@[simp] theorem State.dropped_ovrEn : (s.dropped).ovrEn = s.ovrEn := rfl
@[simp] theorem State.dropped_cmdl : (s.dropped).cmdl = s.cmdl := rfl
@[simp] theorem State.dropped_latched : (s.dropped).latched = s.latched := rfl
@[simp] theorem State.dropped_outlen : (s.dropped).outlen = s.outlen := rfl
@[simp] theorem State.dropped_args : (s.dropped).args = s.args := rfl
@[simp] theorem State.dropped_sm3 : (s.dropped).sm3 = s.sm3 := rfl
@[simp] theorem State.dropped_rk : (s.dropped).rk = s.rk := rfl
@[simp] theorem State.dropped_lmem : (s.dropped).lmem = s.lmem := rfl
@[simp] theorem State.dropped_schedule : (s.dropped).schedule = s.schedule := rfl
@[simp] theorem State.dropped_entropy : (s.dropped).entropy = s.entropy := rfl
@[simp] theorem State.dropped_drawCount : (s.dropped).drawCount = s.drawCount := rfl
@[simp] theorem State.dropped_busyReads : (s.dropped).busyReads = s.busyReads := rfl
@[simp] theorem State.dropped_response : (s.dropped).response = s.response := rfl

end

section
variable (s : State) (r : Bool)

@[simp] theorem State.judged_lmemSize : (s.judged r).lmemSize = s.lmemSize := rfl
@[simp] theorem State.judged_busy : (s.judged r).busy = false := rfl
@[simp] theorem State.judged_error : (s.judged r).error = s.error := rfl
@[simp] theorem State.judged_result : (s.judged r).result = r := rfl
@[simp] theorem State.judged_keyv : (s.judged r).keyv = s.keyv := rfl
@[simp] theorem State.judged_errcode : (s.judged r).errcode = s.errcode := rfl
@[simp] theorem State.judged_errdetail : (s.judged r).errdetail = s.errdetail := rfl
@[simp] theorem State.judged_intDone : (s.judged r).intDone = true := rfl
@[simp] theorem State.judged_intOvr : (s.judged r).intOvr = s.intOvr := rfl
@[simp] theorem State.judged_doneEn : (s.judged r).doneEn = s.doneEn := rfl
@[simp] theorem State.judged_ovrEn : (s.judged r).ovrEn = s.ovrEn := rfl
@[simp] theorem State.judged_cmdl : (s.judged r).cmdl = s.cmdl := rfl
@[simp] theorem State.judged_latched : (s.judged r).latched = s.latched := rfl
@[simp] theorem State.judged_outlen : (s.judged r).outlen = 0 := rfl
@[simp] theorem State.judged_args : (s.judged r).args = s.args := rfl
@[simp] theorem State.judged_sm3 : (s.judged r).sm3 = s.sm3 := rfl
@[simp] theorem State.judged_rk : (s.judged r).rk = s.rk := rfl
@[simp] theorem State.judged_lmem : (s.judged r).lmem = s.lmem := rfl
@[simp] theorem State.judged_schedule : (s.judged r).schedule = s.schedule := rfl
@[simp] theorem State.judged_entropy : (s.judged r).entropy = s.entropy := rfl
@[simp] theorem State.judged_drawCount : (s.judged r).drawCount = s.drawCount := rfl
@[simp] theorem State.judged_busyReads : (s.judged r).busyReads = s.busyReads := rfl
@[simp] theorem State.judged_response : (s.judged r).response = s.response := rfl

end

section
variable (s : State) (c d : Byte)

@[simp] theorem State.errored_lmemSize : (s.errored c d).lmemSize = s.lmemSize := rfl
@[simp] theorem State.errored_busy : (s.errored c d).busy = false := rfl
@[simp] theorem State.errored_error : (s.errored c d).error = true := rfl
@[simp] theorem State.errored_result : (s.errored c d).result = false := rfl
@[simp] theorem State.errored_keyv : (s.errored c d).keyv = s.keyv := rfl
@[simp] theorem State.errored_errcode : (s.errored c d).errcode = c := rfl
@[simp] theorem State.errored_errdetail : (s.errored c d).errdetail = d := rfl
@[simp] theorem State.errored_intDone : (s.errored c d).intDone = true := rfl
@[simp] theorem State.errored_intOvr : (s.errored c d).intOvr = s.intOvr := rfl
@[simp] theorem State.errored_doneEn : (s.errored c d).doneEn = s.doneEn := rfl
@[simp] theorem State.errored_ovrEn : (s.errored c d).ovrEn = s.ovrEn := rfl
@[simp] theorem State.errored_cmdl : (s.errored c d).cmdl = s.cmdl := rfl
@[simp] theorem State.errored_latched : (s.errored c d).latched = s.latched := rfl
@[simp] theorem State.errored_outlen : (s.errored c d).outlen = 0 := rfl
@[simp] theorem State.errored_args : (s.errored c d).args = s.args := rfl
@[simp] theorem State.errored_sm3 : (s.errored c d).sm3 = s.sm3 := rfl
@[simp] theorem State.errored_rk : (s.errored c d).rk = s.rk := rfl
@[simp] theorem State.errored_lmem : (s.errored c d).lmem = s.lmem := rfl
@[simp] theorem State.errored_schedule : (s.errored c d).schedule = s.schedule := rfl
@[simp] theorem State.errored_entropy : (s.errored c d).entropy = s.entropy := rfl
@[simp] theorem State.errored_drawCount : (s.errored c d).drawCount = s.drawCount := rfl
@[simp] theorem State.errored_busyReads : (s.errored c d).busyReads = s.busyReads := rfl
@[simp] theorem State.errored_response : (s.errored c d).response = s.response := rfl

end

section
variable (s : State)

@[simp] theorem State.softReset_lmemSize : (s.softReset).lmemSize = s.lmemSize := rfl
@[simp] theorem State.softReset_busy : (s.softReset).busy = false := rfl
@[simp] theorem State.softReset_error : (s.softReset).error = false := rfl
@[simp] theorem State.softReset_result : (s.softReset).result = false := rfl
@[simp] theorem State.softReset_keyv : (s.softReset).keyv = false := rfl
@[simp] theorem State.softReset_errcode : (s.softReset).errcode = 0 := rfl
@[simp] theorem State.softReset_errdetail : (s.softReset).errdetail = 0 := rfl
@[simp] theorem State.softReset_intDone : (s.softReset).intDone = false := rfl
@[simp] theorem State.softReset_intOvr : (s.softReset).intOvr = false := rfl
@[simp] theorem State.softReset_doneEn : (s.softReset).doneEn = false := rfl
@[simp] theorem State.softReset_ovrEn : (s.softReset).ovrEn = false := rfl
@[simp] theorem State.softReset_cmdl : (s.softReset).cmdl = 0 := rfl
@[simp] theorem State.softReset_latched : (s.softReset).latched = Vector.replicate 8 0 := rfl
@[simp] theorem State.softReset_outlen : (s.softReset).outlen = 0 := rfl
@[simp] theorem State.softReset_args : (s.softReset).args = Vector.replicate 8 0 := rfl
@[simp] theorem State.softReset_sm3 : (s.softReset).sm3 = Sm3Context.iv := rfl
@[simp] theorem State.softReset_rk : (s.softReset).rk = Vector.replicate 32 0 := rfl
@[simp] theorem State.softReset_lmem : (s.softReset).lmem = s.lmem := rfl
@[simp] theorem State.softReset_schedule : (s.softReset).schedule = s.schedule := rfl
@[simp] theorem State.softReset_entropy : (s.softReset).entropy = s.entropy := rfl
@[simp] theorem State.softReset_drawCount : (s.softReset).drawCount = s.drawCount := rfl
@[simp] theorem State.softReset_busyReads : (s.softReset).busyReads = s.busyReads := rfl
@[simp] theorem State.softReset_response : (s.softReset).response = s.response := rfl

end

section
variable (n : Nat) (m : Memory)

@[simp] theorem State.powerOn_lmemSize : (State.powerOn n m).lmemSize = n := rfl
@[simp] theorem State.powerOn_busy : (State.powerOn n m).busy = false := rfl
@[simp] theorem State.powerOn_error : (State.powerOn n m).error = false := rfl
@[simp] theorem State.powerOn_result : (State.powerOn n m).result = false := rfl
@[simp] theorem State.powerOn_keyv : (State.powerOn n m).keyv = false := rfl
@[simp] theorem State.powerOn_errcode : (State.powerOn n m).errcode = 0 := rfl
@[simp] theorem State.powerOn_errdetail : (State.powerOn n m).errdetail = 0 := rfl
@[simp] theorem State.powerOn_intDone : (State.powerOn n m).intDone = false := rfl
@[simp] theorem State.powerOn_intOvr : (State.powerOn n m).intOvr = false := rfl
@[simp] theorem State.powerOn_doneEn : (State.powerOn n m).doneEn = false := rfl
@[simp] theorem State.powerOn_ovrEn : (State.powerOn n m).ovrEn = false := rfl
@[simp] theorem State.powerOn_cmdl : (State.powerOn n m).cmdl = 0 := rfl
@[simp] theorem State.powerOn_latched : (State.powerOn n m).latched = Vector.replicate 8 0 := rfl
@[simp] theorem State.powerOn_outlen : (State.powerOn n m).outlen = 0 := rfl
@[simp] theorem State.powerOn_args : (State.powerOn n m).args = Vector.replicate 8 0 := rfl
@[simp] theorem State.powerOn_sm3 : (State.powerOn n m).sm3 = Sm3Context.iv := rfl
@[simp] theorem State.powerOn_rk : (State.powerOn n m).rk = Vector.replicate 32 0 := rfl
@[simp] theorem State.powerOn_lmem : (State.powerOn n m).lmem = m := rfl
@[simp] theorem State.powerOn_schedule : (State.powerOn n m).schedule = [] := rfl
@[simp] theorem State.powerOn_entropy : (State.powerOn n m).entropy = [] := rfl
@[simp] theorem State.powerOn_drawCount : (State.powerOn n m).drawCount = 0 := rfl
@[simp] theorem State.powerOn_busyReads : (State.powerOn n m).busyReads = 0 := rfl
@[simp] theorem State.powerOn_response : (State.powerOn n m).response = none := rfl

end

end Sys2Proof.Machine
end

