-- ==== Sys2Proof/Laws/Step.lean ====
section
/-! SUPPORT. What one step can do: how a command can leave the state, and what a poll of `wait` does. -/

namespace Sys2Proof.Machine

/-- Bit 0 of the STATUS word is BUSY (10_state.md R54). -/
@[simp] theorem statusWord_busy (s : State) : s.statusWord.getLsbD 0 = s.busy := by
  rw [State.statusWord, BitVec.getLsbD_append]
  cases s.busy <;> rfl

/-- A poll of `wait` returns STATUS, and comes again after a turn of the core while BUSY (30_encoding.md R152). -/
theorem waitStep_eq (s : State) :
    s.waitStep = { s with
      schedule := if s.busy then .core :: .wait :: s.schedule else s.schedule
      response := some (.data s.statusWord) } := by
  have h : s.hostAccess waitAccess = { s with response := some (.data s.statusWord) } := rfl
  simp only [State.waitStep, h, statusWord_busy]
  cases s.busy <;> rfl

/-- Every command leaves the state by one completion, before or after a draw, or retries (60_exceptions.md R402, R421). -/
theorem exec_next {i : Instr} {s t : State} (h : exec i s = .next t) :
    ∃ u, (u = s ∨ u = s.afterDraw) ∧ ((∃ e, t = u.finish e) ∨ (∃ e, t = u.raise e) ∨ (t = u ∧ u = s.afterDraw)) := by
  have plain : ∀ {c : Check Effects}, s.complete c = .next t →
      ∃ u, (u = s ∨ u = s.afterDraw) ∧ ((∃ e, t = u.finish e) ∨ (∃ e, t = u.raise e) ∨ (t = u ∧ u = s.afterDraw)) := by
    intro c hc
    rcases complete_next hc with ⟨e, -, rfl⟩ | ⟨e, -, rfl⟩
    · exact ⟨s, .inl rfl, .inl ⟨e, rfl⟩⟩
    · exact ⟨s, .inl rfl, .inr (.inl ⟨e, rfl⟩)⟩
  have drawn : ∀ {α : Type} {ready : Check α} {attempt : α → Nat → Option Effects},
      s.completeWithDraw ready attempt = .next t →
      ∃ u, (u = s ∨ u = s.afterDraw) ∧ ((∃ e, t = u.finish e) ∨ (∃ e, t = u.raise e) ∨ (t = u ∧ u = s.afterDraw)) := by
    intro α ready attempt hd
    rcases completeWithDraw_next hd with ⟨e, -, rfl⟩ | ⟨-, -, -, rfl⟩ | ⟨-, -, e, -, -, -, rfl⟩ | ⟨-, -, -, -, -, rfl⟩
    · exact ⟨s, .inl rfl, .inr (.inl ⟨e, rfl⟩)⟩
    · exact ⟨_, .inr rfl, .inr (.inl ⟨_, rfl⟩)⟩
    · exact ⟨_, .inr rfl, .inl ⟨e, rfl⟩⟩
    · exact ⟨_, .inr rfl, .inr (.inr ⟨rfl, rfl⟩)⟩
  cases i with
  | keygen => rw [exec, execKeygen] at h; exact drawn h
  | sign => rw [exec, execSign] at h; exact drawn h
  | enc => rw [exec, execEnc] at h; exact drawn h
  | _ => exact plain (by rw [exec] at h; exact h)

end Sys2Proof.Machine
end

