-- ==== Sys2Proof/Tests/Slice0.lean ====
section
/-! SUPPORT. Small tests: the checks of WellFormed refuse, written-out words decode, one step of each command against the
spec's vectors (95_test_vectors.md, named in each test), and for each statement with hypotheses a state that meets them. -/

namespace Sys2Proof.Tests

open Sys2Proof Sys2Proof.Machine

-- One theorem at a time: a thread for each would reserve more memory than check.sh allows.
set_option Elab.async false

/-- A core of 1024 bytes of LMEM with a command running on the given arguments and data, a loaded key and a draw. -/
def sample (args : List Nat) (data : List (Nat × List Byte)) (keyv : Bool := false) (draw : Nat := 0) : State :=
  { State.powerOn 1024 (Memory.applyWrites [] data) with
    busy := true
    latched := Vector.ofFn fun i => BitVec.ofNat 32 (args.getD i.val 0)
    keyv := keyv
    rk := if keyv then sm4KeySchedule (beBytes 16 0x0123456789abcdeffedcba9876543210) else Vector.replicate 32 0
    entropy := [some (BitVec.ofNat 256 draw), none] }

/-- What a step left: the `n` bytes at `addr` as a number, OUTLEN, RESULT, and the error report. -/
def left (o : Host.Outcome State Fault Refusal) (addr n : Nat) : Option (Nat × Nat × Bool × Nat × Nat) :=
  match o with
  | .next t => some (beNat (t.lmem.readBytes addr n), t.outlen.toNat, t.result, t.errcode.toNat, t.errdetail.toNat)
  | .fault _ => none
  | .refused _ => none

/-! ## Well-formedness -/

theorem test_wellFormed_opcode : opcodeListed 0x0000001D = false ∧ wordWellFormed 0x0000001D = false := by decide
theorem test_wellFormed_reserved : reservedBitsClear 0x00010011 = false ∧ wordWellFormed 0x00010011 = false := by decide
theorem test_wellFormed_flag : flagBitsLegal 0x00000211 = false ∧ wordWellFormed 0x00000211 = false := by decide
theorem test_wellFormed_good : wordWellFormed 0x00000111 = true ∧ wordWellFormed 0x0000E057 = true := by decide
theorem test_wellFormed_suffix : AsmLine.suffixesLegal { mnemonic := .fadd, suffixes := [.pkcs7], args := [] } = false := by
  decide
theorem test_wellFormed_index : AsmLine.argIndicesLegal { mnemonic := .fadd, suffixes := [], args := [(8, 0)] } = false := by
  decide
theorem test_wellFormed_value :
    AsmLine.argValuesLegal { mnemonic := .fadd, suffixes := [], args := [(7, 2 ^ 32)] } = false := by decide

/-! ## Decoding: words written out from R140 and R146 -/

theorem test_decode_field :
    decode 0b00000000000000000000000100010000#32 = .ok (.fred .fn) ∧
    decode 0b00000000000000000000000000010001#32 = .ok (.fadd .fp) ∧
    decode 0b00000000000000000000000100010010#32 = .ok (.fsub .fn) ∧
    decode 0b00000000000000000000000000010011#32 = .ok (.fmul .fp) ∧
    decode 0b00000000000000000000000100010100#32 = .ok (.fsqr .fn) ∧
    decode 0b00000000000000000000000000010101#32 = .ok (.fneg .fp) ∧
    decode 0b00000000000000000000000100010110#32 = .ok (.finv .fn) ∧
    decode 0b00000000000000000000000000010111#32 = .ok (.fpow .fp) ∧
    decode 0b00000000000000000000000100011000#32 = .ok (.fsqrt .fn) ∧
    decode 0b00000000000000000000000000011001#32 = .ok (.fiszero .fp) ∧
    decode 0b00000000000000000000000100011010#32 = .ok (.fisodd .fn) ∧
    decode 0b00000000000000000000000000011011#32 = .ok (.feq .fp) ∧
    decode 0b00000000000000000000000100011100#32 = .ok (.fbinv .fn) := by
  decide

theorem test_decode_sm3 :
    decode 0b00000000000000000000000000100000#32 = .ok .sm3init ∧
    decode 0b00000000000000000000000000100001#32 = .ok .sm3upd ∧
    decode 0b00000000000000000000000000100010#32 = .ok .sm3fin ∧
    decode 0b00000000000000000000000000100011#32 = .ok .sm3cf ∧
    decode 0b00000000000000000000000000100100#32 = .ok .sm3hash ∧
    decode 0b00000000000000000000000000100101#32 = .ok .hmac ∧
    decode 0b00000000000000000000000000100110#32 = .ok .hkdf := by
  decide

theorem test_decode_sm4 :
    decode 0b00000000000000000000000000110000#32 = .ok .sm4key ∧
    decode 0b00000000000000000000000000110001#32 = .ok .sm4eblk ∧
    decode 0b00000000000000000000000000110010#32 = .ok .sm4dblk ∧
    decode 0b00000000000000000000001000110011#32 = .ok (.sm4ecbe .pkcs7) ∧
    decode 0b00000000000000000000000000110100#32 = .ok (.sm4ecbd .unpadded) ∧
    decode 0b00000000000000000000000000110101#32 = .ok (.sm4cbce .unpadded) ∧
    decode 0b00000000000000000000001000110110#32 = .ok (.sm4cbcd .pkcs7) := by
  decide

theorem test_decode_points :
    decode 0b00000000000000000000000001000000#32 = .ok .pvalid ∧
    decode 0b00000000000000000000000001000001#32 = .ok .padd ∧
    decode 0b00000000000000000000000001000010#32 = .ok .pdbl ∧
    decode 0b00000000000000000000000001000011#32 = .ok .pneg ∧
    decode 0b00000000000000000000000001000100#32 = .ok .pmul ∧
    decode 0b00000000000000000000000001000101#32 = .ok .pmulg ∧
    decode 0b00000000000000000000000001000110#32 = .ok .pj2a ∧
    decode 0b00000000000000000000010001000111#32 = .ok (.penc .compressed) ∧
    decode 0b00000000000000000000000001000111#32 = .ok (.penc .uncompressed) ∧
    decode 0b00000000000000000000000001001000#32 = .ok .pdec := by
  decide

theorem test_decode_sm2 :
    decode 0b00000000000000000000000001010000#32 = .ok .kdf ∧
    decode 0b00000000000000000010000001010001#32 = .ok (.zval .lmemId) ∧
    decode 0b00000000000000000000000001010010#32 = .ok .keygen ∧
    decode 0b00000000000000000001000001010011#32 = .ok (.sign .digest .defaultId) ∧
    decode 0b00000000000000000010000001010100#32 = .ok (.verify .message .lmemId) ∧
    decode 0b00000000000000000000100001010101#32 = .ok (.enc .c1c2c3) ∧
    decode 0b00000000000000000000000001010110#32 = .ok (.dec .c1c3c2) ∧
    decode 0b00000000000000000100000001010111#32 = .ok (.keyx .defaultId .lmemId .initiator) ∧
    decode 0b00000000000000001000000001010111#32 = .ok (.keyx .defaultId .defaultId .responder) ∧
    decode 0b00000000000000000000000001011000#32 = .ok .ecdh := by
  decide

/-- V-DEC-1 to V-DEC-6, V-DEC-8: refused words. -/
theorem test_decode_refuses :
    [0x00000000#32, 0x0000001D, 0x000000FF, 0x00010000].all (fun w => decode w = .error .badOpcode) = true ∧
    [0x00000211#32, 0x00010011, 0x00000136].all (fun w => decode w = .error .reservedBits) = true := by decide

/-- The table-word hooks: a word of a row is decoded, and the very next step after it is placed runs it. -/
theorem test_fetch_runs_the_word :
    decodeTableWord 32 0x00000111 = some (.fadd .fn) ∧
    left (step (State.reset.withFetchWord 32 0x00000019)) 0 0 = some (0, 0, true, 0, 0) ∧
    left (step (State.reset.withFetchWord 32 0x00000031)) 0 0 = some (0, 0, false, 0x13, 0x01) := by decide +kernel

/-! ## One step of each command -/

/-- V-FA-6 -/
def faddSample : State :=
  sample [0, 32, 992] [(0, beBytes 32 0xfffffffeffffffffffffffffffffffffffffffff00000000fffffffffffffffe), (32,
    beBytes 32 0x0000000000000000000000000000000000000000000000000000000000000001)]
theorem test_fadd : left (exec (.fadd .fp) faddSample) 992 32 =
    some (0x0000000000000000000000000000000000000000000000000000000000000000, 32, false, 0, 0) := by
  decide +kernel

/-- V-FA-8 -/
def fsubSample : State :=
  sample [0, 32, 992] [(0, beBytes 32 0x0000000000000000000000000000000000000000000000000000000000000000), (32,
    beBytes 32 0x0000000000000000000000000000000000000000000000000000000000000001)]
theorem test_fsub : left (exec (.fsub .fn) fsubSample) 992 32 =
    some (0xfffffffeffffffffffffffffffffffff7203df6b21c6052b53bbf40939d54122, 32, false, 0, 0) := by
  decide +kernel

/-- V-FA-10 -/
def fmulSample : State :=
  sample [0, 32, 992] [(0, beBytes 32 0xfffffffeffffffffffffffffffffffffffffffff00000000fffffffffffffffe), (32,
    beBytes 32 0xfffffffeffffffffffffffffffffffffffffffff00000000fffffffffffffffe)]
theorem test_fmul : left (exec (.fmul .fp) fmulSample) 992 32 =
    some (0x0000000000000000000000000000000000000000000000000000000000000001, 32, false, 0, 0) := by
  decide +kernel

/-- V-FA-11 -/
def fsqrSample : State :=
  sample [0, 0, 992] [(0, beBytes 32 0x0000000000000000000000000000000100000000000000000000000000000000)]
theorem test_fsqr : left (exec (.fsqr .fp) fsqrSample) 992 32 =
    some (0x0000000100000000000000000000000000000000ffffffff0000000000000001, 32, false, 0, 0) := by
  decide +kernel

/-- V-FA-13 -/
def fnegSample : State :=
  sample [0, 0, 992] [(0, beBytes 32 0x0000000000000000000000000000000000000000000000000000000000000000)]
theorem test_fneg : left (exec (.fneg .fp) fnegSample) 992 32 =
    some (0x0000000000000000000000000000000000000000000000000000000000000000, 32, false, 0, 0) := by
  decide +kernel

/-- V-FA-15 -/
def finvSample : State :=
  sample [0, 0, 992] [(0, beBytes 32 0x0000000000000000000000000000000000000000000000000000000000000002)]
theorem test_finv : left (exec (.finv .fn) finvSample) 992 32 =
    some (0x7fffffff7fffffffffffffffffffffffb901efb590e30295a9ddfa049ceaa092, 32, false, 0, 0) := by
  decide +kernel

/-- V-FA-18 -/
def fpowSample : State :=
  sample [0, 32, 992] [(0, beBytes 32 0x0000000000000000000000000000000000000000000000000000000000000002), (32,
    beBytes 32 0xfffffffeffffffffffffffffffffffffffffffff00000000fffffffffffffffe)]
theorem test_fpow : left (exec (.fpow .fp) fpowSample) 992 32 =
    some (0x0000000000000000000000000000000000000000000000000000000000000001, 32, false, 0, 0) := by
  decide +kernel

/-- V-FA-22 -/
def fsqrtSample : State :=
  sample [0, 0, 992] [(0, beBytes 32 0x0000000000000000000000000000000000000000000000000000000000000004)]
theorem test_fsqrt : left (exec (.fsqrt .fn) fsqrtSample) 992 32 =
    some (0xfffffffeffffffffffffffffffffffff7203df6b21c6052b53bbf40939d54121, 32, false, 0, 0) := by
  decide +kernel

/-- V-FA-1 -/
def fredSample : State :=
  sample [0, 64, 960] [(0,
    beBytes 64 0xffffffffffffffffffffffffffffffffffffffffffffffffffffffffffffffffffffffffffffffffffffffffffffffffffffffffffffffffffffffffffffffff)]
theorem test_fred : left (exec (.fred .fp) fredSample) 960 32 =
    some (0x0000000400000002000000010000000100000002ffffffff0000000200000002, 32, false, 0, 0) := by
  decide +kernel

/-- V-FA-27 -/
def fiszeroSample : State :=
  sample [992] []
theorem test_fiszero : left (exec (.fiszero .fp) fiszeroSample) 0 0 =
    some (0, 0, true, 0, 0) := by
  decide +kernel

/-- V-FA-29 -/
def fisoddSample : State :=
  sample [0] [(0, beBytes 32 0xfffffffeffffffffffffffffffffffffffffffff00000000fffffffffffffffe)]
theorem test_fisodd : left (exec (.fisodd .fp) fisoddSample) 0 0 =
    some (0, 0, false, 0, 0) := by
  decide +kernel

/-- V-FA-30 -/
def feqSample : State :=
  sample [0, 32] [(0, beBytes 32 0x0000000000000000000000000000000000000000000000000000000000000005), (32,
    beBytes 32 0x0000000000000000000000000000000000000000000000000000000000000005)]
theorem test_feq : left (exec (.feq .fn) feqSample) 0 0 =
    some (0, 0, true, 0, 0) := by
  decide +kernel

/-- V-FA-31 -/
def fbinvSample : State :=
  sample [0, 3, 928] [(0,
    beBytes 96 0x000000000000000000000000000000000000000000000000000000000000000100000000000000000000000000000000000000000000000000000000000000020000000000000000000000000000000000000000000000000000000000000003)]
theorem test_fbinv : left (exec (.fbinv .fp) fbinvSample) 928 96 =
    some (0x00000000000000000000000000000000000000000000000000000000000000017fffffff7fffffffffffffffffffffffffffffff80000000800000000000000055555554ffffffffffffffffffffffffffffffffaaaaaaab0000000000000000, 96, false, 0, 0) := by
  decide +kernel

/-- V-SM3-2 -/
def sm3hashSample : State :=
  sample [0, 3, 992] [(0, beBytes 3 0x616263)]
theorem test_sm3hash : left (exec .sm3hash sm3hashSample) 992 32 =
    some (0x66c7f0f462eeedd9d1f2d46bdc10e4e24167c4875cf2f7a2297da02b8f4ba8e0, 32, false, 0, 0) := by
  decide +kernel

/-- V-SM3-14 -/
def hmacSample : State :=
  sample [0, 3, 0, 3, 992] [(0, beBytes 3 0x616263)]
theorem test_hmac : left (exec .hmac hmacSample) 992 32 =
    some (0x8112d24a09eeda43ea595f3cfefb2a34856977ce4ac1d03fcc2067ae64c5e3f1, 32, false, 0, 0) := by
  decide +kernel

/-- V-SM3-17 -/
def hkdfSample : State :=
  sample [0, 22, 32, 0, 48, 0, 42, 982] [(0, beBytes 22 0x0b0b0b0b0b0b0b0b0b0b0b0b0b0b0b0b0b0b0b0b0b0b)]
theorem test_hkdf : left (exec .hkdf hkdfSample) 982 42 =
    some (0xc8c91a38ae2fb3b023a7c38ce9f0748f28230d59b6b950ba3ba949bf0d713a5774815778801741cb2034, 42, false, 0, 0) := by
  decide +kernel

/-- V-SM4-4 -/
def sm4eblkSample : State :=
  sample [0, 1008] [(0, beBytes 16 0x0123456789abcdeffedcba9876543210)] true
theorem test_sm4eblk : left (exec .sm4eblk sm4eblkSample) 1008 16 =
    some (0x681edf34d206965e86b3e94f536e4246, 16, false, 0, 0) := by
  decide +kernel

/-- V-SM4-5 -/
def sm4dblkSample : State :=
  sample [0, 1008] [(0, beBytes 16 0x681edf34d206965e86b3e94f536e4246)] true
theorem test_sm4dblk : left (exec .sm4dblk sm4dblkSample) 1008 16 =
    some (0x0123456789abcdeffedcba9876543210, 16, false, 0, 0) := by
  decide +kernel

/-- V-SM4-6 -/
def sm4ecbeSample : State :=
  sample [0, 16, 992] [(0, beBytes 16 0x0123456789abcdeffedcba9876543210)] true
theorem test_sm4ecbe : left (exec (.sm4ecbe .pkcs7) sm4ecbeSample) 992 32 =
    some (0x681edf34d206965e86b3e94f536e4246002a8a4efa863ccad024ac0300bb40d2, 32, false, 0, 0) := by
  decide +kernel

/-- V-SM4-6 read backwards, R294 -/
def sm4ecbdSample : State :=
  sample [0, 32, 992] [(0, beBytes 32 0x681edf34d206965e86b3e94f536e4246002a8a4efa863ccad024ac0300bb40d2)] true
theorem test_sm4ecbd : left (exec (.sm4ecbd .pkcs7) sm4ecbdSample) 992 16 =
    some (0x0123456789abcdeffedcba9876543210, 16, false, 0, 0) := by
  decide +kernel

/-- V-SM4-9 -/
def sm4cbceSample : State :=
  sample [0, 32, 992, 32] [(0, beBytes 32 0x0123456789abcdeffedcba98765432100123456789abcdeffedcba9876543210), (32,
    beBytes 16 0xfedcba98765432100123456789abcdef)] true
theorem test_sm4cbce : left (exec (.sm4cbce .unpadded) sm4cbceSample) 992 32 =
    some (0x6811af7e097364e786fb45ce5d9a60f03a8ddff87c1ebfdb7dc1e7bb23679458, 32, false, 0, 0) := by
  decide +kernel

/-- V-SM4-9 read backwards, R296 -/
def sm4cbcdSample : State :=
  sample [0, 32, 992, 32] [(0, beBytes 32 0x6811af7e097364e786fb45ce5d9a60f03a8ddff87c1ebfdb7dc1e7bb23679458), (32,
    beBytes 16 0xfedcba98765432100123456789abcdef)] true
theorem test_sm4cbcd : left (exec (.sm4cbcd .unpadded) sm4cbcdSample) 992 32 =
    some (0x0123456789abcdeffedcba98765432100123456789abcdeffedcba9876543210, 32, false, 0, 0) := by
  decide +kernel

/-- V-EC-1 -/
def pvalidSample : State :=
  sample [960] [(960,
    beBytes 64 0x32c4ae2c1f1981195f9904466a39c9948fe30bbff2660be1715a4589334c74c7bc3736a2f4f6779c59bdcee36b692153d0a9877cc62a474002df32e52139f0a0)]
theorem test_pvalid : left (exec .pvalid pvalidSample) 0 0 =
    some (0, 0, true, 0, 0) := by
  decide +kernel

/-- V-EC-5 -/
def paddSample : State :=
  sample [0, 64, 960] [(0,
    beBytes 64 0x32c4ae2c1f1981195f9904466a39c9948fe30bbff2660be1715a4589334c74c7bc3736a2f4f6779c59bdcee36b692153d0a9877cc62a474002df32e52139f0a0),
    (64,
    beBytes 64 0x56cefd60d7c87c000d58ef57fa73ba4d9c0dfa08c08a7331495c2e1da3f2bd5231b7e7e6cc8189f668535ce0f8eaf1bd6de84c182f6c8e716f780d3a970a23c3)]
theorem test_padd : left (exec .padd paddSample) 960 64 =
    some (0xa97f7cd4b3c993b4be2daa8cdb41e24ca13f6bd945302244e26918f1d0509ebf530b5dd88c688ef5ccc5cec08a72150f7c400ee5cd045292aaacdd037458f6e6, 64, false, 0, 0) := by
  decide +kernel

/-- V-EC-4 -/
def pdblSample : State :=
  sample [0, 0, 960] [(0,
    beBytes 64 0x32c4ae2c1f1981195f9904466a39c9948fe30bbff2660be1715a4589334c74c7bc3736a2f4f6779c59bdcee36b692153d0a9877cc62a474002df32e52139f0a0)]
theorem test_pdbl : left (exec .pdbl pdblSample) 960 64 =
    some (0x56cefd60d7c87c000d58ef57fa73ba4d9c0dfa08c08a7331495c2e1da3f2bd5231b7e7e6cc8189f668535ce0f8eaf1bd6de84c182f6c8e716f780d3a970a23c3, 64, false, 0, 0) := by
  decide +kernel

/-- V-EC-9 -/
def pnegSample : State :=
  sample [0, 0, 960] [(0,
    beBytes 64 0x32c4ae2c1f1981195f9904466a39c9948fe30bbff2660be1715a4589334c74c7bc3736a2f4f6779c59bdcee36b692153d0a9877cc62a474002df32e52139f0a0)]
theorem test_pneg : left (exec .pneg pnegSample) 960 64 =
    some (0x32c4ae2c1f1981195f9904466a39c9948fe30bbff2660be1715a4589334c74c743c8c95c0b098863a642311c9496deac2f56788239d5b8c0fd20cd1adec60f5f, 64, false, 0, 0) := by
  decide +kernel

/-- V-EC-18 -/
def pmulSample : State :=
  sample [0, 32, 960] [(0, beBytes 32 0x0000000000000000000000000000000000000000000000000000000000000002), (32,
    beBytes 64 0x32c4ae2c1f1981195f9904466a39c9948fe30bbff2660be1715a4589334c74c7bc3736a2f4f6779c59bdcee36b692153d0a9877cc62a474002df32e52139f0a0)]
theorem test_pmul : left (exec .pmul pmulSample) 960 64 =
    some (0x56cefd60d7c87c000d58ef57fa73ba4d9c0dfa08c08a7331495c2e1da3f2bd5231b7e7e6cc8189f668535ce0f8eaf1bd6de84c182f6c8e716f780d3a970a23c3, 64, false, 0, 0) := by
  decide +kernel

/-- V-EC-12 -/
def pmulgSample : State :=
  sample [0, 0, 960] [(0, beBytes 32 0x0000000000000000000000000000000000000000000000000000000000001234)]
theorem test_pmulg : left (exec .pmulg pmulgSample) 960 64 =
    some (0x87ab1f340fce9f762106658e4669460038b3932cb060471f771ae013b8844448945acef9d6d7f2f5b6cfb2a4129a3f236df90b260a1770a8c3c8d8d9478962d4, 64, false, 0, 0) := by
  decide +kernel

/-- V-EC-20 -/
def pj2aSample : State :=
  sample [0, 0, 960] [(0,
    beBytes 96 0xcb12b8b07c6604657e641119a8e726523f8c2effc9982f85c5691624cd31d31ce1b9b51ca7b3bce2cdee771b5b490a9e854c3beb315239fb16f9972909cf85050000000000000000000000000000000000000000000000000000000000000002)]
theorem test_pj2a : left (exec .pj2a pj2aSample) 960 64 =
    some (0x32c4ae2c1f1981195f9904466a39c9948fe30bbff2660be1715a4589334c74c7bc3736a2f4f6779c59bdcee36b692153d0a9877cc62a474002df32e52139f0a0, 64, false, 0, 0) := by
  decide +kernel

/-- V-EC-25 -/
def pencSample : State :=
  sample [0, 0, 991] [(0,
    beBytes 64 0x32c4ae2c1f1981195f9904466a39c9948fe30bbff2660be1715a4589334c74c743c8c95c0b098863a642311c9496deac2f56788239d5b8c0fd20cd1adec60f5f)]
theorem test_penc : left (exec (.penc .compressed) pencSample) 991 33 =
    some (0x0332c4ae2c1f1981195f9904466a39c9948fe30bbff2660be1715a4589334c74c7, 33, false, 0, 0) := by
  decide +kernel

/-- V-EC-27 -/
def pdecSample : State :=
  sample [0, 33, 960] [(0, beBytes 33 0x0232c4ae2c1f1981195f9904466a39c9948fe30bbff2660be1715a4589334c74c7)]
theorem test_pdec : left (exec .pdec pdecSample) 960 64 =
    some (0x32c4ae2c1f1981195f9904466a39c9948fe30bbff2660be1715a4589334c74c7bc3736a2f4f6779c59bdcee36b692153d0a9877cc62a474002df32e52139f0a0, 64, false, 0, 0) := by
  decide +kernel

/-- V-SM2-1 -/
def kdfSample : State :=
  sample [0, 3, 8, 0, 40, 984] [(0, beBytes 3 0x616263)]
theorem test_kdf : left (exec .kdf kdfSample) 984 40 =
    some (0xfe1ea80dac6f100c33537bd24619ec7c72a1e8b1ffeaefb1eb52a37791fdaf619db16c0ac7bebb47, 40, false, 0, 0) := by
  decide +kernel

/-- V-SM2-4 -/
def zvalSample : State :=
  sample [0, 0, 0, 992] [(0,
    beBytes 64 0x32c4ae2c1f1981195f9904466a39c9948fe30bbff2660be1715a4589334c74c7bc3736a2f4f6779c59bdcee36b692153d0a9877cc62a474002df32e52139f0a0)]
theorem test_zval : left (exec (.zval .defaultId) zvalSample) 992 32 =
    some (0x5b32bfe35482899b195d72c09d33ccdb465b2ded883240ff91f120a68bc91de8, 32, false, 0, 0) := by
  decide +kernel

/-- V-SM2-9 -/
def keygenSample : State :=
  sample [928] [] false 1
theorem test_keygen : left (exec .keygen keygenSample) 928 96 =
    some (0x000000000000000000000000000000000000000000000000000000000000000256cefd60d7c87c000d58ef57fa73ba4d9c0dfa08c08a7331495c2e1da3f2bd5231b7e7e6cc8189f668535ce0f8eaf1bd6de84c182f6c8e716f780d3a970a23c3, 96, false, 0, 0) := by
  decide +kernel

/-- R373 computed by hand for d = 1, k = 2 -/
def signSample : State :=
  sample [0, 32, 32, 0, 0, 960] [(0, beBytes 32 0xb9e036c07be7c1df36f69e63504da93b25f477601dc566253c0af43663583f84),
    (32, beBytes 32 0x0000000000000000000000000000000000000000000000000000000000000001)] false 1
theorem test_sign : left (exec (.sign .digest .defaultId) signSample) 960 64 =
    some (0x10af342253b03ddf444f8dbb4ac163894ffe91fdbc89d42b31ab2e4acd75bbb377a865ee5627e1105dd839225a9f4e3b1102a6b6b29e1880110862df362fc2b9, 64, false, 0, 0) := by
  decide +kernel

/-- R374 by hand: r = 1, s = 2, t = 3, P = 2G, so R = 8G and e is chosen as 1 − x(8G) -/
def verifySample : State :=
  sample [0, 32, 32, 960] [(0, beBytes 32 0x463c0513b4e9ef8ec24bccc2b179f19a9d19a99515a9db6fec5e71db4cc9880e), (32,
    beBytes 64 0x00000000000000000000000000000000000000000000000000000000000000010000000000000000000000000000000000000000000000000000000000000002),
    (960,
    beBytes 64 0x56cefd60d7c87c000d58ef57fa73ba4d9c0dfa08c08a7331495c2e1da3f2bd5231b7e7e6cc8189f668535ce0f8eaf1bd6de84c182f6c8e716f780d3a970a23c3)]
theorem test_verify : left (exec (.verify .digest .defaultId) verifySample) 0 0 =
    some (0, 0, true, 0, 0) := by
  decide +kernel

/-- R375 by hand for k = 3, P = 2G -/
def encSample : State :=
  sample [0, 2, 2, 925] [(0, beBytes 2 0x6869), (2,
    beBytes 64 0x56cefd60d7c87c000d58ef57fa73ba4d9c0dfa08c08a7331495c2e1da3f2bd5231b7e7e6cc8189f668535ce0f8eaf1bd6de84c182f6c8e716f780d3a970a23c3)] false 2
theorem test_enc : left (exec (.enc .c1c2c3) encSample) 925 99 =
    some (0x04a97f7cd4b3c993b4be2daa8cdb41e24ca13f6bd945302244e26918f1d0509ebf530b5dd88c688ef5ccc5cec08a72150f7c400ee5cd045292aaacdd037458f6e641f11e26eb5c4b3cdd78c7a2334e47ee0599a5b50648a4a1fea1edc436bb01a1fca2, 99, false, 0, 0) := by
  decide +kernel

/-- R376 by hand on the ciphertext of k = 3, d = 2 -/
def decSample : State :=
  sample [0, 99, 99, 1022] [(0,
    beBytes 99 0x04a97f7cd4b3c993b4be2daa8cdb41e24ca13f6bd945302244e26918f1d0509ebf530b5dd88c688ef5ccc5cec08a72150f7c400ee5cd045292aaacdd037458f6e61e26eb5c4b3cdd78c7a2334e47ee0599a5b50648a4a1fea1edc436bb01a1fca241f1),
    (99, beBytes 32 0x0000000000000000000000000000000000000000000000000000000000000002)]
theorem test_dec : left (exec (.dec .c1c3c2) decSample) 1022 2 =
    some (0x6869, 2, false, 0, 0) := by
  decide +kernel

/-- R377 by hand with dA chosen so that tA = 1 (PA need not be dA·G, R377) -/
def keyxSample : State :=
  sample [0, 0, 0, 0, 0, 16, 1008] [(0,
    beBytes 320 0xfffffffefffffffffffffffffffffffee220d3ab2f5ff949e261ae800688cc5d56cefd60d7c87c000d58ef57fa73ba4d9c0dfa08c08a7331495c2e1da3f2bd5231b7e7e6cc8189f668535ce0f8eaf1bd6de84c182f6c8e716f780d3a970a23c3000000000000000000000000000000000000000000000000000000000000000132c4ae2c1f1981195f9904466a39c9948fe30bbff2660be1715a4589334c74c7bc3736a2f4f6779c59bdcee36b692153d0a9877cc62a474002df32e52139f0a0a97f7cd4b3c993b4be2daa8cdb41e24ca13f6bd945302244e26918f1d0509ebf530b5dd88c688ef5ccc5cec08a72150f7c400ee5cd045292aaacdd037458f6e6c749061668652e26040e008fdd5eb77a344a417b7fce19dba575da57cc372a9ef2df5db2d144e9454504c622b51cf38f5006206eb579ff7da6976eff5fbe6480)]
theorem test_keyx : left (exec (.keyx .defaultId .defaultId .responder) keyxSample) 1008 16 =
    some (0x1bd77c89fab59c26c6d3d52a2e65bbc8, 16, false, 0, 0) := by
  decide +kernel

/-- R378 by hand: x(2·3G) -/
def ecdhSample : State :=
  sample [0, 32, 992] [(0, beBytes 32 0x0000000000000000000000000000000000000000000000000000000000000002), (32,
    beBytes 64 0xa97f7cd4b3c993b4be2daa8cdb41e24ca13f6bd945302244e26918f1d0509ebf530b5dd88c688ef5ccc5cec08a72150f7c400ee5cd045292aaacdd037458f6e6)]
theorem test_ecdh : left (exec .ecdh ecdhSample) 992 32 =
    some (0x0927afb57d93483bbb17c93e71f22a3105ff8856a66016892c8b1a1a3c4b0d30, 32, false, 0, 0) := by
  decide +kernel

/-- V-SM3-10 -/
def sm3finSample : State :=
  sample [992] []
theorem test_sm3fin : left (exec .sm3fin sm3finSample) 992 32 =
    some (0x1ab21d8355cfa17f8e61194831e81a8f22bec8c728fefb747ed035eb5082aa2b, 32, false, 0, 0) := by
  decide +kernel

/-- V-SM3-7, and SM3INIT after it; V-SM3-9's first update; SM4KEY's rk_0 and rk_31 (V-SM4-2). -/
def cfSample : State := sample [960] [(960, beBytes 4 0x61626380), (1020, beBytes 4 0x18)]
def keySample : State := sample [1008] [(1008, beBytes 16 0x0123456789abcdeffedcba9876543210)]
theorem test_sm3cf :
    (match exec .sm3cf cfSample with
      | .next t => some (t.sm3.v[0], t.sm3.v[7], t.sm3.buf, t.sm3.bitlen)
      | _ => none) = some (0x66c7f0f4, 0x8f4ba8e0, [], 0) := by decide +kernel
theorem test_sm3init :
    (match exec .sm3init { cfSample with sm3 := { v := Vector.replicate 8 1, buf := [1], bitlen := 8 } } with
      | .next t => some (t.sm3.v[0], t.sm3.buf, t.sm3.bitlen, t.outlen)
      | _ => none) = some (0x7380166F, [], 0, 0) := by decide +kernel
theorem test_sm3upd :
    (match exec .sm3upd (sample [984, 40] []) with
      | .next t => some (t.sm3.v[0], t.sm3.buf.length, t.sm3.bitlen)
      | _ => none) = some (0x7380166F, 40, 320) := by decide +kernel
theorem test_sm4key :
    (match exec .sm4key keySample with
      | .next t => some (t.rk[0], t.rk[31], t.keyv)
      | _ => none) = some (0xf12186f9, 0x9124a012, true) := by decide +kernel

/-! ## Error completions -/

/-- V-FA-7, V-FA-17, V-FA-34, V-FA-35. -/
theorem test_field_errors :
    [left (exec (.fadd .fp) (sample [0, 32, 992] [(0, beBytes 32 primeP)])) 0 0,
      left (exec (.finv .fp) (sample [0, 0, 992] [])) 0 0,
      left (exec (.fadd .fp) (sample [0, 32, 16] [])) 0 0,
      left (exec (.fadd .fp) (sample [1008, 0, 0] [])) 0 0] =
    [some (0, 0, false, 0x03, 0x03), some (0, 0, false, 0x03, 0x01), some (0, 0, false, 0x12, 0x02), some (0, 0, false, 0x11, 0x00)] := by
  decide +kernel

/-- V-FA-24: 13 is no square mod p. -/
theorem test_fsqrt_nqr : left (exec (.fsqrt .fp) (sample [0, 0, 992] [(0, beBytes 32 13)])) 0 0 =
    some (0, 0, false, 0x03, 0x02) := by decide +kernel

/-- V-SM4-8, V-SM4-16, V-SM4-18, and a pad byte of 0 (R285). -/
theorem test_sm4_errors :
    [left (exec (.sm4ecbe .unpadded) (sample [0, 15, 992] [] true)) 0 0,
      left (exec .sm4eblk (sample [0, 2000] [])) 0 0,
      left (exec (.sm4ecbe .pkcs7) (sample [0, 16, 1000] [] true)) 0 0,
      left (exec (.sm4ecbd .pkcs7) (sample [0, 16, 992] [(0, beBytes 16 0x681edf34d206965e86b3e94f536e4246)] true)) 992 16] =
    [some (0, 0, false, 0x01, 0x01), some (0, 0, false, 0x13, 0x01), some (0, 0, false, 0x11, 0x02), some (0, 0, false, 0x04, 0x01)] := by
  decide +kernel

/-- V-EC-2, V-EC-19, V-EC-26, V-EC-29, V-EC-33. -/
theorem test_point_errors :
    [left (exec .pvalid (sample [0] [])) 0 0,
      left (exec .pmul (sample [0, 32, 960] [(32, beBytes 32 baseX), (64, beBytes 32 (baseY + 1))])) 0 0,
      left (exec (.penc .compressed) (sample [0, 0, 960] [])) 0 0,
      left (exec .pdec (sample [0, 1, 960] [])) 0 0,
      left (exec .pdec (sample [0, 33, 960] [(0, [0x02]), (1, beBytes 32 primeP)])) 0 0] =
    [some (0, 0, false, 0, 0), some (0, 0, false, 0x02, 0x02), some (0, 0, false, 0x01, 0x04), some (0, 0, false, 0x01, 0x04), some (0, 0, false, 0x01, 0x03)] := by
  decide +kernel

/-- V-SM2-13, V-SM2-16, V-SM2-17, V-SM2-18, V-SM2-27, V-SM2-33, V-SM2-41. -/
theorem test_sm2_errors :
    [left (exec .keygen { sample [0] [] with entropy := [none] }) 0 0,
      left (exec (.sign .digest .defaultId) (sample [0, 31, 32, 0, 0, 960] [])) 0 0,
      left (exec (.sign .digest .defaultId) (sample [0, 32, 32, 0, 0, 960] [])) 0 0,
      left (exec (.sign .digest .defaultId) (sample [0, 32, 32, 0, 0, 960] [(32, beBytes 32 (orderN - 1))])) 0 0,
      left (exec (.enc .c1c3c2) (sample [0, 0, 2, 900] [])) 0 0,
      left (exec (.dec .c1c3c2) (sample [0, 97, 99, 900] [])) 0 0,
      left (exec .ecdh (sample [0, 32, 992] [(0, beBytes 32 orderN)])) 0 0] =
    [some (0, 0, false, 0x07, 0x01), some (0, 0, false, 0x01, 0x01), some (0, 0, false, 0x02, 0x01), some (0, 0, false, 0x03, 0x01), some (0, 0, false, 0x01, 0x01), some (0, 0, false, 0x01, 0x01), some (0, 0, false, 0x02, 0x01)] := by
  decide +kernel

/-- A pass of SIGN's loop that retries: r = 0 for the digest e = n − x(2G) and k = 2 (R373). -/
def retrySample : State := sample [0, 32, 32, 0, 0, 960] [(0, beBytes 32 0xa931029e283783fff2a710a8058c45b1d5f5e562613b91fa0a5fc5eb95e283d1), (32, beBytes 32 1)] false 1
theorem test_sign_retries :
    (match exec (.sign .digest .defaultId) retrySample with
      | .next t => decide (t = retrySample.afterDraw)
      | _ => false) = true := by decide +kernel

/-! ## The host -/

/-- V-HI-6: little-endian lanes. -/
theorem test_lmem_lanes :
    (((lmPut 0 [0x11, 0x22, 0x33, 0x44]).foldl State.hostAccess State.reset).hostAccess (.read 0x10000 .w32)).response =
      some (.data 0x44332211) := by decide +kernel

/-- V-HI-3, V-HI-4, V-HI-5: bus errors. -/
theorem test_bus_errors :
    [Access.read 0x00002 .w32, .read 0x00300 .w32, .write 0x10001 .w16 7].all
      (fun a => State.reset.hostAccess a = { State.reset with response := some .busErr }) = true := by decide +kernel

/-- V-HI-7, V-HI-8: a launch while busy is dropped; DONE raises IRQ, and `ack` clears it. -/
theorem test_busy_and_irq :
    (State.hostAccess (State.hostAccess State.reset (.write 0x020 .w32 0x20)) (.write 0x020 .w32 0x11)) =
      { State.hostAccess State.reset (.write 0x020 .w32 0x20) with intOvr := true, response := some .okay } ∧
    (State.irq { State.reset with intDone := true, doneEn := true }) = true ∧
    (State.irq (State.hostAccess { State.reset with intDone := true, doneEn := true } ackAccess)) = false := by
  decide +kernel

/-! ## Witnesses: a state in which every check of the rule holds, with its output at the end of LMEM where it has one, and
one in which the first check fails (every argument at its highest value) -/

/-- Arguments far outside LMEM. -/
def outside : State := sample (List.replicate 8 0xFFFFFFFF) []

theorem witness_FaddFsubFmulFollowTheirRules : ∃ (f : FieldSel) (s : State), s.lmem.wf = true ∧ (
      let m := modulus f
      let a := s.scalar (s.arg 0)
      let b := s.scalar (s.arg 1)
      firstFailed [s.rangeGuard 0 32, s.rangeGuard 1 32, s.rangeGuard 2 32,
        s.overlapGuard 2 32 [(s.arg 0, 32), (s.arg 1, 32)], canonicalGuard m a, canonicalGuard m b] = none) :=
  ⟨FieldSel.fp, faddSample, by decide +kernel, by dsimp only; decide +kernel⟩

theorem witness_FaddFsubFmulFollowTheirRules_fails : ∃ (f : FieldSel) (s : State), s.lmem.wf = true ∧ (
      let m := modulus f
      let a := s.scalar (s.arg 0)
      let b := s.scalar (s.arg 1)
      firstFailed [s.rangeGuard 0 32, s.rangeGuard 1 32, s.rangeGuard 2 32,
        s.overlapGuard 2 32 [(s.arg 0, 32), (s.arg 1, 32)], canonicalGuard m a, canonicalGuard m b] =
        some (0x11, 0x00)) :=
  ⟨FieldSel.fp, outside, by decide +kernel, by dsimp only; decide +kernel⟩

theorem witness_FsqrFnegFinvFollowTheirRules_1 : ∃ (f : FieldSel) (s : State), s.lmem.wf = true ∧ (
      let m := modulus f
      let a := s.scalar (s.arg 0)
      let checks := [s.rangeGuard 0 32, s.rangeGuard 2 32, s.overlapGuard 2 32 [(s.arg 0, 32)], canonicalGuard m a]
      firstFailed checks = none) :=
  ⟨FieldSel.fn, finvSample, by decide +kernel, by dsimp only; decide +kernel⟩

theorem witness_FsqrFnegFinvFollowTheirRules_1_fails : ∃ (f : FieldSel) (s : State), s.lmem.wf = true ∧ (
      let m := modulus f
      let a := s.scalar (s.arg 0)
      let checks := [s.rangeGuard 0 32, s.rangeGuard 2 32, s.overlapGuard 2 32 [(s.arg 0, 32)], canonicalGuard m a]
      firstFailed checks =
        some (0x11, 0x00)) :=
  ⟨FieldSel.fn, outside, by decide +kernel, by dsimp only; decide +kernel⟩

theorem witness_FsqrFnegFinvFollowTheirRules_2 : ∃ (f : FieldSel) (s : State), s.lmem.wf = true ∧ (
      let m := modulus f
      let a := s.scalar (s.arg 0)
      let checks := [s.rangeGuard 0 32, s.rangeGuard 2 32, s.overlapGuard 2 32 [(s.arg 0, 32)], canonicalGuard m a]
      firstFailed (checks ++ [{ holds := decide (a ≠ 0), code := 0x03, detail := 0x01 }]) = none) :=
  ⟨FieldSel.fn, finvSample, by decide +kernel, by dsimp only; decide +kernel⟩

theorem witness_FsqrFnegFinvFollowTheirRules_2_fails : ∃ (f : FieldSel) (s : State), s.lmem.wf = true ∧ (
      let m := modulus f
      let a := s.scalar (s.arg 0)
      let checks := [s.rangeGuard 0 32, s.rangeGuard 2 32, s.overlapGuard 2 32 [(s.arg 0, 32)], canonicalGuard m a]
      firstFailed (checks ++ [{ holds := decide (a ≠ 0), code := 0x03, detail := 0x01 }]) =
        some (0x11, 0x00)) :=
  ⟨FieldSel.fn, outside, by decide +kernel, by dsimp only; decide +kernel⟩

theorem witness_FpowFollowsItsRule : ∃ (f : FieldSel) (s : State), s.lmem.wf = true ∧ (
      let m := modulus f
      let a := s.scalar (s.arg 0)
      firstFailed [s.rangeGuard 0 32, s.rangeGuard 1 32, s.rangeGuard 2 32,
        s.overlapGuard 2 32 [(s.arg 0, 32), (s.arg 1, 32)], canonicalGuard m a] = none) :=
  ⟨FieldSel.fp, fpowSample, by decide +kernel, by dsimp only; decide +kernel⟩

theorem witness_FpowFollowsItsRule_fails : ∃ (f : FieldSel) (s : State), s.lmem.wf = true ∧ (
      let m := modulus f
      let a := s.scalar (s.arg 0)
      firstFailed [s.rangeGuard 0 32, s.rangeGuard 1 32, s.rangeGuard 2 32,
        s.overlapGuard 2 32 [(s.arg 0, 32), (s.arg 1, 32)], canonicalGuard m a] =
        some (0x11, 0x00)) :=
  ⟨FieldSel.fp, outside, by decide +kernel, by dsimp only; decide +kernel⟩

theorem witness_FredFollowsItsRule : ∃ (_ : FieldSel) (s : State), s.lmem.wf = true ∧ (firstFailed [s.rangeGuard 0 (s.arg 1), s.rangeGuard 2 32, s.overlapGuard 2 32 [(s.arg 0, s.arg 1)],
        lengthGuard (decide (s.arg 1 ≤ 64))] = none) :=
  ⟨FieldSel.fp, fredSample, by decide +kernel, by decide +kernel⟩

theorem witness_FredFollowsItsRule_fails : ∃ (_ : FieldSel) (s : State), s.lmem.wf = true ∧ (firstFailed [s.rangeGuard 0 (s.arg 1), s.rangeGuard 2 32, s.overlapGuard 2 32 [(s.arg 0, s.arg 1)],
        lengthGuard (decide (s.arg 1 ≤ 64))] =
        some (0x11, 0x00)) :=
  ⟨FieldSel.fp, outside, by decide +kernel, by decide +kernel⟩

theorem witness_FieldPredicatesFollowTheirRules_1 : ∃ (f : FieldSel) (s : State), s.lmem.wf = true ∧ (
      let m := modulus f
      let a := s.scalar (s.arg 0)
      firstFailed [s.rangeGuard 0 32, canonicalGuard m a] = none) :=
  ⟨FieldSel.fn, feqSample, by decide +kernel, by dsimp only; decide +kernel⟩

theorem witness_FieldPredicatesFollowTheirRules_1_fails : ∃ (f : FieldSel) (s : State), s.lmem.wf = true ∧ (
      let m := modulus f
      let a := s.scalar (s.arg 0)
      firstFailed [s.rangeGuard 0 32, canonicalGuard m a] =
        some (0x11, 0x00)) :=
  ⟨FieldSel.fn, outside, by decide +kernel, by dsimp only; decide +kernel⟩

theorem witness_FieldPredicatesFollowTheirRules_2 : ∃ (f : FieldSel) (s : State), s.lmem.wf = true ∧ (
      let m := modulus f
      let a := s.scalar (s.arg 0)
      let b := s.scalar (s.arg 1)
      firstFailed [s.rangeGuard 0 32, s.rangeGuard 1 32, canonicalGuard m a, canonicalGuard m b] = none) :=
  ⟨FieldSel.fn, feqSample, by decide +kernel, by dsimp only; decide +kernel⟩

theorem witness_FieldPredicatesFollowTheirRules_2_fails : ∃ (f : FieldSel) (s : State), s.lmem.wf = true ∧ (
      let m := modulus f
      let a := s.scalar (s.arg 0)
      let b := s.scalar (s.arg 1)
      firstFailed [s.rangeGuard 0 32, s.rangeGuard 1 32, canonicalGuard m a, canonicalGuard m b] =
        some (0x11, 0x00)) :=
  ⟨FieldSel.fn, outside, by decide +kernel, by dsimp only; decide +kernel⟩

theorem witness_FbinvFollowsItsRule : ∃ (f : FieldSel) (s : State), s.lmem.wf = true ∧ (
      let m := modulus f
      let k := s.arg 1
      let a := fun i => s.scalar (s.arg 0 + 32 * i)
      firstFailed ([s.rangeGuard 0 (32 * k), s.rangeGuard 2 (32 * k), s.overlapGuard 2 (32 * k) [(s.arg 0, 32 * k)]] ++
        (List.range k).map (fun i => canonicalGuard m (a i)) ++
        [{ holds := decide (∀ i ∈ List.range k, a i ≠ 0), code := 0x03, detail := 0x01 }]) = none) :=
  ⟨FieldSel.fp, fbinvSample, by decide +kernel, by dsimp only; decide +kernel⟩

theorem witness_FbinvFollowsItsRule_fails : ∃ (f : FieldSel) (s : State), s.lmem.wf = true ∧ (
      let m := modulus f
      let k := s.arg 1
      let a := fun i => s.scalar (s.arg 0 + 32 * i)
      firstFailed ([s.rangeGuard 0 (32 * k), s.rangeGuard 2 (32 * k), s.overlapGuard 2 (32 * k) [(s.arg 0, 32 * k)]] ++
        (List.range k).map (fun i => canonicalGuard m (a i)) ++
        [{ holds := decide (∀ i ∈ List.range k, a i ≠ 0), code := 0x03, detail := 0x01 }]) =
        some (0x11, 0x00)) :=
  ⟨FieldSel.fp, outside, by decide +kernel, by dsimp only; decide +kernel⟩

theorem witness_StreamingCommandsFollowTheirRules_1 : ∃ (s : State), s.lmem.wf = true ∧ (firstFailed [s.rangeGuard 0 (s.arg 1),
        { holds := decide (s.sm3.bitlen.toNat + 8 * s.arg 1 < 2 ^ 64), code := 0x01, detail := 0x06 }] = none) :=
  ⟨sm3hashSample, by decide +kernel, by decide +kernel⟩

theorem witness_StreamingCommandsFollowTheirRules_1_fails : ∃ (s : State), s.lmem.wf = true ∧ (firstFailed [s.rangeGuard 0 (s.arg 1),
        { holds := decide (s.sm3.bitlen.toNat + 8 * s.arg 1 < 2 ^ 64), code := 0x01, detail := 0x06 }] =
        some (0x11, 0x00)) :=
  ⟨outside, by decide +kernel, by decide +kernel⟩

theorem witness_StreamingCommandsFollowTheirRules_2 : ∃ (s : State), s.lmem.wf = true ∧ (firstFailed [s.rangeGuard 0 32] = none) :=
  ⟨sm3finSample, by decide +kernel, by decide +kernel⟩

theorem witness_StreamingCommandsFollowTheirRules_2_fails : ∃ (s : State), s.lmem.wf = true ∧ (firstFailed [s.rangeGuard 0 32] =
        some (0x11, 0x00)) :=
  ⟨outside, by decide +kernel, by decide +kernel⟩

theorem witness_StreamingCommandsFollowTheirRules_3 : ∃ (s : State), s.lmem.wf = true ∧ (firstFailed [s.rangeGuard 0 64] = none) :=
  ⟨cfSample, by decide +kernel, by decide +kernel⟩

theorem witness_StreamingCommandsFollowTheirRules_3_fails : ∃ (s : State), s.lmem.wf = true ∧ (firstFailed [s.rangeGuard 0 64] =
        some (0x11, 0x00)) :=
  ⟨outside, by decide +kernel, by decide +kernel⟩

theorem witness_Sm3hashAndHmacFollowTheirRules_1 : ∃ (s : State), s.lmem.wf = true ∧ (firstFailed [s.rangeGuard 0 (s.arg 1), s.rangeGuard 2 32, s.overlapGuard 2 32 [(s.arg 0, s.arg 1)]] = none) :=
  ⟨sm3hashSample, by decide +kernel, by decide +kernel⟩

theorem witness_Sm3hashAndHmacFollowTheirRules_1_fails : ∃ (s : State), s.lmem.wf = true ∧ (firstFailed [s.rangeGuard 0 (s.arg 1), s.rangeGuard 2 32, s.overlapGuard 2 32 [(s.arg 0, s.arg 1)]] =
        some (0x11, 0x00)) :=
  ⟨outside, by decide +kernel, by decide +kernel⟩

theorem witness_Sm3hashAndHmacFollowTheirRules_2 : ∃ (s : State), s.lmem.wf = true ∧ (firstFailed [s.rangeGuard 0 (s.arg 1), s.rangeGuard 2 (s.arg 3), s.rangeGuard 4 32,
        s.overlapGuard 4 32 [(s.arg 0, s.arg 1), (s.arg 2, s.arg 3)]] = none) :=
  ⟨hmacSample, by decide +kernel, by decide +kernel⟩

theorem witness_Sm3hashAndHmacFollowTheirRules_2_fails : ∃ (s : State), s.lmem.wf = true ∧ (firstFailed [s.rangeGuard 0 (s.arg 1), s.rangeGuard 2 (s.arg 3), s.rangeGuard 4 32,
        s.overlapGuard 4 32 [(s.arg 0, s.arg 1), (s.arg 2, s.arg 3)]] =
        some (0x11, 0x00)) :=
  ⟨outside, by decide +kernel, by decide +kernel⟩

theorem witness_HkdfFollowsItsRule : ∃ (s : State), s.lmem.wf = true ∧ (firstFailed [s.rangeGuard 0 (s.arg 1), s.rangeGuard 2 (s.arg 3), s.rangeGuard 4 (s.arg 5),
        s.rangeGuard 7 (s.arg 6), s.overlapGuard 7 (s.arg 6) [(s.arg 0, s.arg 1), (s.arg 2, s.arg 3), (s.arg 4, s.arg 5)],
        { holds := decide (s.arg 6 ≤ 8160), code := 0x01, detail := 0x07 }] = none) :=
  ⟨hkdfSample, by decide +kernel, by decide +kernel⟩

theorem witness_HkdfFollowsItsRule_fails : ∃ (s : State), s.lmem.wf = true ∧ (firstFailed [s.rangeGuard 0 (s.arg 1), s.rangeGuard 2 (s.arg 3), s.rangeGuard 4 (s.arg 5),
        s.rangeGuard 7 (s.arg 6), s.overlapGuard 7 (s.arg 6) [(s.arg 0, s.arg 1), (s.arg 2, s.arg 3), (s.arg 4, s.arg 5)],
        { holds := decide (s.arg 6 ≤ 8160), code := 0x01, detail := 0x07 }] =
        some (0x11, 0x00)) :=
  ⟨outside, by decide +kernel, by decide +kernel⟩

theorem witness_Sm4keyFollowsItsRule : ∃ (s : State), s.lmem.wf = true ∧ (firstFailed [s.rangeGuard 0 16] = none) :=
  ⟨keySample, by decide +kernel, by decide +kernel⟩

theorem witness_Sm4keyFollowsItsRule_fails : ∃ (s : State), s.lmem.wf = true ∧ (firstFailed [s.rangeGuard 0 16] =
        some (0x11, 0x00)) :=
  ⟨outside, by decide +kernel, by decide +kernel⟩

theorem witness_BlockCommandsFollowTheirRules : ∃ (s : State), s.lmem.wf = true ∧ (firstFailed [s.keyGuard, s.rangeGuard 0 16, s.rangeGuard 1 16, s.overlapGuard 1 16 [(s.arg 0, 16)]] = none) :=
  ⟨sm4eblkSample, by decide +kernel, by decide +kernel⟩

theorem witness_BlockCommandsFollowTheirRules_fails : ∃ (s : State), s.lmem.wf = true ∧ (firstFailed [s.keyGuard, s.rangeGuard 0 16, s.rangeGuard 1 16, s.overlapGuard 1 16 [(s.arg 0, 16)]] =
        some (0x13, 0x01)) :=
  ⟨outside, by decide +kernel, by decide +kernel⟩

theorem witness_EncryptionModesFollowTheirRules_1 : ∃ (pad : Padding) (s : State), s.lmem.wf = true ∧ (
      let len := s.arg 1
      let q := 16 - len % 16
      let R := match pad with
        | .unpadded => len
        | .pkcs7 => len + q
      let ok := match pad with
        | .unpadded => decide (len % 16 = 0)
        | .pkcs7 => true
      firstFailed [s.keyGuard, s.rangeGuard 0 len, s.rangeGuard 2 R, s.overlapGuard 2 R [(s.arg 0, len)],
        lengthGuard ok] = none) :=
  ⟨Padding.pkcs7, sm4ecbeSample, by decide +kernel, by dsimp only; decide +kernel⟩

theorem witness_EncryptionModesFollowTheirRules_1_fails : ∃ (pad : Padding) (s : State), s.lmem.wf = true ∧ (
      let len := s.arg 1
      let q := 16 - len % 16
      let R := match pad with
        | .unpadded => len
        | .pkcs7 => len + q
      let ok := match pad with
        | .unpadded => decide (len % 16 = 0)
        | .pkcs7 => true
      firstFailed [s.keyGuard, s.rangeGuard 0 len, s.rangeGuard 2 R, s.overlapGuard 2 R [(s.arg 0, len)],
        lengthGuard ok] =
        some (0x13, 0x01)) :=
  ⟨Padding.pkcs7, outside, by decide +kernel, by dsimp only; decide +kernel⟩

theorem witness_EncryptionModesFollowTheirRules_2 : ∃ (pad : Padding) (s : State), s.lmem.wf = true ∧ (
      let len := s.arg 1
      let q := 16 - len % 16
      let R := match pad with
        | .unpadded => len
        | .pkcs7 => len + q
      let ok := match pad with
        | .unpadded => decide (len % 16 = 0)
        | .pkcs7 => true
      firstFailed [s.keyGuard, s.rangeGuard 0 len, s.rangeGuard 2 R, s.rangeGuard 3 16,
        s.overlapGuard 2 R [(s.arg 0, len), (s.arg 3, 16)], lengthGuard ok] = none) :=
  ⟨Padding.pkcs7, sm4ecbeSample, by decide +kernel, by dsimp only; decide +kernel⟩

theorem witness_EncryptionModesFollowTheirRules_2_fails : ∃ (pad : Padding) (s : State), s.lmem.wf = true ∧ (
      let len := s.arg 1
      let q := 16 - len % 16
      let R := match pad with
        | .unpadded => len
        | .pkcs7 => len + q
      let ok := match pad with
        | .unpadded => decide (len % 16 = 0)
        | .pkcs7 => true
      firstFailed [s.keyGuard, s.rangeGuard 0 len, s.rangeGuard 2 R, s.rangeGuard 3 16,
        s.overlapGuard 2 R [(s.arg 0, len), (s.arg 3, 16)], lengthGuard ok] =
        some (0x13, 0x01)) :=
  ⟨Padding.pkcs7, outside, by decide +kernel, by dsimp only; decide +kernel⟩

theorem witness_DecryptionModesFollowTheirRules_1 : ∃ (pad : Padding) (s : State), s.lmem.wf = true ∧ (
      let len := s.arg 1
      let ok := match pad with
        | .unpadded => decide (len % 16 = 0)
        | .pkcs7 => decide (len > 0 ∧ len % 16 = 0)
      let q := fun (P : List Byte) => (P.getD (len - 1) 0).toNat
      let padGuard := fun (P : List Byte) =>
      match pad with
        | .unpadded => ({ holds := true, code := 0x04, detail := 0x01 } : Guard)
        | .pkcs7 =>
        { holds := decide (1 ≤ q P ∧ q P ≤ 16 ∧ ∀ i ∈ List.range (q P), (P.getD (len - (i + 1)) 0).toNat = q P)
          code := 0x04, detail := 0x01 }
      let P := sm4Ecb (sm4Dec s.rk) (s.memRead (s.arg 0) len)
      firstFailed [s.keyGuard, s.rangeGuard 0 len, s.rangeGuard 2 len, s.overlapGuard 2 len [(s.arg 0, len)],
        lengthGuard ok, padGuard P] = none) :=
  ⟨Padding.pkcs7, sm4ecbdSample, by decide +kernel, by dsimp only; decide +kernel⟩

theorem witness_DecryptionModesFollowTheirRules_1_fails : ∃ (pad : Padding) (s : State), s.lmem.wf = true ∧ (
      let len := s.arg 1
      let ok := match pad with
        | .unpadded => decide (len % 16 = 0)
        | .pkcs7 => decide (len > 0 ∧ len % 16 = 0)
      let q := fun (P : List Byte) => (P.getD (len - 1) 0).toNat
      let padGuard := fun (P : List Byte) =>
      match pad with
        | .unpadded => ({ holds := true, code := 0x04, detail := 0x01 } : Guard)
        | .pkcs7 =>
        { holds := decide (1 ≤ q P ∧ q P ≤ 16 ∧ ∀ i ∈ List.range (q P), (P.getD (len - (i + 1)) 0).toNat = q P)
          code := 0x04, detail := 0x01 }
      let P := sm4Ecb (sm4Dec s.rk) (s.memRead (s.arg 0) len)
      firstFailed [s.keyGuard, s.rangeGuard 0 len, s.rangeGuard 2 len, s.overlapGuard 2 len [(s.arg 0, len)],
        lengthGuard ok, padGuard P] =
        some (0x13, 0x01)) :=
  ⟨Padding.pkcs7, outside, by decide +kernel, by dsimp only; decide +kernel⟩

theorem witness_DecryptionModesFollowTheirRules_2 : ∃ (pad : Padding) (s : State), s.lmem.wf = true ∧ (
      let len := s.arg 1
      let ok := match pad with
        | .unpadded => decide (len % 16 = 0)
        | .pkcs7 => decide (len > 0 ∧ len % 16 = 0)
      let q := fun (P : List Byte) => (P.getD (len - 1) 0).toNat
      let padGuard := fun (P : List Byte) =>
      match pad with
        | .unpadded => ({ holds := true, code := 0x04, detail := 0x01 } : Guard)
        | .pkcs7 =>
        { holds := decide (1 ≤ q P ∧ q P ≤ 16 ∧ ∀ i ∈ List.range (q P), (P.getD (len - (i + 1)) 0).toNat = q P)
          code := 0x04, detail := 0x01 }
      let P := sm4CbcDec s.rk (s.memRead (s.arg 3) 16) (s.memRead (s.arg 0) len)
      firstFailed [s.keyGuard, s.rangeGuard 0 len, s.rangeGuard 2 len, s.rangeGuard 3 16,
        s.overlapGuard 2 len [(s.arg 0, len), (s.arg 3, 16)], lengthGuard ok, padGuard P] = none) :=
  ⟨Padding.unpadded, sm4cbcdSample, by decide +kernel, by dsimp only; decide +kernel⟩

theorem witness_DecryptionModesFollowTheirRules_2_fails : ∃ (pad : Padding) (s : State), s.lmem.wf = true ∧ (
      let len := s.arg 1
      let ok := match pad with
        | .unpadded => decide (len % 16 = 0)
        | .pkcs7 => decide (len > 0 ∧ len % 16 = 0)
      let q := fun (P : List Byte) => (P.getD (len - 1) 0).toNat
      let padGuard := fun (P : List Byte) =>
      match pad with
        | .unpadded => ({ holds := true, code := 0x04, detail := 0x01 } : Guard)
        | .pkcs7 =>
        { holds := decide (1 ≤ q P ∧ q P ≤ 16 ∧ ∀ i ∈ List.range (q P), (P.getD (len - (i + 1)) 0).toNat = q P)
          code := 0x04, detail := 0x01 }
      let P := sm4CbcDec s.rk (s.memRead (s.arg 3) 16) (s.memRead (s.arg 0) len)
      firstFailed [s.keyGuard, s.rangeGuard 0 len, s.rangeGuard 2 len, s.rangeGuard 3 16,
        s.overlapGuard 2 len [(s.arg 0, len), (s.arg 3, 16)], lengthGuard ok, padGuard P] =
        some (0x13, 0x01)) :=
  ⟨Padding.unpadded, outside, by decide +kernel, by dsimp only; decide +kernel⟩

theorem witness_PvalidFollowsItsRule : ∃ (s : State), s.lmem.wf = true ∧ (firstFailed [s.rangeGuard 0 64] = none) :=
  ⟨pvalidSample, by decide +kernel, by decide +kernel⟩

theorem witness_PvalidFollowsItsRule_fails : ∃ (s : State), s.lmem.wf = true ∧ (firstFailed [s.rangeGuard 0 64] =
        some (0x11, 0x00)) :=
  ⟨outside, by decide +kernel, by decide +kernel⟩

theorem witness_PaddPdblPnegFollowTheirRules_1 : ∃ (s : State), s.lmem.wf = true ∧ (
      let A := s.memRead (s.arg 0) 64
      let B := s.memRead (s.arg 1) 64
      firstFailed [s.rangeGuard 0 64, s.rangeGuard 1 64, s.rangeGuard 2 64,
        s.overlapGuard 2 64 [(s.arg 0, 64), (s.arg 1, 64)], slotGuard A, slotGuard B] = none) :=
  ⟨paddSample, by decide +kernel, by dsimp only; decide +kernel⟩

theorem witness_PaddPdblPnegFollowTheirRules_1_fails : ∃ (s : State), s.lmem.wf = true ∧ (
      let A := s.memRead (s.arg 0) 64
      let B := s.memRead (s.arg 1) 64
      firstFailed [s.rangeGuard 0 64, s.rangeGuard 1 64, s.rangeGuard 2 64,
        s.overlapGuard 2 64 [(s.arg 0, 64), (s.arg 1, 64)], slotGuard A, slotGuard B] =
        some (0x11, 0x00)) :=
  ⟨outside, by decide +kernel, by dsimp only; decide +kernel⟩

theorem witness_PaddPdblPnegFollowTheirRules_2 : ∃ (s : State), s.lmem.wf = true ∧ (
      let A := s.memRead (s.arg 0) 64
      firstFailed [s.rangeGuard 0 64, s.rangeGuard 2 64, s.overlapGuard 2 64 [(s.arg 0, 64)], slotGuard A] = none) :=
  ⟨pdblSample, by decide +kernel, by dsimp only; decide +kernel⟩

theorem witness_PaddPdblPnegFollowTheirRules_2_fails : ∃ (s : State), s.lmem.wf = true ∧ (
      let A := s.memRead (s.arg 0) 64
      firstFailed [s.rangeGuard 0 64, s.rangeGuard 2 64, s.overlapGuard 2 64 [(s.arg 0, 64)], slotGuard A] =
        some (0x11, 0x00)) :=
  ⟨outside, by decide +kernel, by dsimp only; decide +kernel⟩

theorem witness_PmulPmulgFollowTheirRules_1 : ∃ (s : State), s.lmem.wf = true ∧ (firstFailed [s.rangeGuard 0 32, s.rangeGuard 1 64, s.rangeGuard 2 64,
        s.overlapGuard 2 64 [(s.arg 0, 32), (s.arg 1, 64)], slotGuard (s.memRead (s.arg 1) 64)] = none) :=
  ⟨pmulSample, by decide +kernel, by decide +kernel⟩

theorem witness_PmulPmulgFollowTheirRules_1_fails : ∃ (s : State), s.lmem.wf = true ∧ (firstFailed [s.rangeGuard 0 32, s.rangeGuard 1 64, s.rangeGuard 2 64,
        s.overlapGuard 2 64 [(s.arg 0, 32), (s.arg 1, 64)], slotGuard (s.memRead (s.arg 1) 64)] =
        some (0x11, 0x00)) :=
  ⟨outside, by decide +kernel, by decide +kernel⟩

theorem witness_PmulPmulgFollowTheirRules_2 : ∃ (s : State), s.lmem.wf = true ∧ (firstFailed [s.rangeGuard 0 32, s.rangeGuard 2 64, s.overlapGuard 2 64 [(s.arg 0, 32)]] = none) :=
  ⟨pmulgSample, by decide +kernel, by decide +kernel⟩

theorem witness_PmulPmulgFollowTheirRules_2_fails : ∃ (s : State), s.lmem.wf = true ∧ (firstFailed [s.rangeGuard 0 32, s.rangeGuard 2 64, s.overlapGuard 2 64 [(s.arg 0, 32)]] =
        some (0x11, 0x00)) :=
  ⟨outside, by decide +kernel, by decide +kernel⟩

theorem witness_Pj2aFollowsItsRule : ∃ (s : State), s.lmem.wf = true ∧ (
      let X := s.scalar (s.arg 0)
      let Y := s.scalar (s.arg 0 + 32)
      let Z := s.scalar (s.arg 0 + 64)
      firstFailed [s.rangeGuard 0 96, s.rangeGuard 2 64, s.overlapGuard 2 64 [(s.arg 0, 96)], canonicalGuard primeP X,
        canonicalGuard primeP Y, canonicalGuard primeP Z] = none) :=
  ⟨pj2aSample, by decide +kernel, by dsimp only; decide +kernel⟩

theorem witness_Pj2aFollowsItsRule_fails : ∃ (s : State), s.lmem.wf = true ∧ (
      let X := s.scalar (s.arg 0)
      let Y := s.scalar (s.arg 0 + 32)
      let Z := s.scalar (s.arg 0 + 64)
      firstFailed [s.rangeGuard 0 96, s.rangeGuard 2 64, s.overlapGuard 2 64 [(s.arg 0, 96)], canonicalGuard primeP X,
        canonicalGuard primeP Y, canonicalGuard primeP Z] =
        some (0x11, 0x00)) :=
  ⟨outside, by decide +kernel, by dsimp only; decide +kernel⟩

theorem witness_PencFollowsItsRule : ∃ (form : PointForm) (s : State), s.lmem.wf = true ∧ (
      let A := s.memRead (s.arg 0) 64
      let w := match form with
        | .uncompressed => 65
        | .compressed => 33
      firstFailed [s.rangeGuard 0 64, s.rangeGuard 2 w, s.overlapGuard 2 w [(s.arg 0, 64)], slotGuard A,
        { holds := decide (A ≠ List.replicate 64 0), code := 0x01, detail := 0x04 }] = none) :=
  ⟨PointForm.compressed, pencSample, by decide +kernel, by dsimp only; decide +kernel⟩

theorem witness_PencFollowsItsRule_fails : ∃ (form : PointForm) (s : State), s.lmem.wf = true ∧ (
      let A := s.memRead (s.arg 0) 64
      let w := match form with
        | .uncompressed => 65
        | .compressed => 33
      firstFailed [s.rangeGuard 0 64, s.rangeGuard 2 w, s.overlapGuard 2 w [(s.arg 0, 64)], slotGuard A,
        { holds := decide (A ≠ List.replicate 64 0), code := 0x01, detail := 0x04 }] =
        some (0x11, 0x00)) :=
  ⟨PointForm.compressed, outside, by decide +kernel, by dsimp only; decide +kernel⟩

theorem witness_KdfFollowsItsRule : ∃ (s : State), s.lmem.wf = true ∧ (
      let klen := s.arg 4
      firstFailed [s.rangeGuard 0 (s.arg 1), s.rangeGuard 2 (s.arg 3), s.rangeGuard 5 klen,
        s.overlapGuard 5 klen [(s.arg 0, s.arg 1), (s.arg 2, s.arg 3)]] = none) :=
  ⟨kdfSample, by decide +kernel, by dsimp only; decide +kernel⟩

theorem witness_KdfFollowsItsRule_fails : ∃ (s : State), s.lmem.wf = true ∧ (
      let klen := s.arg 4
      firstFailed [s.rangeGuard 0 (s.arg 1), s.rangeGuard 2 (s.arg 3), s.rangeGuard 5 klen,
        s.overlapGuard 5 klen [(s.arg 0, s.arg 1), (s.arg 2, s.arg 3)]] =
        some (0x11, 0x00)) :=
  ⟨outside, by decide +kernel, by dsimp only; decide +kernel⟩

theorem witness_ZvalFollowsItsRule : ∃ (id : IdSource) (s : State), s.lmem.wf = true ∧ (
      let P := s.memRead (s.arg 0) 64
      firstFailed ([s.rangeGuard 0 64] ++ s.idRangeGuards id 1 2 ++ [s.rangeGuard 3 32,
        s.overlapGuard 3 32 ((s.arg 0, 64) :: s.idRange id 1 2)] ++ s.idLengthGuards id 2 ++ publicGuards P) = none) :=
  ⟨IdSource.defaultId, zvalSample, by decide +kernel, by dsimp only; decide +kernel⟩

theorem witness_ZvalFollowsItsRule_fails : ∃ (id : IdSource) (s : State), s.lmem.wf = true ∧ (
      let P := s.memRead (s.arg 0) 64
      firstFailed ([s.rangeGuard 0 64] ++ s.idRangeGuards id 1 2 ++ [s.rangeGuard 3 32,
        s.overlapGuard 3 32 ((s.arg 0, 64) :: s.idRange id 1 2)] ++ s.idLengthGuards id 2 ++ publicGuards P) =
        some (0x11, 0x00)) :=
  ⟨IdSource.defaultId, outside, by decide +kernel, by dsimp only; decide +kernel⟩

theorem witness_KeygenFollowsItsRule : ∃ (s : State), s.lmem.wf = true ∧ (firstFailed [s.rangeGuard 0 96] = none) :=
  ⟨keygenSample, by decide +kernel, by decide +kernel⟩

theorem witness_KeygenFollowsItsRule_fails : ∃ (s : State), s.lmem.wf = true ∧ (firstFailed [s.rangeGuard 0 96] =
        some (0x11, 0x00)) :=
  ⟨outside, by decide +kernel, by decide +kernel⟩

theorem witness_SignFollowsItsRule : ∃ (msg : MsgForm) (id : IdSource) (s : State), s.lmem.wf = true ∧ (
      let used := usedId msg id
      let d := s.scalar (s.arg 2)
      firstFailed ([s.rangeGuard 0 (s.arg 1), s.rangeGuard 2 32] ++ s.idRangeGuards used 3 4 ++ [s.rangeGuard 5 64,
        s.overlapGuard 5 64 ([(s.arg 0, s.arg 1), (s.arg 2, 32)] ++ s.idRange used 3 4),
        lengthGuard (decide (msg = .digest → s.arg 1 = 32))] ++ s.idLengthGuards used 4 ++
        [privateGuard d, { holds := decide ((1 + d) % orderN ≠ 0), code := 0x03, detail := 0x01 }]) = none) :=
  ⟨MsgForm.digest, IdSource.defaultId, signSample, by decide +kernel, by dsimp only; decide +kernel⟩

theorem witness_SignFollowsItsRule_fails : ∃ (msg : MsgForm) (id : IdSource) (s : State), s.lmem.wf = true ∧ (
      let used := usedId msg id
      let d := s.scalar (s.arg 2)
      firstFailed ([s.rangeGuard 0 (s.arg 1), s.rangeGuard 2 32] ++ s.idRangeGuards used 3 4 ++ [s.rangeGuard 5 64,
        s.overlapGuard 5 64 ([(s.arg 0, s.arg 1), (s.arg 2, 32)] ++ s.idRange used 3 4),
        lengthGuard (decide (msg = .digest → s.arg 1 = 32))] ++ s.idLengthGuards used 4 ++
        [privateGuard d, { holds := decide ((1 + d) % orderN ≠ 0), code := 0x03, detail := 0x01 }]) =
        some (0x11, 0x00)) :=
  ⟨MsgForm.digest, IdSource.defaultId, outside, by decide +kernel, by dsimp only; decide +kernel⟩

theorem witness_VerifyFollowsItsRule : ∃ (msg : MsgForm) (id : IdSource) (s : State), s.lmem.wf = true ∧ (
      let used := usedId msg id
      let P := s.memRead (s.arg 3) 64
      firstFailed ([s.rangeGuard 0 (s.arg 1), s.rangeGuard 2 64, s.rangeGuard 3 64] ++ s.idRangeGuards used 4 5 ++
        [lengthGuard (decide (msg = .digest → s.arg 1 = 32))] ++ s.idLengthGuards used 5 ++ publicGuards P) = none) :=
  ⟨MsgForm.digest, IdSource.defaultId, verifySample, by decide +kernel, by dsimp only; decide +kernel⟩

theorem witness_VerifyFollowsItsRule_fails : ∃ (msg : MsgForm) (id : IdSource) (s : State), s.lmem.wf = true ∧ (
      let used := usedId msg id
      let P := s.memRead (s.arg 3) 64
      firstFailed ([s.rangeGuard 0 (s.arg 1), s.rangeGuard 2 64, s.rangeGuard 3 64] ++ s.idRangeGuards used 4 5 ++
        [lengthGuard (decide (msg = .digest → s.arg 1 = 32))] ++ s.idLengthGuards used 5 ++ publicGuards P) =
        some (0x11, 0x00)) :=
  ⟨MsgForm.digest, IdSource.defaultId, outside, by decide +kernel, by dsimp only; decide +kernel⟩

theorem witness_EncFollowsItsRule : ∃ (s : State), s.lmem.wf = true ∧ (
      let L := s.arg 1
      let P := s.memRead (s.arg 2) 64
      firstFailed ([s.rangeGuard 0 L, s.rangeGuard 2 64, s.rangeGuard 3 (97 + L),
        s.overlapGuard 3 (97 + L) [(s.arg 0, L), (s.arg 2, 64)], lengthGuard (decide (L ≠ 0))] ++ publicGuards P) = none) :=
  ⟨encSample, by decide +kernel, by dsimp only; decide +kernel⟩

theorem witness_EncFollowsItsRule_fails : ∃ (s : State), s.lmem.wf = true ∧ (
      let L := s.arg 1
      let P := s.memRead (s.arg 2) 64
      firstFailed ([s.rangeGuard 0 L, s.rangeGuard 2 64, s.rangeGuard 3 (97 + L),
        s.overlapGuard 3 (97 + L) [(s.arg 0, L), (s.arg 2, 64)], lengthGuard (decide (L ≠ 0))] ++ publicGuards P) =
        some (0x11, 0x00)) :=
  ⟨outside, by decide +kernel, by dsimp only; decide +kernel⟩

theorem witness_DecFollowsItsRule : ∃ (layout : Layout) (s : State), s.lmem.wf = true ∧ (
      let N := s.arg 1
      let ct := s.memRead (s.arg 0) N
      let d := s.scalar (s.arg 2)
      let x := beNat (slice ct 1 33)
      let y := beNat (slice ct 33 65)
      let C3 := match layout with
        | .c1c3c2 => slice ct 65 97
        | .c1c2c3 => slice ct (N - 32) N
      let C2 := match layout with
        | .c1c3c2 => slice ct 97 N
        | .c1c2c3 => slice ct 65 (N - 32)
      let q := (Point.affine x y).mul d
      let mask := kdfSm3 (beBytes 32 q.x ++ beBytes 32 q.y) (N - 97) []
      let M := List.zipWith (· ^^^ ·) C2 mask
      firstFailed [s.rangeGuard 0 N, s.rangeGuard 2 32, s.rangeGuard 3 (N - 97),
        s.overlapGuard 3 (N - 97) [(s.arg 0, N), (s.arg 2, 32)], lengthGuard (decide (97 < N)),
        { holds := decide (ct.getD 0 0 = 0x04), code := 0x01, detail := 0x02 },
        { holds := decide (x < primeP ∧ y < primeP ∧ y * y % primeP = (x * x * x + curveA * x + curveB) % primeP), code := 0x05, detail := 0x01 },
        privateGuard d,
        { holds := decide ¬(∀ b ∈ mask, b = 0), code := 0x05, detail := 0x02 },
        { holds := decide (sm3Hash (beBytes 32 q.x ++ M ++ beBytes 32 q.y) = C3), code := 0x05, detail := 0x03 }] = none) :=
  ⟨Layout.c1c3c2, decSample, by decide +kernel, by dsimp only; decide +kernel⟩

theorem witness_DecFollowsItsRule_fails : ∃ (layout : Layout) (s : State), s.lmem.wf = true ∧ (
      let N := s.arg 1
      let ct := s.memRead (s.arg 0) N
      let d := s.scalar (s.arg 2)
      let x := beNat (slice ct 1 33)
      let y := beNat (slice ct 33 65)
      let C3 := match layout with
        | .c1c3c2 => slice ct 65 97
        | .c1c2c3 => slice ct (N - 32) N
      let C2 := match layout with
        | .c1c3c2 => slice ct 97 N
        | .c1c2c3 => slice ct 65 (N - 32)
      let q := (Point.affine x y).mul d
      let mask := kdfSm3 (beBytes 32 q.x ++ beBytes 32 q.y) (N - 97) []
      let M := List.zipWith (· ^^^ ·) C2 mask
      firstFailed [s.rangeGuard 0 N, s.rangeGuard 2 32, s.rangeGuard 3 (N - 97),
        s.overlapGuard 3 (N - 97) [(s.arg 0, N), (s.arg 2, 32)], lengthGuard (decide (97 < N)),
        { holds := decide (ct.getD 0 0 = 0x04), code := 0x01, detail := 0x02 },
        { holds := decide (x < primeP ∧ y < primeP ∧ y * y % primeP = (x * x * x + curveA * x + curveB) % primeP), code := 0x05, detail := 0x01 },
        privateGuard d,
        { holds := decide ¬(∀ b ∈ mask, b = 0), code := 0x05, detail := 0x02 },
        { holds := decide (sm3Hash (beBytes 32 q.x ++ M ++ beBytes 32 q.y) = C3), code := 0x05, detail := 0x03 }] =
        some (0x11, 0x00)) :=
  ⟨Layout.c1c3c2, outside, by decide +kernel, by dsimp only; decide +kernel⟩

theorem witness_KeyxFollowsItsRule : ∃ (idA idB : IdSource) (s : State), s.lmem.wf = true ∧ (
      let klen := s.arg 5
      let dA := s.scalar (s.arg 0)
      let PA := s.memRead (s.arg 0 + 32) 64
      let rA := s.scalar (s.arg 0 + 96)
      let RA := s.memRead (s.arg 0 + 128) 64
      let PB := s.memRead (s.arg 0 + 192) 64
      let RB := s.memRead (s.arg 0 + 256) 64
      let bar := fun x : Nat => 2 ^ 127 + x % 2 ^ 127
      let tA := (dA + bar (slotPoint RA).x * rA) % orderN
      let U := ((slotPoint PB).add ((slotPoint RB).mul (bar (slotPoint RB).x))).mul tA
      firstFailed ([s.rangeGuard 0 320] ++ s.idRangeGuards idA 1 2 ++ s.idRangeGuards idB 3 4 ++
        [s.rangeGuard 6 klen, s.overlapGuard 6 klen ([(s.arg 0, 320)] ++ s.idRange idA 1 2 ++ s.idRange idB 3 4)] ++
        s.idLengthGuards idA 2 ++ s.idLengthGuards idB 4 ++ [privateGuard dA] ++ publicGuards PA ++ [privateGuard rA] ++
        publicGuards RA ++ publicGuards PB ++ publicGuards RB ++
        [{ holds := decide (U ≠ .infinity), code := 0x02, detail := 0x04 }]) = none) :=
  ⟨IdSource.defaultId, IdSource.defaultId, keyxSample, by decide +kernel, by dsimp only; decide +kernel⟩

theorem witness_KeyxFollowsItsRule_fails : ∃ (idA idB : IdSource) (s : State), s.lmem.wf = true ∧ (
      let klen := s.arg 5
      let dA := s.scalar (s.arg 0)
      let PA := s.memRead (s.arg 0 + 32) 64
      let rA := s.scalar (s.arg 0 + 96)
      let RA := s.memRead (s.arg 0 + 128) 64
      let PB := s.memRead (s.arg 0 + 192) 64
      let RB := s.memRead (s.arg 0 + 256) 64
      let bar := fun x : Nat => 2 ^ 127 + x % 2 ^ 127
      let tA := (dA + bar (slotPoint RA).x * rA) % orderN
      let U := ((slotPoint PB).add ((slotPoint RB).mul (bar (slotPoint RB).x))).mul tA
      firstFailed ([s.rangeGuard 0 320] ++ s.idRangeGuards idA 1 2 ++ s.idRangeGuards idB 3 4 ++
        [s.rangeGuard 6 klen, s.overlapGuard 6 klen ([(s.arg 0, 320)] ++ s.idRange idA 1 2 ++ s.idRange idB 3 4)] ++
        s.idLengthGuards idA 2 ++ s.idLengthGuards idB 4 ++ [privateGuard dA] ++ publicGuards PA ++ [privateGuard rA] ++
        publicGuards RA ++ publicGuards PB ++ publicGuards RB ++
        [{ holds := decide (U ≠ .infinity), code := 0x02, detail := 0x04 }]) =
        some (0x11, 0x00)) :=
  ⟨IdSource.defaultId, IdSource.defaultId, outside, by decide +kernel, by dsimp only; decide +kernel⟩

theorem witness_EcdhFollowsItsRule : ∃ (s : State), s.lmem.wf = true ∧ (
      let d := s.scalar (s.arg 0)
      let P := s.memRead (s.arg 1) 64
      firstFailed ([s.rangeGuard 0 32, s.rangeGuard 1 64, s.rangeGuard 2 32,
        s.overlapGuard 2 32 [(s.arg 0, 32), (s.arg 1, 64)], privateGuard d] ++ publicGuards P) = none) :=
  ⟨ecdhSample, by decide +kernel, by dsimp only; decide +kernel⟩

theorem witness_EcdhFollowsItsRule_fails : ∃ (s : State), s.lmem.wf = true ∧ (
      let d := s.scalar (s.arg 0)
      let P := s.memRead (s.arg 1) 64
      firstFailed ([s.rangeGuard 0 32, s.rangeGuard 1 64, s.rangeGuard 2 32,
        s.overlapGuard 2 32 [(s.arg 0, 32), (s.arg 1, 64)], privateGuard d] ++ publicGuards P) =
        some (0x11, 0x00)) :=
  ⟨outside, by decide +kernel, by dsimp only; decide +kernel⟩


theorem witness_FsqrtFollowsItsRule : ∃ (f : FieldSel) (s : State), s.lmem.wf = true ∧ (
      let m := modulus f
      let a := s.scalar (s.arg 0)
      let r := a ^ ((m + 1) / 4) % m
      firstFailed [s.rangeGuard 0 32, s.rangeGuard 2 32, s.overlapGuard 2 32 [(s.arg 0, 32)], canonicalGuard m a,
        { holds := decide (r * r % m = a), code := 0x03, detail := 0x02 }] = none) := by
  have h4 : fsqrtSample.scalar (fsqrtSample.arg 0) = 4 := by decide +kernel
  have hr : fsqrtSample.scalar (fsqrtSample.arg 0) ^ ((modulus .fn + 1) / 4) % modulus .fn = orderN - 2 := by
    rw [h4, ← powMod_eq (by decide +kernel)]
    decide +kernel
  have key : firstFailed [fsqrtSample.rangeGuard 0 32, fsqrtSample.rangeGuard 2 32,
      fsqrtSample.overlapGuard 2 32 [(fsqrtSample.arg 0, 32)], canonicalGuard (modulus .fn) (fsqrtSample.scalar (fsqrtSample.arg 0)),
      { holds := decide ((orderN - 2) * (orderN - 2) % modulus .fn = fsqrtSample.scalar (fsqrtSample.arg 0)), code := 0x03,
         detail := 0x02 }] = none := by
    decide +kernel
  refine ⟨.fn, fsqrtSample, by decide +kernel, ?_⟩
  intro m a r
  have h : r = orderN - 2 := hr
  clear_value r
  subst h
  exact key

/-- PDEC of the 65 bytes of G: every check holds. -/
def pdecWideSample : State := sample [0, 65, 960] [(0, beBytes 65 0x0432c4ae2c1f1981195f9904466a39c9948fe30bbff2660be1715a4589334c74c7bc3736a2f4f6779c59bdcee36b692153d0a9877cc62a474002df32e52139f0a0)]
theorem witness_PdecFollowsItsRule : ∃ s : State, s.lmem.wf = true ∧ (
      let w := s.memRead (s.arg 0) (s.arg 1)
      let w0 := w.getD 0 0
      let n := s.arg 1
      let x := beNat (slice w 1 33)
      let y := beNat (slice w 33 65)
      let c := (x * x * x + curveA * x + curveB) % primeP
      let r := c ^ ((primeP + 1) / 4) % primeP
      firstFailed [s.rangeGuard 0 n, s.rangeGuard 2 64, s.overlapGuard 2 64 [(s.arg 0, n)],
        { holds := decide ¬(n = 1 ∧ w0 = 0x00), code := 0x01, detail := 0x04 }, lengthGuard (decide (n = 33 ∨ n = 65)),
        { holds := decide ¬(n = 65 ∧ w0 ≠ 0x04), code := 0x01, detail := 0x02 },
        { holds := decide ¬(n = 33 ∧ w0 ≠ 0x02 ∧ w0 ≠ 0x03), code := 0x01, detail := 0x02 },
        { holds := decide (x < primeP), code := 0x01, detail := 0x03 },
        { holds := decide (n = 65 → y < primeP), code := 0x01, detail := 0x03 },
        { holds := decide (n = 65 → y * y % primeP = c), code := 0x02, detail := 0x02 },
        { holds := decide (n = 33 → r * r % primeP = c), code := 0x02, detail := 0x02 }] = none) :=
  ⟨pdecWideSample, by decide +kernel, by dsimp only; decide +kernel⟩

/-- PJ2A with Z = 0, and a PJ2A with Z ≠ 0 (pj2aSample). -/
theorem witness_Pj2a_at_infinity : left (exec .pj2a (sample [0, 0, 960] [(0, beBytes 64 5)])) 960 64 =
    some (0, 64, false, 0, 0) ∧ pj2aSample.scalar (pj2aSample.arg 0 + 64) = 2 := by decide +kernel

/-- The draw clauses of KEYGEN, SIGN and ENC: a draw that fails and one that does not; for SIGN a pass that ends
(signSample) and one that retries (retrySample); for ENC, with P = 2G and one byte of message, k = 1121 has the mask 00. -/
theorem witness_draws :
    State.nextDraw { keygenSample with entropy := [none] } = none ∧ keygenSample.nextDraw = some 1 ∧
    State.nextDraw { signSample with entropy := [none] } = none ∧ signSample.nextDraw = some 1 ∧
    State.nextDraw { encSample with entropy := [none] } = none ∧ encSample.nextDraw = some 2 := by decide +kernel

def zeroMaskSample : State := sample [0, 1, 2, 926] [(0, [0x68]), (2, beBytes 64 0x56cefd60d7c87c000d58ef57fa73ba4d9c0dfa08c08a7331495c2e1da3f2bd5231b7e7e6cc8189f668535ce0f8eaf1bd6de84c182f6c8e716f780d3a970a23c3)] false 1120
theorem test_enc_retries :
    (match exec (.enc .c1c3c2) zeroMaskSample with
      | .next t => decide (t = zeroMaskSample.afterDraw)
      | _ => false) = true := by decide +kernel

/-- The same mask in DEC is KDF_ZERO, a changed tag is TAG, a wrong prefix byte is BAD_PREFIX (R376). -/
theorem test_dec_errors :
    [left (exec (.dec .c1c3c2) (sample [0, 98, 99, 900] [(0, beBytes 98 0x04c71fb1a69ba6c44768dca701a56966d55a9b88c49ad93359bc8f92a34f0c7f7c005555ab68b744a0f7a2f2e58624a5b84e56e26cd4203c40aa365119ff54d115f01efa82278a75af32398bca2b9371e6ce414ff692e56b027b45fb6c2fb6fc9e68), (99, beBytes 32 2)])) 0 0,
      left (exec (.dec .c1c2c3) decSample) 0 0,
      left (exec (.dec .c1c3c2) (sample [0, 98, 99, 900] [(0, [0x02])])) 0 0] =
    [some (0, 0, false, 0x05, 0x02), some (0, 0, false, 0x05, 0x03), some (0, 0, false, 0x01, 0x02)] := by
  decide +kernel

/-- KDF of the two bytes 01d8: the one output byte is 0, so RESULT is 1 (R370). -/
theorem test_kdf_all_zero : left (exec .kdf (sample [0, 2, 8, 0, 1, 1023] [(0, beBytes 2 472)])) 1023 1 =
    some (0, 1, true, 0, 0) := by decide +kernel

/-- Reserved opcodes at the edges of their ranges, and legal ones with an illegal bit. -/
theorem witness_IllegalWords :
    [0x00#32, 0x0F, 0x1D, 0x1F, 0x27, 0x2F, 0x37, 0x3F, 0x49, 0x4F, 0x59, 0xFF].all (fun w =>
      left (coreStep { State.reset with busy := true, cmdl := w }) 0 0 = some (0, 0, false, 0x10, 0x01)) = true ∧
    [0x00000211#32, 0x00010011, 0x80000020, 0x00000436, 0x00000258].all (fun w =>
      left (coreStep { State.reset with busy := true, cmdl := w }) 0 0 = some (0, 0, false, 0x10, 0x02)) = true := by
  decide +kernel

theorem witness_WellFormedLine : ∃ l : AsmLine, l.wellFormed = true ∧ Suffix.idb ∈ l.suffixes :=
  ⟨{ mnemonic := .keyx, suffixes := [.id, .idb, .resp], args := [(7, 2 ^ 32 - 1)] }, by decide, by decide⟩

theorem witness_StepRuns :
    (∃ s : State, s.schedule = [] ∧ s.busy = true ∧ decode s.cmdl = .ok .sm3init) ∧
    (∃ s : State, s.schedule = [.core] ∧ s.busy = true ∧ decode s.cmdl = .ok .sm3init) ∧
    (∃ s : State, s.schedule = [.core] ∧ s.busy = false) ∧ (∃ s : State, s.schedule = [.host ackAccess]) ∧
    (∃ s : State, s.schedule = [.wait] ∧ s.busy = true) ∧ (∃ s : State, s.schedule = [.wait] ∧ s.busy = false) :=
  ⟨⟨{ State.reset with busy := true, cmdl := 0x20 }, by decide +kernel⟩,
    ⟨{ State.reset with busy := true, cmdl := 0x20, schedule := [.core] }, by decide +kernel⟩,
    ⟨{ State.reset with schedule := [.core] }, by decide +kernel⟩,
    ⟨{ State.reset with schedule := [.host ackAccess] }, by decide +kernel⟩,
    ⟨{ State.reset with schedule := [.wait], busy := true }, by decide +kernel⟩,
    ⟨{ State.reset with schedule := [.wait] }, by decide +kernel⟩⟩

/-- R152: `run` is the command's accesses and then `wait`, whose poll of STATUS comes again after a turn of the core while it
reads BUSY = 1, and is over when it reads BUSY = 0. -/
theorem test_wait_polls :
    runMoves { mnemonic := .feq, suffixes := [.n], args := [(1, 7)] } =
      [.host (.write 0x044 .w32 7), .host (.write 0x020 .w32 0x11B), .wait] ∧
    (match step { State.reset with schedule := [.wait], busy := true } with
      | .next t => some (t.schedule, t.response)
      | _ => none) = some ([.core, .wait], some (.data 1)) ∧
    (match step { State.reset with schedule := [.wait], result := true } with
      | .next t => some (t.schedule, t.response)
      | _ => none) = some ([], some (.data 4)) := by decide +kernel

/-- ErrorCompletionsArePrecise: a state with ERROR = 0 from which a command ends in an error, and a draw's error. -/
theorem witness_ErrorCompletions :
    outside.error = false ∧ left (exec (.fadd .fp) outside) 0 0 = some (0, 0, false, 0x11, 0x00) ∧
    left (exec .keygen { keygenSample with entropy := [none] }) 0 0 = some (0, 0, false, 0x07, 0x01) := by decide +kernel

/-- OnlySignAndEncRetry: a busy state from which SIGN answers a state still busy. -/
theorem witness_Retry : ∃ s t : State, s.busy = true ∧ exec (.sign .digest .defaultId) s = .next t ∧ t.busy = true :=
  ⟨retrySample, retrySample.afterDraw, by decide +kernel, by
    have h := test_sign_retries
    revert h
    cases exec (.sign .digest .defaultId) retrySample <;> simp, by decide +kernel⟩

/-- KeyStateAndHashContextHaveTheirWriters, InterruptSources: steps that change RK, the SM3 context, DONE and OVR. -/
theorem witness_Writers :
    keySample.schedule = [] ∧ outside.LockedWrite 0x020 .w32 ∧ outside.LockedWrite 0x11C .w32 ∧ outside.LockedWrite 0x10000 .w32 ∧
    outside.LockedWrite 0x103FF .w8 ∧ ¬outside.LockedWrite 0x120 .w32 ∧ ¬outside.LockedWrite 0x10400 .w8 ∧
    (match step { keySample with cmdl := 0x30 } with
      | .next t => decide (t.rk ≠ keySample.rk ∧ keySample.intDone = false ∧ t.intDone = true ∧ t.busy = false)
      | _ => false) = true ∧
    (match step { State.reset with schedule := [.host (.write 0x11C .w32 7)] } with
      | .next t => decide (t.sm3 ≠ State.reset.sm3)
      | _ => false) = true ∧
    (match step { outside with schedule := [.host (.write 0x103FF .w8 7)] } with
      | .next t => decide (t.intOvr = true ∧ outside.intOvr = false)
      | _ => false) = true := by decide +kernel

/-- CommandsChangeOnlyTheirOutput: a command with an output range, and one without. -/
theorem witness_Output : faddSample.lmemSize ≤ 65536 ∧ outputArg (.fadd .fp) = some 2 ∧ faddSample.arg 2 = 992 ∧
    outputArg .sm3cf = none := by decide +kernel

/-- StepKeepsTheStateLegal and PowerOnIsLegal: legal states at both ends of the range of sizes, and a step from one. -/
theorem witness_Legal :
    (State.powerOn 1024 [(1023, 1)]).Legal ∧ (State.powerOn 65536 [(0, 1), (65535, 255)]).Legal ∧
    (∃ t, step State.reset = .next t) :=
  ⟨by decide +kernel, by decide +kernel, State.reset, rfl⟩

/-- The host statements: an idle state, a busy one, and accesses at both ends of the LMEM window, of the CSR map and past
them. -/
theorem witness_HostAccess :
    State.reset.busy = false ∧ outside.busy = true ∧ outside.lmem.wf = true ∧
    outside.Accessible 0x103FC .w32 ∧ outside.Accessible 0x103FF .w8 ∧ ¬outside.Accessible 0x10400 .w8 ∧
    ¬outside.Accessible 0x103FE .w32 ∧ outside.Accessible 0x128 .w32 ∧ ¬outside.Accessible 0x12C .w32 ∧
    ¬outside.Accessible 0x128 .w8 ∧ (1023 < outside.lmemSize ∧ 1023 % Width.w8.bytes = 0) ∧
    (1020 < outside.lmemSize ∧ 1020 % Width.w32.bytes = 0) := by decide +kernel

/-- CTRL values with bit 0 = 1 and with bit 0 = 0. -/
theorem witness_SoftReset : (0xFFFFFFFF#32).getLsbD 0 = true ∧ (0xFFFFFFFE#32).getLsbD 0 = false := by decide

/-- The SM3 and SM4 statements: a context one byte short of a block, strings that stay below and reach 64 bytes, a split
message, blocks of their lengths. -/
theorem witness_Strings :
    (List.replicate 63 (0 : Byte)).length < 64 ∧ (List.replicate 63 (0 : Byte) ++ []).length < 64 ∧
    64 ≤ (List.replicate 63 (0 : Byte) ++ [1]).length ∧ 8 * [[0x61], [0x62, 0x63]].flatten.length < 2 ^ 64 ∧
    (List.replicate 64 (0 : Byte)).length = 64 ∧ (List.replicate 16 (0 : Byte)).length = 16 ∧
    (List.replicate 32 (0 : Byte)).length = 16 * 2 := by decide

/-- Valid points for each clause of the group law (G and 2G, G and −G, G and G), and the largest scalar. -/
theorem witness_Points :
    basePoint.Valid ∧ (basePoint.add basePoint).Valid ∧ basePoint.neg.Valid ∧ (basePoint.add basePoint).x ≠ baseX ∧
    (baseY + (primeP - baseY)) % primeP = 0 ∧ (baseY + baseY) % primeP ≠ 0 ∧ 2 ^ 256 - 1 < 2 ^ 256 := by
  refine ⟨basePoint_valid, Point.add_valid basePoint_valid basePoint_valid, ?_, by decide +kernel⟩
  show (Point.affine baseX ((primeP - baseY) % primeP)).Valid
  exact ⟨by decide +kernel, by decide +kernel, by decide +kernel⟩

/-- SignaturesVerify and CiphertextsDecrypt: one pass of SIGN's loop and of ENC's that end; KeyAgreementsAgree: keys. -/
theorem witness_Protocols :
    (signAttempt 1 0xb9e036c07be7c1df36f69e63504da93b25f477601dc566253c0af43663583f84 2).isSome = true ∧ (encAttempt .c1c3c2 [0x68, 0x69] (basePoint.mul 2) 3).isSome = true ∧
    1 < orderN - 1 ∧ 3 < orderN := by decide +kernel

end Sys2Proof.Tests
end

section
/-! SUPPORT. How many bytes the commands with data-dependent outputs produce. -/

namespace Sys2Proof.Machine

theorem slice_length (s : List Byte) (i j : Nat) : (slice s i j).length = min (j - i) (s.length - i) := by
  simp [slice]

theorem prefixProducts_length (m acc : Nat) (as : List Nat) : (prefixProducts m acc as).length = as.length := by
  induction as generalizing acc with
  | nil => rfl
  | cons a as ih => simp [prefixProducts, ih]

theorem foldBack_length (m u : Nat) (acs : List (Nat × Nat)) : (foldBack m u acs).length = acs.length := by
  induction acs generalizing u with
  | nil => rfl
  | cons ac acs ih => simp [foldBack, ih]

@[simp] theorem batchInverse_length (m : Nat) (as : List Nat) : (batchInverse m as).length = as.length := by
  simp [batchInverse, foldBack_length, prefixProducts_length]

theorem canonicals_length {s : State} {m addr k : Nat} {as : List Nat} (h : s.canonicals m addr k = .ok as) :
    as.length = k := by
  induction k generalizing addr as with
  | zero => cases h; rfl
  | succ k ih =>
    rw [State.canonicals] at h
    cases ha : s.canonical m addr with
    | error e => rw [ha] at h; cases h
    | ok a =>
      cases hr : s.canonicals m (addr + 32) k with
      | error e => rw [ha, hr] at h; cases h
      | ok rest => rw [ha, hr] at h; cases h; simp [ih hr]

@[simp] theorem memRead_length (s : State) (addr n : Nat) : (s.memRead addr n).length = n :=
  Memory.readBytes_length _ _ _

/-- ECB keeps the whole blocks of its data (42_sm4.md R287). -/
theorem sm4Ecb_length {f : List Byte → List Byte} (hf : ∀ b, (f b).length = 16) (d : List Byte) :
    (sm4Ecb f d).length = 16 * (d.length / 16) := by
  simp [sm4Ecb, hf, mul_comm]

theorem sm4CbcEncBlocks_length (rk : Vector Word 32) (prev : List Byte) (bs : List (List Byte)) :
    (sm4CbcEncBlocks rk prev bs).length = 16 * bs.length := by
  induction bs generalizing prev with
  | nil => rfl
  | cons b bs ih => simp [sm4CbcEncBlocks, ih]; ring

theorem sm4CbcDecBlocks_length_le (rk : Vector Word 32) (prev : List Byte) (cs : List (List Byte)) :
    (sm4CbcDecBlocks rk prev cs).length ≤ 16 * cs.length := by
  induction cs generalizing prev with
  | nil => exact le_rfl
  | cons c cs ih =>
    have := ih c
    simp [sm4CbcDecBlocks]
    omega

theorem sm4CbcEnc_length (rk : Vector Word 32) (iv d : List Byte) :
    (sm4CbcEnc rk iv d).length = 16 * (d.length / 16) := by
  simp [sm4CbcEnc, sm4CbcEncBlocks_length]

theorem sm4CbcDec_length_le (rk : Vector Word 32) (iv d : List Byte) :
    (sm4CbcDec rk iv d).length ≤ 16 * (d.length / 16) := by
  simpa [sm4CbcDec] using sm4CbcDecBlocks_length_le rk iv (blocks 16 (d.length / 16) d)

/-- An encryption works on as many bytes as it reserves (42_sm4.md R285, R288). -/
theorem sm4PadData_length (pad : Padding) (d : List Byte) :
    (sm4PadData pad d).length = sm4EncReserved pad d.length := by
  cases pad with
  | unpadded => rfl
  | pkcs7 =>
    simp [sm4PadData, sm4EncReserved, pad7]
    omega

/-- Unpadding does not lengthen (42_sm4.md R285). -/
theorem sm4Unpadded_length_le {pad : Padding} {p d : List Byte} (h : sm4Unpadded pad p = .ok d) :
    d.length ≤ p.length := by
  cases pad with
  | unpadded => cases h; exact le_rfl
  | pkcs7 =>
    simp only [sm4Unpadded, unpad7] at h
    split at h
    · rename_i hd
      split at hd
      · cases hd
      · cases hd; cases h; simp
    · cases h

/-- The wire form of a point has the length PENC reserves (43_ec_point.md R327, R337). -/
theorem encodeWire_length {form : PointForm} {p : Point} {w : List Byte} (h : encodeWire form p = .ok w) :
    w.length = wireLength form := by
  cases p with
  | infinity => cases h
  | affine x y => cases form <;> cases h <;> simp [wireLength]

/-- A ciphertext is 97 bytes longer than its message (44_sm2_protocols.md R366, R375). -/
theorem encAttempt_length {layout : Layout} {m c : List Byte} {p : Point} {k : Nat}
    (h : encAttempt layout m p k = some c) : c.length = 97 + m.length := by
  simp only [encAttempt] at h
  split at h
  · cases h
  · cases h
    cases layout <;> simp [joinCiphertext, ciphertextMask, ciphertextTag] <;> omega

/-- C2 is what C1 and C3 leave of a ciphertext (44_sm2_protocols.md R376). -/
theorem splitCiphertext_length (layout : Layout) (ct : List Byte) :
    (splitCiphertext layout ct).2.length = ct.length - 97 := by
  cases layout with
  | c1c3c2 => simp [splitCiphertext]
  | c1c2c3 =>
    simp [splitCiphertext, slice_length]
    omega

/-- A decrypted message is 97 bytes shorter than its ciphertext (44_sm2_protocols.md R376). -/
theorem decryptMessage_length {layout : Layout} {ct m : List Byte} {c1 : Point} {d : Nat}
    (h : decryptMessage layout ct c1 d = .ok m) : m.length = ct.length - 97 := by
  simp only [decryptMessage] at h
  split at h
  · cases h
  · split at h
    · cases h
    · cases h
      simp [ciphertextMask, splitCiphertext_length]

end Sys2Proof.Machine
end

section
/-! SUPPORT. What every command stages fits the state it runs in: one lemma per kind of check, then one per command,
then one for `exec`. -/

namespace Sys2Proof.Machine

/-- The staged effects `e` keep the state they complete in legal: every staged write lies in LMEM (20_memory.md R103),
OUTLEN is at most `LMEM_SIZE`, and a legal SM3 context stays one (10_state.md R64). -/
structure State.Fits (s : State) (e : Effects) : Prop where
  writes : ∀ w ∈ e.writes, w.1 + w.2.length ≤ s.lmemSize
  outlen : e.outlen ≤ s.lmemSize
  sm3 : s.sm3.Legal → (e.sm3.getD s.sm3).Legal

/-- Effects that fit a state fit it after a draw, which changes none of the core's fields (60_exceptions.md R420). -/
theorem State.Fits.afterDraw {s : State} {e : Effects} (h : s.Fits e) : s.afterDraw.Fits e :=
  ⟨h.writes, h.outlen, h.sm3⟩

theorem fits_written {s : State} {i : Fin 8} {len : Nat} {v : List Byte} {r : Bool} (hr : s.InRange i len)
    (hv : v.length ≤ len) : s.Fits (written (s.arg i) v r) where
  writes := by
    simp only [written, List.forall_mem_singleton]
    omega
  outlen := by
    simp only [written]
    omega
  sm3 := id

theorem fits_verdict (s : State) (r : Bool) : s.Fits (verdict r) := ⟨by simp [verdict], Nat.zero_le _, id⟩

/-- A command that changes the SM3 context alone. -/
theorem fits_context {s : State} {c : Sm3Context} (h : s.sm3.Legal → c.Legal) : s.Fits { sm3 := some c } :=
  ⟨by simp, Nat.zero_le _, h⟩

theorem iv_legal : Sm3Context.iv.Legal := by decide

/-- Absorbing a string counts its bytes in BITLEN and keeps the rest of the last block in BUF (41_sm3.md R246). -/
theorem absorb_legal {c : Sm3Context} {m : List Byte} (hc : c.Legal) (hm : c.bitlen.toNat + 8 * m.length < 2 ^ 64) :
    (c.absorb m).Legal := by
  obtain ⟨hbits, hbuf⟩ := hc
  have hlen : (c.absorb m).bitlen.toNat = c.bitlen.toNat + 8 * m.length := by
    simp only [Sm3Context.absorb, BitVec.toNat_add, BitVec.toNat_ofNat, Nat.add_mod_mod]
    exact Nat.mod_eq_of_lt hm
  have hrest : (c.absorb m).buf.length = (c.buf.length + m.length) % 64 := by
    simp only [Sm3Context.absorb, List.length_drop, List.length_append]
    omega
  rw [Sm3Context.Legal, hlen, hrest]
  omega

/-- A range that CheckRange passes lies in LMEM (20_memory.md R103). -/
theorem inRange_of_checkRange {s : State} {i : Fin 8} {len : Nat} {u : Unit} (h : s.checkRange i len = .ok u) :
    s.InRange i len := by
  by_contra hn
  rw [checkRange_error hn] at h
  cases h

/-- What a computation of a command gives, if it gives a value, satisfies `P`. -/
def Ensures {α : Type} (x : Check α) (P : α → Prop) : Prop := ∀ a, x = .ok a → P a

section
variable {α β : Type} {s : State} {x : Check β} {k : β → Check α} {P : α → Prop}

/-- A check whose value is used later. -/
theorem Ensures.value (h : ∀ b, x = .ok b → Ensures (k b) P) : Ensures (x >>= k) P := by
  cases x with
  | ok b => exact h b rfl
  | error e => exact fun a ha => by cases ha

/-- A check that does not matter later. -/
theorem Ensures.skip (h : ∀ b, Ensures (k b) P) : Ensures (x >>= k) P := .value fun b _ => h b

theorem Ensures.require {c : Bool} {e : CmdError} {k : Unit → Check α} (h : c = true → Ensures (k ()) P) :
    Ensures (require c e >>= k) P := by
  cases c with
  | true => exact h rfl
  | false => exact fun a ha => by cases ha

/-- CheckRange (20_memory.md R103). -/
theorem Ensures.range {i : Fin 8} {len : Nat} {k : Unit → Check α} (h : s.InRange i len → Ensures (k ()) P) :
    Ensures (s.checkRange i len >>= k) P :=
  .value fun _ hc => h (inRange_of_checkRange hc)

theorem Ensures.done {a : α} (h : P a) : Ensures (.ok a) P := by
  rintro _ ⟨⟩
  exact h

/-- `MemWrite(A[i], |v|, v) ; finish(result, |v|)` in a range that was checked. -/
theorem Ensures.written {i : Fin 8} {len : Nat} {v : List Byte} {r : Bool} (hr : s.InRange i len)
    (hv : v.length ≤ len) : Ensures (.ok (written (s.arg i) v r)) s.Fits :=
  .done (fits_written hr hv)

theorem Ensures.verdict {r : Bool} : Ensures (.ok (verdict r)) s.Fits := .done (fits_verdict s r)

end

/-- How a command that runs in `s` leaves it: by effects that fit, by an error completion, either of them after a draw,
or by using up a draw to retry (30_encoding.md R143, 60_exceptions.md R402, R420, R421). -/
inductive Ends (s : State) : Host.Outcome State Fault Refusal → Prop
  | finish {e : Effects} (h : s.Fits e) : Ends s (.next (s.finish e))
  | raise (e : CmdError) : Ends s (.next (s.raise e))
  | finishDrawn {e : Effects} (h : s.Fits e) : Ends s (.next (s.afterDraw.finish e))
  | entropyFail : Ends s (.next (s.afterDraw.raise .entropyFail))
  | retry : Ends s (.next s.afterDraw)

theorem Ends.complete {s : State} {c : Check Effects} (h : Ensures c s.Fits) : Ends s (s.complete c) := by
  cases c with
  | ok e => exact .finish (h e rfl)
  | error e => exact .raise e

theorem Ends.completeWithDraw {α : Type} {s : State} {ready : Check α} {attempt : α → Nat → Option Effects}
    (h : Ensures ready fun x => ∀ k e, attempt x k = some e → s.Fits e) :
    Ends s (s.completeWithDraw ready attempt) := by
  cases ready with
  | error e => exact .raise e
  | ok x =>
    simp only [State.completeWithDraw]
    split
    · exact .entropyFail
    · split
      · rename_i e he
        exact .finishDrawn (h x rfl _ e he)
      · exact .retry

section
variable (s : State)

/-! ### Modular arithmetic -/

theorem fieldBinary_fits (f : FieldSel) (op : Nat → Nat → Nat → Nat) : Ensures (fieldBinary f op s) s.Fits :=
  .skip fun _ => .skip fun _ => .range fun hr => .skip fun _ => .skip fun _ => .skip fun _ => .written hr (by simp)

theorem fieldUnary_fits (f : FieldSel) (op : Nat → Nat → Check Nat) : Ensures (fieldUnary f op s) s.Fits :=
  .skip fun _ => .range fun hr => .skip fun _ => .skip fun _ => .skip fun _ => .written hr (by simp)

theorem fieldPredicate_fits (f : FieldSel) (p : Nat → Bool) : Ensures (fieldPredicate f p s) s.Fits :=
  .skip fun _ => .skip fun _ => .verdict

theorem execFred_ends (f : FieldSel) : Ends s (execFred f s) :=
  .complete <| .skip fun _ => .range fun hr => .skip fun _ => .skip fun _ => .written hr (by simp)

theorem execFpow_ends (f : FieldSel) : Ends s (execFpow f s) :=
  .complete <| .skip fun _ => .skip fun _ => .range fun hr => .skip fun _ => .skip fun _ => .written hr (by simp)

theorem execFeq_ends (f : FieldSel) : Ends s (execFeq f s) :=
  .complete <| .skip fun _ => .skip fun _ => .skip fun _ => .skip fun _ => .verdict

theorem execFbinv_ends (f : FieldSel) : Ends s (execFbinv f s) :=
  .complete <| .skip fun _ => .range fun hr => .skip fun _ => .value fun as has => .skip fun _ =>
    .written hr (by simp [canonicals_length has, mul_comm])

/-! ### Points -/

theorem pointUnary_fits (op : Point → Point) : Ensures (pointUnary op s) s.Fits :=
  .skip fun _ => .range fun hr => .skip fun _ => .skip fun _ => .written hr (by simp)

theorem execPvalid_ends : Ends s (execPvalid s) := .complete <| .skip fun _ => .verdict

theorem execPadd_ends : Ends s (execPadd s) :=
  .complete <| .skip fun _ => .skip fun _ => .range fun hr => .skip fun _ => .skip fun _ => .skip fun _ =>
    .written hr (by simp)

theorem execPmul_ends : Ends s (execPmul s) :=
  .complete <| .skip fun _ => .skip fun _ => .range fun hr => .skip fun _ => .skip fun _ => .written hr (by simp)

theorem execPmulg_ends : Ends s (execPmulg s) :=
  .complete <| .skip fun _ => .range fun hr => .skip fun _ => .written hr (by simp)

theorem execPj2a_ends : Ends s (execPj2a s) :=
  .complete <| .skip fun _ => .range fun hr => .skip fun _ => .skip fun _ => .skip fun _ => .skip fun _ =>
    .written hr (by simp)

theorem execPenc_ends (form : PointForm) : Ends s (execPenc form s) :=
  .complete <| .skip fun _ => .range fun hr => .skip fun _ => .skip fun _ => .value fun _ he =>
    .written hr (encodeWire_length he).le

theorem execPdec_ends : Ends s (execPdec s) :=
  .complete <| .skip fun _ => .range fun hr => .skip fun _ => .skip fun _ => .written hr (by simp)

/-! ### SM3 -/

theorem execSm3init_ends : Ends s (execSm3init s) := .complete <| .done <| fits_context fun _ => iv_legal

theorem execSm3upd_ends : Ends s (execSm3upd s) :=
  .complete <| .skip fun _ => .require fun hlen => .done <| fits_context fun hc =>
    absorb_legal hc (by simpa using hlen)

theorem execSm3fin_ends : Ends s (execSm3fin s) :=
  .complete <| .range fun hr => .done <|
    have h : s.Fits (written (s.arg 0) s.sm3.final) := fits_written hr (by simp)
    { writes := h.writes, outlen := h.outlen, sm3 := fun _ => iv_legal }

theorem execSm3cf_ends : Ends s (execSm3cf s) := .complete <| .skip fun _ => .done <| fits_context id

theorem execSm3hash_ends : Ends s (execSm3hash s) :=
  .complete <| .skip fun _ => .range fun hr => .skip fun _ => .written hr (by simp)

theorem execHmac_ends : Ends s (execHmac s) :=
  .complete <| .skip fun _ => .skip fun _ => .range fun hr => .skip fun _ => .written hr (by simp)

theorem execHkdf_ends : Ends s (execHkdf s) :=
  .complete <| .skip fun _ => .skip fun _ => .skip fun _ => .range fun hr => .skip fun _ => .skip fun _ =>
    .written hr (by simp)

/-! ### SM4 -/

/-- The destination of an ECB command was checked for the length it reserves (42_sm4.md R293). -/
theorem sm4EcbChecks_inRange {s : State} {r : Nat} {ok : Bool} {u : Unit} (h : sm4EcbChecks r ok s = .ok u) :
    s.InRange 2 r := by
  have range : Ensures (sm4EcbChecks r ok s) fun _ => s.InRange 2 r :=
    .skip fun _ => .skip fun _ => .range fun hr => .skip fun _ _ _ => hr
  exact range u h

/-- The same for a CBC command (42_sm4.md R295). -/
theorem sm4CbcChecks_inRange {s : State} {r : Nat} {ok : Bool} {u : Unit} (h : sm4CbcChecks r ok s = .ok u) :
    s.InRange 2 r := by
  have range : Ensures (sm4CbcChecks r ok s) fun _ => s.InRange 2 r :=
    .skip fun _ => .skip fun _ => .range fun hr => .skip fun _ => .skip fun _ _ _ => hr
  exact range u h

theorem sm4OneBlock_fits {f : List Byte → List Byte} (hf : ∀ b, (f b).length = 16) :
    Ensures (sm4OneBlock f s) s.Fits :=
  .skip fun _ => .skip fun _ => .range fun hr => .skip fun _ => .written hr (hf _).le

theorem execSm4key_ends : Ends s (execSm4key s) :=
  .complete <| .skip fun _ => .done ⟨by simp, Nat.zero_le _, id⟩

theorem execSm4ecbe_ends (pad : Padding) : Ends s (execSm4ecbe pad s) :=
  .complete <| .value fun _ hc => .written (sm4EcbChecks_inRange hc) (by
    simp only [sm4Ecb_length (sm4Enc_length s.rk), sm4PadData_length, memRead_length]
    omega)

theorem execSm4ecbd_ends (pad : Padding) : Ends s (execSm4ecbd pad s) :=
  .complete <| .value fun _ hc => .value fun _ hp => .written (sm4EcbChecks_inRange hc) (by
    have := sm4Unpadded_length_le hp
    simp only [sm4Ecb_length (sm4Dec_length s.rk), memRead_length] at this
    omega)

theorem execSm4cbce_ends (pad : Padding) : Ends s (execSm4cbce pad s) :=
  .complete <| .value fun _ hc => .written (sm4CbcChecks_inRange hc) (by
    simp only [sm4CbcEnc_length, sm4PadData_length, memRead_length]
    omega)

theorem execSm4cbcd_ends (pad : Padding) : Ends s (execSm4cbcd pad s) :=
  .complete <| .value fun _ hc => .value fun _ hp => .written (sm4CbcChecks_inRange hc) (by
    have hd := sm4CbcDec_length_le s.rk (s.memRead (s.arg 3) 16) (s.memRead (s.arg 0) (s.arg 1))
    have := sm4Unpadded_length_le hp
    rw [memRead_length] at hd
    omega)

/-! ### SM2 -/

theorem execKdf_ends : Ends s (execKdf s) :=
  .complete <| .skip fun _ => .skip fun _ => .range fun hr => .skip fun _ => .written hr (by simp)

theorem execZval_ends (id : IdSource) : Ends s (execZval id s) :=
  .complete <| .skip fun _ => .skip fun _ => .range fun hr => .skip fun _ => .skip fun _ => .skip fun _ =>
    .written hr (by simp)

theorem execKeygen_ends : Ends s (execKeygen s) :=
  .completeWithDraw fun _ hc _ _ he => by
    cases he
    exact fits_written (inRange_of_checkRange hc) (by simp)

theorem signChecks_inRange (msg : MsgForm) (id : IdSource) : Ensures (signChecks msg id s) fun _ => s.InRange 5 64 :=
  .skip fun _ => .skip fun _ => .skip fun _ => .range fun hr => .skip fun _ => .skip fun _ => .skip fun _ =>
    .skip fun _ => .skip fun _ => .done hr

theorem execSign_ends (msg : MsgForm) (id : IdSource) : Ends s (execSign msg id s) :=
  .completeWithDraw fun de hc _ _ he => by
    obtain ⟨rs, -, rfl⟩ := Option.map_eq_some_iff.1 he
    exact fits_written (signChecks_inRange s msg id de hc) (by simp)

theorem execVerify_ends (msg : MsgForm) (id : IdSource) : Ends s (execVerify msg id s) :=
  .complete <| .skip fun _ => .skip fun _ => .skip fun _ => .skip fun _ => .skip fun _ => .skip fun _ =>
    .skip fun _ => .verdict

theorem encChecks_inRange : Ensures (encChecks s) fun _ => s.InRange 3 (97 + s.arg 1) :=
  .skip fun _ => .skip fun _ => .range fun hr => .skip fun _ => .skip fun _ _ _ => hr

theorem execEnc_ends (layout : Layout) : Ends s (execEnc layout s) :=
  .completeWithDraw fun p hc _ _ he => by
    obtain ⟨c, hc', rfl⟩ := Option.map_eq_some_iff.1 he
    exact fits_written (encChecks_inRange s p hc) (by simp [encAttempt_length hc'])

theorem execDec_ends (layout : Layout) : Ends s (execDec layout s) :=
  .complete <| .skip fun _ => .skip fun _ => .range fun hr => .skip fun _ => .skip fun _ => .skip fun _ =>
    .skip fun _ => .skip fun _ => .value fun _ hm => .written hr (by simp [decryptMessage_length hm])

theorem execKeyx_ends (idA idB : IdSource) (role : Role) : Ends s (execKeyx idA idB role s) :=
  .complete <| .skip fun _ => .skip fun _ => .skip fun _ => .range fun hr => .skip fun _ => .skip fun _ =>
    .skip fun _ => .skip fun _ => .skip fun _ => .skip fun _ => .skip fun _ => .skip fun _ => .skip fun _ =>
    .skip fun _ => .written hr (by simp [sharedKey])

theorem execEcdh_ends : Ends s (execEcdh s) :=
  .complete <| .skip fun _ => .skip fun _ => .range fun hr => .skip fun _ => .skip fun _ => .skip fun _ =>
    .written hr (by simp)

/-- Every command ends in one of the ways of `Ends`. -/
theorem exec_ends (i : Instr) : Ends s (exec i s) :=
  match i with
  | .fred f => execFred_ends s f
  | .fadd f | .fsub f | .fmul f => .complete (fieldBinary_fits s f _)
  | .fsqr f | .fneg f | .finv f | .fsqrt f => .complete (fieldUnary_fits s f _)
  | .fpow f => execFpow_ends s f
  | .fiszero f | .fisodd f => .complete (fieldPredicate_fits s f _)
  | .feq f => execFeq_ends s f
  | .fbinv f => execFbinv_ends s f
  | .sm3init => execSm3init_ends s
  | .sm3upd => execSm3upd_ends s
  | .sm3fin => execSm3fin_ends s
  | .sm3cf => execSm3cf_ends s
  | .sm3hash => execSm3hash_ends s
  | .hmac => execHmac_ends s
  | .hkdf => execHkdf_ends s
  | .sm4key => execSm4key_ends s
  | .sm4eblk => .complete (sm4OneBlock_fits s (sm4Enc_length s.rk))
  | .sm4dblk => .complete (sm4OneBlock_fits s (sm4Dec_length s.rk))
  | .sm4ecbe pad => execSm4ecbe_ends s pad
  | .sm4ecbd pad => execSm4ecbd_ends s pad
  | .sm4cbce pad => execSm4cbce_ends s pad
  | .sm4cbcd pad => execSm4cbcd_ends s pad
  | .pvalid => execPvalid_ends s
  | .padd => execPadd_ends s
  | .pdbl | .pneg => .complete (pointUnary_fits s _)
  | .pmul => execPmul_ends s
  | .pmulg => execPmulg_ends s
  | .pj2a => execPj2a_ends s
  | .penc form => execPenc_ends s form
  | .pdec => execPdec_ends s
  | .kdf => execKdf_ends s
  | .zval id => execZval_ends s id
  | .keygen => execKeygen_ends s
  | .sign msg id => execSign_ends s msg id
  | .verify msg id => execVerify_ends s msg id
  | .enc layout => execEnc_ends s layout
  | .dec layout => execDec_ends s layout
  | .keyx idA idB role => execKeyx_ends s idA idB role
  | .ecdh => execEcdh_ends s

end

end Sys2Proof.Machine
end

section
/-! SUPPORT. Legal states: each way the core or the host changes the state keeps it legal. -/

namespace Sys2Proof.Machine

theorem Memory.applyWrites_within {m : Memory} {size : Nat} {ws : List (Nat × List Byte)}
    (h : m.within size = true) (hw : ∀ w ∈ ws, w.1 + w.2.length ≤ size) : (m.applyWrites ws).within size = true := by
  induction ws generalizing m with
  | nil => exact h
  | cons w ws ih =>
    obtain ⟨hfirst, hrest⟩ := List.forall_mem_cons.1 hw
    exact ih (Memory.writeBytes_within h hfirst) hrest

/-- Every error a command can end with is one of the table (60_exceptions.md R400). -/
theorem code_detail_reported (e : CmdError) : (e.code, e.detail) ∈ reportedErrors := by
  cases e with
  | addressRange i => revert i; decide
  | overlap i => revert i; decide
  | _ => decide

section
variable {s t : State}

theorem raise_legal (e : CmdError) (hs : s.Legal) : (s.raise e).Legal := by
  obtain ⟨hsize, hmem, hsm3, hkeys, -, -, -⟩ := hs
  exact ⟨hsize, hmem, hsm3, hkeys, nofun, ⟨code_detail_reported e, rfl, rfl⟩, Nat.zero_le _⟩

/-- Only a running command completes, and its launch has cleared the report (70_reset_and_hazards.md R461). -/
theorem finish_legal {e : Effects} (hs : s.Legal) (hb : s.busy = true) (he : s.Fits e) : (s.finish e).Legal := by
  obtain ⟨hsize, ⟨hwf, hwithin⟩, hsm3, hkeys, hbusy, hreport, -⟩ := hs
  refine ⟨hsize, ⟨Memory.applyWrites_wf _ hwf, Memory.applyWrites_within hwithin he.writes⟩, he.sm3 hsm3, ?keys, nofun,
    ?report, ?outlen⟩
  case keys =>
    intro hk
    simp only [State.finish_keyv, Bool.or_eq_false_iff, Option.isSome_eq_false_iff, Option.isNone_iff_eq_none] at hk
    simpa [hk.2] using hkeys hk.1
  case report =>
    simpa [State.ReportLegal, (hbusy hb).1] using hreport
  case outlen =>
    rw [State.finish_outlen, BitVec.toNat_ofNat]
    exact (Nat.mod_le _ _).trans he.outlen

theorem launch_legal (w : Word) (hs : s.Legal) : (s.launch w).Legal := by
  obtain ⟨hsize, hmem, hsm3, hkeys, -, -, -⟩ := hs
  exact ⟨hsize, hmem, hsm3, hkeys, fun _ => ⟨rfl, rfl, rfl⟩, ⟨rfl, rfl⟩, Nat.zero_le _⟩

theorem softReset_legal (hs : s.Legal) : s.softReset.Legal := by
  obtain ⟨hsize, hmem, -, -, -, -, -⟩ := hs
  exact ⟨hsize, hmem, iv_legal, fun _ => rfl, nofun, ⟨rfl, rfl⟩, Nat.zero_le _⟩

/-- An idle write to LMEM inside the window. -/
theorem writeLmem_legal {addr : Nat} {bs : List Byte} (hs : s.Legal) (hb : addr + bs.length ≤ s.lmemSize) :
    State.Legal { s with lmem := s.lmem.writeBytes addr bs } := by
  obtain ⟨hsize, ⟨hwf, hwithin⟩, hrest⟩ := hs
  exact ⟨hsize, ⟨Memory.writeBytes_wf _ _ hwf, Memory.writeBytes_within hwithin hb⟩, hrest⟩

/-- Every way a command ends keeps the state legal, a retry by leaving all but the draw as it is. -/
theorem Ends.legal {o : Host.Outcome State Fault Refusal} (h : Ends s o) (hs : s.Legal) (hb : s.busy = true)
    (ht : o = .next t) : t.Legal := by
  have hd : s.afterDraw.Legal := hs
  cases h with
  | finish he => cases ht; exact finish_legal hs hb he
  | raise e => cases ht; exact raise_legal e hs
  | finishDrawn he => cases ht; exact finish_legal hd hb he.afterDraw
  | entropyFail => cases ht; exact raise_legal _ hd
  | retry => cases ht; exact hd

theorem coreStep_legal (hs : s.Legal) (h : coreStep s = .next t) : t.Legal := by
  rw [coreStep] at h
  split at h
  · rename_i hb
    split at h
    · rename_i i _
      exact (exec_ends s i).legal hs hb h
    · cases h
      exact raise_legal _ hs
  · cases h
    exact hs

theorem writeCsr_legal {off : Nat} {v : Word} (hs : s.Legal) (h : s.writeCsr off v = some t) : t.Legal := by
  simp only [State.writeCsr] at h
  split_ifs at h <;> cases h
  · exact softReset_legal hs
  iterate 4 exact hs
  · exact launch_legal v hs
  all_goals exact hs

theorem laneBytes_length_le (n : Nat) (v : Word) : (laneBytes n v).length ≤ n := by simp [laneBytes]

/-- `LMEM_SIZE` is a multiple of every access width, so an aligned access inside the window also ends inside it
(20_memory.md R104, R105). -/
theorem aligned_end_le {size off : Nat} {w : Width} (hsize : LegalSize size) (hlo : 0x10000 ≤ off)
    (hhi : off < 0x10000 + size) (haligned : off % w.bytes = 0) : off - 0x10000 + w.bytes ≤ size := by
  obtain ⟨-, -, hmul⟩ := hsize
  cases w <;> simp only [Width.bytes] at haligned ⊢ <;> omega

theorem hostWrite_legal {off : Nat} {w : Width} {v : Word} (hs : s.Legal) (h : s.hostWrite off w v = some t) :
    t.Legal := by
  simp only [State.hostWrite] at h
  split_ifs at h
  · exact writeCsr_legal hs h
  · cases h
    exact hs
  · cases h
    rename_i hcsr hwindow haligned _
    have hend := aligned_end_le hs.1 (not_lt.1 hcsr) hwindow (not_not.1 haligned)
    have hlen := laneBytes_length_le w.bytes v
    exact writeLmem_legal hs (by omega)

theorem hostAccess_legal (a : Access) (hs : s.Legal) : (s.hostAccess a).Legal := by
  cases a with
  | read off w =>
    simp only [State.hostAccess]
    split <;> exact hs
  | write off w v =>
    simp only [State.hostAccess]
    split
    · exact hs
    · rename_i u h
      have hu : u.Legal := hostWrite_legal hs h
      exact hu

theorem waitStep_legal (hs : s.Legal) : s.waitStep.Legal := by
  rw [waitStep_eq]
  exact hs

end

/-- Settles O11: whatever move comes next, a turn of the core, a poll of `wait` or a host access, keeps the state legal.
The canonical form of LMEM is the model's (log 2). -/
theorem stepKeepsTheStateLegal : Obligations.StepKeepsTheStateLegal := by
  intro s t hs h
  have scheduled : ∀ rest, State.Legal { s with schedule := rest } := fun _ => hs
  rw [step] at h
  split at h
  · exact coreStep_legal hs h
  · exact coreStep_legal (scheduled _) h
  · cases h
    exact waitStep_legal (scheduled _)
  · cases h
    exact hostAccess_legal _ (scheduled _)

end Sys2Proof.Machine
end

section
/-! SUPPORT. Which agent has the step (10_state.md R40): the shapes a step can take, used by every statement about `step`. -/

namespace Sys2Proof.Machine

section
variable {s t : State}

/-- In its turn the core steps in the state with that move taken off the schedule. -/
theorem step_coreTurn (h : s.CoreTurn) : step s = coreStep { s with schedule := s.schedule.tail } := by
  obtain hnil | ⟨rest, hcore⟩ := h
  · have hsame : { s with schedule := s.schedule.tail } = s := by rw [hnil, List.tail_nil, ← hnil]
    rw [hsame, step, hnil]
  · rw [step, hcore, List.tail_cons]

theorem step_host {a : Access} {rest : List Move} (h : s.schedule = .host a :: rest) :
    step s = .next (State.hostAccess { s with schedule := rest } a) := by rw [step, h]

theorem step_wait {rest : List Move} (h : s.schedule = .wait :: rest) :
    step s = .next (State.waitStep { s with schedule := rest }) := by rw [step, h]

/-- Every step is a turn of the core, a poll of `wait` or a host access. -/
theorem step_cases (h : step s = .next t) :
    (s.CoreTurn ∧ coreStep { s with schedule := s.schedule.tail } = .next t) ∨
    (∃ rest, s.schedule = .wait :: rest ∧ t = State.waitStep { s with schedule := rest }) ∨
    ∃ a rest, s.schedule = .host a :: rest ∧ t = State.hostAccess { s with schedule := rest } a := by
  have turn (hc : s.CoreTurn) : s.CoreTurn ∧ coreStep { s with schedule := s.schedule.tail } = .next t :=
    ⟨hc, step_coreTurn hc ▸ h⟩
  match hs : s.schedule with
  | [] => exact .inl (hs ▸ turn (.inl hs))
  | .core :: rest => exact .inl (hs ▸ turn (.inr ⟨rest, hs⟩))
  | .wait :: rest =>
    rw [step_wait hs] at h
    cases h
    exact .inr (.inl ⟨rest, rfl, rfl⟩)
  | .host a :: rest =>
    rw [step_host hs] at h
    cases h
    exact .inr (.inr ⟨a, rest, rfl, rfl⟩)

theorem coreStep_command {i : Instr} (hb : s.busy = true) (hi : decode s.cmdl = .ok i) : coreStep s = exec i s := by
  rw [coreStep, if_pos hb, hi]

theorem coreStep_illegal {e : DecodeError} (hb : s.busy = true) (he : decode s.cmdl = .error e) :
    coreStep s = .next (s.raise (illegalCommand e)) := by
  rw [coreStep, if_pos hb, he]

theorem coreStep_idle (hb : s.busy = false) : coreStep s = .next s := by
  rw [coreStep, if_neg (by simp [hb])]

/-- A turn of the core runs the launched command, refuses its word, or finds the core idle. -/
theorem coreStep_cases (h : coreStep s = .next t) :
    (s.busy = true ∧ ∃ i, decode s.cmdl = .ok i ∧ exec i s = .next t) ∨
    (s.busy = true ∧ ∃ e, decode s.cmdl = .error e ∧ t = s.raise (illegalCommand e)) ∨ (s.busy = false ∧ t = s) := by
  cases hb : s.busy with
  | false =>
    rw [coreStep_idle hb] at h
    cases h
    exact .inr (.inr ⟨rfl, rfl⟩)
  | true =>
    cases hd : decode s.cmdl with
    | ok i => exact .inl ⟨rfl, i, rfl, by rw [← h, coreStep_command hb hd]⟩
    | error e =>
      rw [coreStep_illegal hb hd] at h
      cases h
      exact .inr (.inl ⟨rfl, e, rfl, rfl⟩)

end

/-- Settles O6: one rule for each agent that may have the step. -/
theorem stepRunsTheDecodedCommand : Obligations.StepRunsTheDecodedCommand := by
  intro s
  refine ⟨fun hturn => ⟨fun i hb hi => ?command, fun hb => ?idle⟩, fun a rest h => step_host h, fun rest h => ?wait⟩
  case command => exact (step_coreTurn hturn).trans (coreStep_command hb hi)
  case idle => exact (step_coreTurn hturn).trans (coreStep_idle hb)
  case wait => rw [step_wait h, waitStep_eq]; rfl

end Sys2Proof.Machine
end

section
/-! SUPPORT. What each command may stage: at most one write, which starts at its output argument and is as long as OUTLEN
says, and a new SM3 context or new round keys only if the command is one of their writers. -/

namespace Sys2Proof.Machine

/-- The commands that write the SM3 streaming context (41_sm3.md R249). -/
abbrev sm3Writers : List Instr := [.sm3init, .sm3upd, .sm3fin, .sm3cf]

/-- The command `i`, run in `s`, may stage `e`: an output inside LMEM, a verdict, the digest of SM3FIN with the IV context
after it, a new SM3 context, or the round keys of SM4KEY. -/
inductive Stages (s : State) : Instr → Effects → Prop
  | output {i : Instr} {k : Fin 8} {v : List Byte} {r : Bool} (hk : outputArg i = some k)
      (hv : v.length ≤ s.lmemSize) : Stages s i (written (s.arg k) v r)
  | verdict {i : Instr} (r : Bool) : Stages s i (verdict r)
  | digest {v : List Byte} (hv : v.length ≤ s.lmemSize) :
      Stages s .sm3fin { written (s.arg 0) v with sm3 := some Sm3Context.iv }
  | context {i : Instr} (c : Sm3Context) (hi : i ∈ sm3Writers) : Stages s i { sm3 := some c }
  | keys (ks : Vector Word 32) : Stages s .sm4key { roundKeys := some ks }

section
variable {s t : State} {i : Instr} {e : Effects}

/-- The staged writes are none, or one at the output argument, of OUTLEN bytes inside LMEM (20_memory.md R103, R108). -/
theorem Stages.writes_cases (h : Stages s i e) :
    e.writes = [] ∨
    ∃ k v, outputArg i = some k ∧ e.writes = [(s.arg k, v)] ∧ e.outlen = v.length ∧ v.length ≤ s.lmemSize := by
  cases h with
  | output hk hv => exact .inr ⟨_, _, hk, rfl, rfl, hv⟩
  | digest hv => exact .inr ⟨0, _, rfl, rfl, rfl, hv⟩
  | verdict r => exact .inl rfl
  | context c hi => exact .inl rfl
  | keys ks => exact .inl rfl

/-- Only SM4KEY stages round keys (42_sm4.md R290). -/
theorem Stages.roundKeys_cases (h : Stages s i e) : e.roundKeys = none ∨ i = .sm4key := by
  cases h with
  | keys ks => exact .inr rfl
  | _ => exact .inl rfl

/-- Only its writers stage an SM3 context (41_sm3.md R249). -/
theorem Stages.sm3_cases (h : Stages s i e) : e.sm3 = none ∨ i ∈ sm3Writers := by
  cases h with
  | digest hv => exact .inr (by simp)
  | context c hi => exact .inr hi
  | _ => exact .inl rfl

/-- A string no longer than a range that was checked is no longer than LMEM. -/
theorem le_of_inRange {k : Fin 8} {len n : Nat} (hr : s.InRange k len) (hn : n ≤ len) : n ≤ s.lmemSize :=
  hn.trans ((Nat.le_add_left _ _).trans hr)

/-- `MemWrite(A[k], |v|, v) ; finish(result, |v|)` of a command whose output argument is `k`. -/
theorem Ensures.output {k : Fin 8} {len : Nat} {v : List Byte} {r : Bool} (hk : outputArg i = some k)
    (hr : s.InRange k len) (hv : v.length ≤ len) : Ensures (.ok (Machine.written (s.arg k) v r)) (Stages s i) :=
  .done (.output hk (le_of_inRange hr hv))

/-- How a command leaves the state: by a completion with effects it may stage or by an error completion, either of them
perhaps after a draw, or by a retry, which uses up the draw (30_encoding.md R143, 60_exceptions.md R402, R420, R421). -/
def LeavesBy (i : Instr) (s t : State) : Prop :=
  ∃ u, (u = s ∨ u = s.afterDraw) ∧ ((∃ e, Stages s i e ∧ t = u.finish e) ∨ (∃ e, t = u.raise e) ∨ t = s.afterDraw)

theorem leavesBy_of_complete {c : Check Effects} (hc : Ensures c (Stages s i)) (h : s.complete c = .next t) :
    LeavesBy i s t := by
  rcases complete_next h with ⟨e, he, rfl⟩ | ⟨e, -, rfl⟩
  · exact ⟨s, .inl rfl, .inl ⟨e, hc e he, rfl⟩⟩
  · exact ⟨s, .inl rfl, .inr (.inl ⟨e, rfl⟩)⟩

theorem leavesBy_of_completeWithDraw {α : Type} {ready : Check α} {attempt : α → Nat → Option Effects}
    (hc : Ensures ready fun x => ∀ k e, attempt x k = some e → Stages s i e)
    (h : s.completeWithDraw ready attempt = .next t) : LeavesBy i s t := by
  rcases completeWithDraw_next h with
    ⟨e, -, rfl⟩ | ⟨-, -, -, rfl⟩ | ⟨x, raw, e, hx, -, he, rfl⟩ | ⟨-, -, -, -, -, rfl⟩
  · exact ⟨s, .inl rfl, .inr (.inl ⟨e, rfl⟩)⟩
  · exact ⟨_, .inr rfl, .inr (.inl ⟨_, rfl⟩)⟩
  · exact ⟨_, .inr rfl, .inl ⟨e, hc x hx _ e he, rfl⟩⟩
  · exact ⟨_, .inr rfl, .inr (.inr rfl)⟩

/-! ### The meanings that several commands share -/

theorem fieldBinary_stages {f : FieldSel} {op : Nat → Nat → Nat → Nat} (hk : outputArg i = some 2) :
    Ensures (fieldBinary f op s) (Stages s i) :=
  .skip fun _ => .skip fun _ => .range fun hr => .skip fun _ => .skip fun _ => .skip fun _ => .output hk hr (by simp)

theorem fieldUnary_stages {f : FieldSel} {op : Nat → Nat → Check Nat} (hk : outputArg i = some 2) :
    Ensures (fieldUnary f op s) (Stages s i) :=
  .skip fun _ => .range fun hr => .skip fun _ => .skip fun _ => .skip fun _ => .output hk hr (by simp)

theorem fieldPredicate_stages {f : FieldSel} {p : Nat → Bool} : Ensures (fieldPredicate f p s) (Stages s i) :=
  .skip fun _ => .skip fun _ => .done (.verdict _)

theorem pointUnary_stages {op : Point → Point} (hk : outputArg i = some 2) :
    Ensures (pointUnary op s) (Stages s i) :=
  .skip fun _ => .range fun hr => .skip fun _ => .skip fun _ => .output hk hr (by simp)

theorem sm4OneBlock_stages {f : List Byte → List Byte} (hk : outputArg i = some 1) (hf : ∀ b, (f b).length = 16) :
    Ensures (sm4OneBlock f s) (Stages s i) :=
  .skip fun _ => .skip fun _ => .range fun hr => .skip fun _ => .output hk hr (hf _).le

/-! ### The commands that draw -/

theorem execKeygen_leavesBy (h : execKeygen s = .next t) : LeavesBy .keygen s t := by
  rw [execKeygen] at h
  refine leavesBy_of_completeWithDraw (fun _ hc _ _ he => ?_) h
  cases he
  exact .output rfl (le_of_inRange (inRange_of_checkRange hc) (by simp))

theorem execSign_leavesBy {msg : MsgForm} {id : IdSource} (h : execSign msg id s = .next t) :
    LeavesBy (.sign msg id) s t := by
  rw [execSign] at h
  refine leavesBy_of_completeWithDraw (fun de hc _ _ he => ?_) h
  obtain ⟨rs, -, rfl⟩ := Option.map_eq_some_iff.1 he
  exact .output rfl (le_of_inRange (signChecks_inRange s msg id de hc) (by simp))

theorem execEnc_leavesBy {layout : Layout} (h : execEnc layout s = .next t) : LeavesBy (.enc layout) s t := by
  rw [execEnc] at h
  refine leavesBy_of_completeWithDraw (fun p hc _ _ he => ?_) h
  obtain ⟨c, hct, rfl⟩ := Option.map_eq_some_iff.1 he
  exact .output rfl (le_of_inRange (encChecks_inRange s p hc) (by simp [encAttempt_length hct]))

/-! ### The commands -/

/-- Every command leaves the state with effects it may stage, by an error or by a retry. -/
theorem exec_leavesBy (h : exec i s = .next t) : LeavesBy i s t := by
  have plain {c : Check Effects} (he : exec i s = s.complete c) (hc : Ensures c (Stages s i)) : LeavesBy i s t :=
    leavesBy_of_complete hc (he ▸ h)
  cases i with
  | fadd f | fsub f | fmul f => exact plain rfl (fieldBinary_stages rfl)
  | fsqr f | fneg f | finv f | fsqrt f => exact plain rfl (fieldUnary_stages rfl)
  | fiszero f | fisodd f => exact plain rfl fieldPredicate_stages
  | fred f =>
    exact plain rfl <| .skip fun _ => .range fun hr => .skip fun _ => .skip fun _ => .output rfl hr (by simp)
  | fpow f =>
    exact plain rfl <| .skip fun _ => .skip fun _ => .range fun hr => .skip fun _ => .skip fun _ =>
      .output rfl hr (by simp)
  | feq f =>
    exact plain rfl <| .skip fun _ => .skip fun _ => .skip fun _ => .skip fun _ => .done (.verdict _)
  | fbinv f =>
    exact plain rfl <| .skip fun _ => .range fun hr => .skip fun _ => .value fun as has => .skip fun _ =>
      .output rfl hr (by simp [canonicals_length has, mul_comm])
  | sm3init => exact plain rfl <| .done (.context _ (by simp))
  | sm3upd => exact plain rfl <| .skip fun _ => .skip fun _ => .done (.context _ (by simp))
  | sm3fin =>
    exact plain rfl <| .range fun hr => .done (.digest (le_of_inRange hr (by simp)))
  | sm3cf => exact plain rfl <| .skip fun _ => .done (.context _ (by simp))
  | sm3hash => exact plain rfl <| .skip fun _ => .range fun hr => .skip fun _ => .output rfl hr (by simp)
  | hmac =>
    exact plain rfl <| .skip fun _ => .skip fun _ => .range fun hr => .skip fun _ => .output rfl hr (by simp)
  | hkdf =>
    exact plain rfl <| .skip fun _ => .skip fun _ => .skip fun _ => .range fun hr => .skip fun _ => .skip fun _ =>
      .output rfl hr (by simp)
  | sm4key => exact plain rfl <| .skip fun _ => .done (.keys _)
  | sm4eblk => exact plain rfl (sm4OneBlock_stages rfl (sm4Enc_length s.rk))
  | sm4dblk => exact plain rfl (sm4OneBlock_stages rfl (sm4Dec_length s.rk))
  | sm4ecbe pad =>
    exact plain rfl <| .value fun _ hc => .output rfl (sm4EcbChecks_inRange hc) (by
      simp only [sm4Ecb_length (sm4Enc_length s.rk), sm4PadData_length, memRead_length]
      omega)
  | sm4ecbd pad =>
    exact plain rfl <| .value fun _ hc => .value fun _ hp => .output rfl (sm4EcbChecks_inRange hc) (by
      have := sm4Unpadded_length_le hp
      simp only [sm4Ecb_length (sm4Dec_length s.rk), memRead_length] at this
      omega)
  | sm4cbce pad =>
    exact plain rfl <| .value fun _ hc => .output rfl (sm4CbcChecks_inRange hc) (by
      simp only [sm4CbcEnc_length, sm4PadData_length, memRead_length]
      omega)
  | sm4cbcd pad =>
    exact plain rfl <| .value fun _ hc => .value fun _ hp => .output rfl (sm4CbcChecks_inRange hc) (by
      have hd := sm4CbcDec_length_le s.rk (s.memRead (s.arg 3) 16) (s.memRead (s.arg 0) (s.arg 1))
      have := sm4Unpadded_length_le hp
      rw [memRead_length] at hd
      omega)
  | pvalid => exact plain rfl <| .skip fun _ => .done (.verdict _)
  | padd =>
    exact plain rfl <| .skip fun _ => .skip fun _ => .range fun hr => .skip fun _ => .skip fun _ => .skip fun _ =>
      .output rfl hr (by simp)
  | pdbl | pneg => exact plain rfl (pointUnary_stages rfl)
  | pmul =>
    exact plain rfl <| .skip fun _ => .skip fun _ => .range fun hr => .skip fun _ => .skip fun _ =>
      .output rfl hr (by simp)
  | pmulg => exact plain rfl <| .skip fun _ => .range fun hr => .skip fun _ => .output rfl hr (by simp)
  | pj2a =>
    exact plain rfl <| .skip fun _ => .range fun hr => .skip fun _ => .skip fun _ => .skip fun _ => .skip fun _ =>
      .output rfl hr (by simp)
  | penc form =>
    exact plain rfl <| .skip fun _ => .range fun hr => .skip fun _ => .skip fun _ => .value fun _ hw =>
      .output rfl hr (encodeWire_length hw).le
  | pdec =>
    exact plain rfl <| .skip fun _ => .range fun hr => .skip fun _ => .skip fun _ => .output rfl hr (by simp)
  | kdf =>
    exact plain rfl <| .skip fun _ => .skip fun _ => .range fun hr => .skip fun _ => .output rfl hr (by simp)
  | zval id =>
    exact plain rfl <| .skip fun _ => .skip fun _ => .range fun hr => .skip fun _ => .skip fun _ => .skip fun _ =>
      .output rfl hr (by simp)
  | keygen => exact execKeygen_leavesBy h
  | sign msg id => exact execSign_leavesBy h
  | verify msg id =>
    exact plain rfl <| .skip fun _ => .skip fun _ => .skip fun _ => .skip fun _ => .skip fun _ => .skip fun _ =>
      .skip fun _ => .done (.verdict _)
  | enc layout => exact execEnc_leavesBy h
  | dec layout =>
    exact plain rfl <| .skip fun _ => .skip fun _ => .range fun hr => .skip fun _ => .skip fun _ => .skip fun _ =>
      .skip fun _ => .skip fun _ => .value fun _ hm => .output rfl hr (by simp [decryptMessage_length hm])
  | keyx idA idB role =>
    exact plain rfl <| .skip fun _ => .skip fun _ => .skip fun _ => .range fun hr => .skip fun _ => .skip fun _ =>
      .skip fun _ => .skip fun _ => .skip fun _ => .skip fun _ => .skip fun _ => .skip fun _ => .skip fun _ =>
      .skip fun _ => .output rfl hr (by simp [sharedKey])
  | ecdh =>
    exact plain rfl <| .skip fun _ => .skip fun _ => .range fun hr => .skip fun _ => .skip fun _ => .skip fun _ =>
      .output rfl hr (by simp)

end

end Sys2Proof.Machine
end

section
/-! SUPPORT. What a command leaves alone: the host's registers, LMEM outside its output, and the SM4 keys and the SM3
context unless it is one of their writers. -/

namespace Sys2Proof.Machine

section
variable {s t : State} {i : Instr}

/-- Staged writes leave every byte outside the OUTLEN bytes from the output argument on; OUTLEN does not wrap, since no
LMEM is longer than 65536 bytes (00_scope.md R5). -/
theorem Stages.read_outside {e : Effects} {k : Fin 8} {a : Nat} (he : Stages s i e) (hsize : s.lmemSize ≤ 65536)
    (hk : outputArg i = some k) (ha : a < s.arg k ∨ s.arg k + (BitVec.ofNat 32 e.outlen).toNat ≤ a) :
    (s.lmem.applyWrites e.writes).read a = s.lmem.read a := by
  rcases he.writes_cases with hnone | ⟨k', v, hk', hw, hlen, hv⟩
  · rw [hnone, Memory.applyWrites_nil]
  · obtain rfl : k = k' := Option.some.inj (hk.symm.trans hk')
    rw [hlen, BitVec.toNat_ofNat, Nat.mod_eq_of_lt (by omega)] at ha
    rw [hw, Memory.applyWrites_one, Memory.read_writeBytes_outside ha]

/-- A command without an output range stages no write. -/
theorem Stages.writes_eq_nil {e : Effects} (he : Stages s i e) (hi : outputArg i = none) : e.writes = [] := by
  rcases he.writes_cases with hnone | ⟨k, v, hk, -⟩
  · exact hnone
  · exact absurd (hi.symm.trans hk) nofun

/-- However a command leaves the state, LMEM, the SM3 context and the SM4 keys are what effects it may stage make of them;
an error or a retry is here as staging nothing. -/
theorem LeavesBy.effects (h : LeavesBy i s t) :
    ∃ e, Stages s i e ∧ t.lmem = s.lmem.applyWrites e.writes ∧
      (e.writes = [] ∨ t.outlen = BitVec.ofNat 32 e.outlen) ∧ t.sm3 = e.sm3.getD s.sm3 ∧
      t.rk = e.roundKeys.getD s.rk ∧ t.keyv = (s.keyv || e.roundKeys.isSome) := by
  obtain ⟨u, rfl | rfl, ⟨e, he, rfl⟩ | ⟨e, rfl⟩ | rfl⟩ := h
  case inl.inl | inr.inl => exact ⟨e, he, rfl, .inr rfl, rfl, rfl, rfl⟩
  all_goals exact ⟨_, .verdict false, rfl, .inl rfl, rfl, rfl, (Bool.or_false _).symm⟩

theorem LeavesBy.lmem_eq (h : LeavesBy i s t) (hi : outputArg i = none) : t.lmem = s.lmem := by
  obtain ⟨e, he, hlmem, -⟩ := h.effects
  rw [hlmem, he.writes_eq_nil hi, Memory.applyWrites_nil]

theorem LeavesBy.read_outside {k : Fin 8} {a : Nat} (h : LeavesBy i s t) (hsize : s.lmemSize ≤ 65536)
    (hk : outputArg i = some k) (ha : a < s.arg k ∨ s.arg k + t.outlen.toNat ≤ a) :
    t.lmem.read a = s.lmem.read a := by
  obtain ⟨e, he, hlmem, hnone | hout, -⟩ := h.effects
  · rw [hlmem, hnone, Memory.applyWrites_nil]
  · rw [hlmem, he.read_outside hsize hk (hout ▸ ha)]

theorem LeavesBy.keys_eq (h : LeavesBy i s t) (hi : i ≠ .sm4key) : t.rk = s.rk ∧ t.keyv = s.keyv := by
  obtain ⟨e, he, -, -, -, hrk, hkeyv⟩ := h.effects
  simp [hrk, hkeyv, he.roundKeys_cases.resolve_right hi]

theorem LeavesBy.sm3_eq (h : LeavesBy i s t) (hi : i ∉ sm3Writers) : t.sm3 = s.sm3 := by
  obtain ⟨e, he, -, -, hsm3, -⟩ := h.effects
  simp [hsm3, he.sm3_cases.resolve_right hi]

end

/-- Settles O10: the registers from the ways a command can leave the state, LMEM from what it may stage. -/
theorem commandsChangeOnlyTheirOutput : Obligations.CommandsChangeOnlyTheirOutput := by
  intro i s t hsize h
  have hleaves := exec_leavesBy h
  have hlmem : outputArg i = none → t.lmem = s.lmem := hleaves.lmem_eq
  have houtside : ∀ k, outputArg i = some k → ∀ a, a < s.arg k ∨ s.arg k + t.outlen.toNat ≤ a →
      t.lmem.read a = s.lmem.read a := fun _ hk _ ha => hleaves.read_outside hsize hk ha
  obtain ⟨u, rfl | rfl, ⟨e, rfl⟩ | ⟨e, rfl⟩ | ⟨rfl, -⟩⟩ := exec_next h <;>
    exact ⟨rfl, rfl, rfl, rfl, rfl, rfl, rfl, rfl, rfl, rfl, hlmem, houtside⟩

end Sys2Proof.Machine
end

section
/-! SUPPORT. The writers of the SM4 keys and of the SM3 context over a whole step (10_state.md R64, R65). -/

namespace Sys2Proof.Machine

section
variable {s t : State}

/-- The access `a` that takes `s` to `t` is a soft reset, an idle write to an `SM3_Vi`, or leaves the SM4 keys and the SM3
context alone. -/
def CryptoAccess (s t : State) (a : Access) : Prop :=
  (∃ v, a = .write 0x010 .w32 v ∧ v.getLsbD 0 = true) ∨
  (t.rk = s.rk ∧ t.keyv = s.keyv ∧ (t.sm3 = s.sm3 ∨ s.busy = false ∧ ∃ i < 8, ∃ v, a = .write (0x100 + 4 * i) .w32 v))

theorem writeCsr_cryptoAccess {off : Nat} {v : Word} (h : s.writeCsr off v = some t) :
    CryptoAccess s t (.write off .w32 v) := by
  simp only [State.writeCsr] at h
  split_ifs at h <;> cases h
  any_goals exact .inr ⟨rfl, rfl, .inl rfl⟩
  · rename_i hoff hreset
    exact .inl ⟨v, by rw [hoff], hreset⟩
  · rename_i hv hbusy
    refine .inr ⟨rfl, rfl, .inr ⟨by simpa using hbusy, (off - 0x100) / 4, by omega, v, ?_⟩⟩
    rw [show 0x100 + 4 * ((off - 0x100) / 4) = off by omega]

theorem hostWrite_cryptoAccess {off : Nat} {w : Width} {v : Word} (h : s.hostWrite off w v = some t) :
    CryptoAccess s t (.write off w v) := by
  simp only [State.hostWrite] at h
  split_ifs at h with hcsr hw
  · rw [hw.1]
    exact writeCsr_cryptoAccess h
  all_goals cases h; exact .inr ⟨rfl, rfl, .inl rfl⟩

theorem hostAccess_cryptoAccess (s : State) (a : Access) : CryptoAccess s (s.hostAccess a) a := by
  cases a with
  | read off w =>
    simp only [State.hostAccess]
    split <;> exact .inr ⟨rfl, rfl, .inl rfl⟩
  | write off w v =>
    simp only [State.hostAccess]
    split
    · exact .inr ⟨rfl, rfl, .inl rfl⟩
    · rename_i u hu
      exact hostWrite_cryptoAccess (s := s) (t := u) hu

/-- A turn of the core leaves the SM4 keys and the SM3 context alone unless it runs one of their writers. -/
theorem coreStep_crypto (h : coreStep s = .next t) :
    ((s.busy = true ∧ decode s.cmdl = .ok .sm4key) ∨ t.rk = s.rk ∧ t.keyv = s.keyv) ∧
    ((s.busy = true ∧ ∃ i, decode s.cmdl = .ok i ∧ i ∈ sm3Writers) ∨ t.sm3 = s.sm3) := by
  rcases coreStep_cases h with ⟨hb, i, hi, hexec⟩ | ⟨hb, e, -, rfl⟩ | ⟨-, rfl⟩
  · have hleaves := exec_leavesBy hexec
    refine ⟨?_, ?_⟩
    · by_cases hkey : i = .sm4key
      · exact .inl ⟨hb, hkey ▸ hi⟩
      · exact .inr (hleaves.keys_eq hkey)
    · by_cases hsm3 : i ∈ sm3Writers
      · exact .inl ⟨hb, i, hi, hsm3⟩
      · exact .inr (hleaves.sm3_eq hsm3)
  · exact ⟨.inr ⟨rfl, rfl⟩, .inr rfl⟩
  · exact ⟨.inr ⟨rfl, rfl⟩, .inr rfl⟩

end

/-- Settles O9: the core's turn by the writers among the commands, a host access by the writes that count, and a poll of
`wait` changes neither. -/
theorem keyStateAndHashContextHaveTheirWriters : Obligations.KeyStateAndHashContextHaveTheirWriters := by
  intro s t h
  rcases step_cases h with ⟨hturn, hcore⟩ | ⟨rest, -, rfl⟩ | ⟨a, rest, hs, rfl⟩
  case inl =>
    obtain ⟨hkeys, hsm3⟩ := coreStep_crypto hcore
    refine ⟨fun hne => .inl ⟨hturn, hkeys.resolve_right ?_⟩, fun hne => .inl ⟨hturn, hsm3.resolve_right hne⟩⟩
    rintro ⟨hrk, hkeyv⟩
    exact hne.elim (· hrk) (· hkeyv)
  case inr.inl =>
    rw [waitStep_eq]
    exact ⟨fun hne => (hne.elim (· rfl) (· rfl)).elim, fun hne => (hne rfl).elim⟩
  case inr.inr =>
    rcases hostAccess_cryptoAccess { s with schedule := rest } a with
      ⟨v, rfl, hv⟩ | ⟨hrk, hkeyv, hsm3⟩
    · exact ⟨fun _ => .inr ⟨v, rest, hs, hv⟩, fun _ => .inr (.inr ⟨v, rest, hs, hv⟩)⟩
    · refine ⟨fun hne => (hne.elim (· hrk) (· hkeyv)).elim, fun hne => .inr (.inl ?_)⟩
      obtain ⟨hb, i, hi, v, rfl⟩ := hsm3.resolve_left hne
      exact ⟨hb, i, v, rest, hi, hs⟩

end Sys2Proof.Machine
end

section
/-! SUPPORT. The registers on the host bus (10_state.md R46-R62): one lemma per register and direction, an access at full
width being an access to the register map. -/

namespace Sys2Proof.Machine

/-- The registers that only read (10_state.md R47). -/
abbrev readOnlyCsrs : List Nat := [0x000, 0x004, 0x008, 0x014, 0x024, 0x120, 0x124, 0x128]

section
variable (s : State)

/-! ### Accesses at full width -/

theorem mappedCsrs_aligned : ∀ off ∈ mappedCsrs, off < 0x10000 ∧ off % 4 = 0 := by decide

theorem hostAccess_readCsr {off : Nat} {v : Word} (hoff : off < 0x10000 ∧ off % 4 = 0)
    (h : s.readCsr off = some (.exact v)) :
    s.hostAccess (.read off .w32) = { s with response := some (.data v) } := by
  have hread : s.hostRead off .w32 = some (.exact v) := by rw [State.hostRead, if_pos hoff.1, if_pos ⟨rfl, hoff.2⟩, h]
  simp only [State.hostAccess, hread]

theorem hostAccess_writeCsr {off : Nat} {v : Word} {t : State} (hoff : off < 0x10000 ∧ off % 4 = 0)
    (h : s.writeCsr off v = some t) : s.hostAccess (.write off .w32 v) = { t with response := some .okay } := by
  have hwrite : s.hostWrite off .w32 v = some t := by rw [State.hostWrite, if_pos hoff.1, if_pos ⟨rfl, hoff.2⟩, h]
  simp only [State.hostAccess, hwrite]

/-! ### The fields of the status words: a field is reached past the ones below it. -/

/-- ERROR, RESULT and KEYV (R54). -/
theorem statusWord_flags :
    s.statusWord.getLsbD 1 = s.error ∧ s.statusWord.getLsbD 2 = s.result ∧ s.statusWord.getLsbD 3 = s.keyv := by
  simp only [State.statusWord, BitVec.getLsbD_append]
  simp

theorem statusWord_reservedLow : s.statusWord.extractLsb' 4 4 = 0 := by
  rw [State.statusWord]
  iterate 4 rw [BitVec.extractLsb'_append_eq_of_le (by decide)]
  exact BitVec.extractLsb'_append_eq_right

theorem statusWord_errcode : s.statusWord.extractLsb' 8 8 = s.errcode := by
  rw [State.statusWord]
  iterate 5 rw [BitVec.extractLsb'_append_eq_of_le (by decide)]
  exact BitVec.extractLsb'_append_eq_right

theorem statusWord_errdetail : s.statusWord.extractLsb' 16 8 = s.errdetail := by
  rw [State.statusWord]
  iterate 6 rw [BitVec.extractLsb'_append_eq_of_le (by decide)]
  exact BitVec.extractLsb'_append_eq_right

theorem statusWord_reservedHigh : s.statusWord.extractLsb' 24 8 = 0 := by
  rw [State.statusWord]
  iterate 7 rw [BitVec.extractLsb'_append_eq_of_le (by decide)]
  exact BitVec.extractLsb'_eq_self

/-- INT_STATUS and INT_ENABLE have one layout (R55, R56). -/
theorem twoFlags_fields {hi lo : Bool} {w : Word} (hw : w = 0#30 ++ BitVec.ofBool hi ++ BitVec.ofBool lo) :
    w.getLsbD 0 = lo ∧ w.getLsbD 1 = hi ∧ w.extractLsb' 2 30 = 0 := by
  subst hw
  refine ⟨?_, ?_, ?_⟩
  · rw [BitVec.getLsbD_append]; simp
  · rw [BitVec.getLsbD_append, if_neg (by decide), BitVec.getLsbD_append]; simp
  · iterate 2 rw [BitVec.extractLsb'_append_eq_of_le (by decide)]
    exact BitVec.extractLsb'_eq_self

/-! ### Reads -/

/-- While idle every register reads its value (R60, R106). -/
theorem readCsr_exact {off : Nat} (hb : s.busy = false) (h : off ∈ mappedCsrs) :
    ∃ v, s.readCsr off = some (.exact v) := by
  have every : ∀ off ∈ mappedCsrs, ∃ v, s.readCsr off = some (.exact v) := by
    simp only [mappedCsrs, List.forall_mem_cons, State.readCsr]
    simp [hb]
  exact every off h

theorem readCsr_arg {i : Nat} (h : i < 8) : s.readCsr (0x040 + 4 * i) = some (.exact s.args[i]) := by
  have hindex : (0x040 + 4 * i - 0x040) / 4 = i := by omega
  rw [State.readCsr]
  iterate 9 rw [if_neg (by omega)]
  rw [if_pos (by omega), hindex]
  simp [h]

theorem readCsr_sm3V {i : Nat} (hb : s.busy = false) (h : i < 8) :
    s.readCsr (0x100 + 4 * i) = some (.exact s.sm3.v[i]) := by
  have hindex : (0x100 + 4 * i - 0x100) / 4 = i := by omega
  rw [State.readCsr]
  iterate 10 rw [if_neg (by omega)]
  rw [if_pos (by omega), hindex, if_neg (by simp [hb])]
  simp [h]

/-- The two halves of BITLEN (R62). -/
theorem bitLenHi_append_bitLenLo : s.bitLenHi ++ s.bitLenLo = s.sm3.bitlen :=
  BitVec.extractLsb'_append_extractLsb'

/-! ### Writes -/

theorem setIfInBounds_eq_set (xs : Vector Word 8) {i : Nat} {v : Word} (h : i < 8) :
    xs.setIfInBounds i v = xs.set i v := by
  ext j hj
  rw [Vector.getElem_setIfInBounds, Vector.getElem_set]

theorem writeCsr_arg {i : Nat} (v : Word) (h : i < 8) :
    s.writeCsr (0x040 + 4 * i) v = some { s with args := s.args.set i v } := by
  have hindex : (0x040 + 4 * i - 0x040) / 4 = i := by omega
  rw [State.writeCsr]
  iterate 4 rw [if_neg (by omega)]
  rw [if_pos (by omega), hindex, setIfInBounds_eq_set s.args h]

theorem writeCsr_sm3V {i : Nat} (v : Word) (hb : s.busy = false) (h : i < 8) :
    s.writeCsr (0x100 + 4 * i) v = some { s with sm3 := { s.sm3 with v := s.sm3.v.set i v } } := by
  have hindex : (0x100 + 4 * i - 0x100) / 4 = i := by omega
  rw [State.writeCsr]
  iterate 5 rw [if_neg (by omega)]
  rw [if_pos (by omega), hindex, if_neg (by simp [hb]), setIfInBounds_eq_set s.sm3.v h]

theorem mappedCsrs_of_readOnly : ∀ off ∈ readOnlyCsrs, off ∈ mappedCsrs := by decide

/-- A write to a read-only register has no effect (R47). -/
theorem writeCsr_readOnly {off : Nat} (v : Word) (h : off ∈ readOnlyCsrs) : s.writeCsr off v = some s := by
  simp only [readOnlyCsrs, List.mem_cons, List.not_mem_nil, or_false] at h
  rcases h with rfl | rfl | rfl | rfl | rfl | rfl | rfl | rfl <;> rfl

end

/-- Settles O20, register by register; the bits of the three status words from their layout. -/
theorem registerReads : Obligations.RegisterReads := by
  intro s
  refine ⟨?idle, rfl, rfl, rfl, rfl, ⟨s.statusWord, rfl, ?status⟩, ⟨s.intStatusWord, rfl, twoFlags_fields rfl⟩,
    ⟨s.intEnableWord, rfl, twoFlags_fields rfl⟩, rfl, rfl, fun i h => readCsr_arg s h,
    fun hb i h => readCsr_sm3V s hb h, rfl, ⟨s.bitLenLo, s.bitLenHi, rfl, rfl, bitLenHi_append_bitLenLo s⟩⟩
  case idle =>
    intro hb off hoff
    obtain ⟨v, hv⟩ := readCsr_exact s hb hoff
    exact ⟨v, hv, hostAccess_readCsr s (mappedCsrs_aligned off hoff) hv⟩
  case status =>
    obtain ⟨herror, hresult, hkeyv⟩ := statusWord_flags s
    exact ⟨statusWord_busy s, herror, hresult, hkeyv, statusWord_reservedLow s, statusWord_errcode s,
      statusWord_errdetail s, statusWord_reservedHigh s⟩

/-- Settles O21: each write is one of the register map, made at full width. -/
theorem idleRegisterWrites : Obligations.IdleRegisterWrites := by
  intro s v
  refine ⟨fun hb => ⟨fun i h => ?arg, fun i h => ?sm3V, ?intStatus, ?intEnable⟩, fun off hoff => ?readOnly⟩
  case arg => exact hostAccess_writeCsr s (by omega) (writeCsr_arg s v h)
  case sm3V => exact hostAccess_writeCsr s (by omega) (writeCsr_sm3V s v hb h)
  case intStatus => exact hostAccess_writeCsr s (off := 0x018) (by decide) rfl
  case intEnable => exact hostAccess_writeCsr s (off := 0x01C) (by decide) rfl
  case readOnly =>
    have haligned := mappedCsrs_aligned off (mappedCsrs_of_readOnly off hoff)
    exact hostAccess_writeCsr s haligned (writeCsr_readOnly s v hoff)

end Sys2Proof.Machine
end

section
/-! SUPPORT. The accesses the host bus accepts (20_memory.md R104, R105): BUSERR is the response exactly outside the
register map and the LMEM window, on the read side and on the write side alike. -/

namespace Sys2Proof.Machine

section
variable (s : State) (off : Nat) (w : Width) (v : Word)

/-- The register map as ranges: the ARGs and the `SM3_Vi` are the two arrays of words. -/
theorem mem_mappedCsrs_iff : off ∈ mappedCsrs ↔
    off = 0x000 ∨ off = 0x004 ∨ off = 0x008 ∨ off = 0x010 ∨ off = 0x014 ∨ off = 0x018 ∨ off = 0x01C ∨ off = 0x020 ∨
      off = 0x024 ∨ (0x040 ≤ off ∧ off ≤ 0x05C ∧ off % 4 = 0) ∨ (0x100 ≤ off ∧ off ≤ 0x11C ∧ off % 4 = 0) ∨
      off = 0x120 ∨ off = 0x124 ∨ off = 0x128 := by
  simp only [mappedCsrs, List.mem_cons, List.not_mem_nil, or_false]
  omega

theorem readCsr_isSome {off : Nat} (h : off ∈ mappedCsrs) : (s.readCsr off).isSome = true := by
  have every : ∀ off ∈ mappedCsrs, (s.readCsr off).isSome = true := by
    simp only [mappedCsrs, List.forall_mem_cons, State.readCsr]
    simp
  exact every off h

theorem readCsr_eq_none_iff : s.readCsr off = none ↔ off ∉ mappedCsrs := by
  refine ⟨fun hnone hmapped => by simpa [hnone] using readCsr_isSome s hmapped, fun hunmapped => ?_⟩
  rw [mem_mappedCsrs_iff] at hunmapped
  rw [State.readCsr]
  iterate 14 rw [if_neg (by omega)]

/-- Every offset a write has an effect at is mapped; at the others a write is judged as a read is (R47). -/
theorem writeCsr_eq_none_iff : s.writeCsr off v = none ↔ off ∉ mappedCsrs := by
  by_cases hmapped : off ∈ mappedCsrs
  · rw [State.writeCsr, if_pos (readCsr_isSome s hmapped)]
    split_ifs <;> simp [hmapped]
  · have hranges := mt (mem_mappedCsrs_iff off).2 hmapped
    rw [State.writeCsr, (readCsr_eq_none_iff s off).2 hmapped]
    iterate 6 rw [if_neg (by omega)]
    simp [hmapped]

/-- Below 0x10000 only the register map answers, at full width. -/
theorem accessible_csr_iff (h : off < 0x10000) : s.Accessible off w ↔ (w = .w32 ∧ off % 4 = 0) ∧ off ∈ mappedCsrs := by
  refine ⟨?_, fun ⟨⟨hw, _⟩, hmapped⟩ => .inl ⟨hmapped, hw⟩⟩
  rintro (⟨hmapped, hw⟩ | ⟨hlo, -⟩)
  · exact ⟨⟨hw, (mappedCsrs_aligned off hmapped).2⟩, hmapped⟩
  · omega

/-- From 0x10000 up only the LMEM window answers, at every width. -/
theorem accessible_lmem_iff (h : ¬off < 0x10000) :
    s.Accessible off w ↔ off < 0x10000 + s.lmemSize ∧ off % w.bytes = 0 := by
  refine ⟨?_, fun hwindow => .inr ⟨not_lt.1 h, hwindow⟩⟩
  rintro (⟨hmapped, -⟩ | ⟨-, hwindow⟩)
  · exact absurd (mappedCsrs_aligned off hmapped).1 h
  · exact hwindow

theorem hostRead_eq_none_iff : s.hostRead off w = none ↔ ¬s.Accessible off w := by
  rw [State.hostRead]
  split_ifs with hcsr hwidth hwindow hmisaligned
  · rw [accessible_csr_iff s off w hcsr, readCsr_eq_none_iff, and_iff_right hwidth]
  · simp only [accessible_csr_iff s off w hcsr, hwidth, false_and, not_false_eq_true]
  all_goals
    rw [accessible_lmem_iff s off w hcsr]
    simp [*]

theorem hostWrite_eq_none_iff : s.hostWrite off w v = none ↔ ¬s.Accessible off w := by
  rw [State.hostWrite]
  split_ifs with hcsr hwidth hwindow hmisaligned
  · rw [accessible_csr_iff s off w hcsr, writeCsr_eq_none_iff, and_iff_right hwidth]
  · simp only [accessible_csr_iff s off w hcsr, hwidth, false_and, not_false_eq_true]
  all_goals
    rw [accessible_lmem_iff s off w hcsr]
    simp [*]

variable {s off w}

theorem hostAccess_read_busErr (h : s.hostRead off w = none) :
    s.hostAccess (.read off w) = { s with response := some .busErr } := by simp only [State.hostAccess, h]

theorem hostAccess_write_busErr (h : s.hostWrite off w v = none) :
    s.hostAccess (.write off w v) = { s with response := some .busErr } := by simp only [State.hostAccess, h]

theorem hostAccess_read_exact {d : Word} (h : s.hostRead off w = some (.exact d)) :
    s.hostAccess (.read off w) = { s with response := some (.data d) } := by simp only [State.hostAccess, h]

theorem hostAccess_write_okay {t : State} (h : s.hostWrite off w v = some t) :
    s.hostAccess (.write off w v) = { t with response := some .okay } := by simp only [State.hostAccess, h]

/-- An accepted read answers with data, also where its value is unspecified (R60, R106). -/
theorem hostAccess_read_data {r : ReadValue} (h : s.hostRead off w = some r) :
    ∃ d, (s.hostAccess (.read off w)).response = some (.data d) := by
  cases r with
  | exact d => exact ⟨d, by rw [hostAccess_read_exact h]⟩
  | unspecified => exact ⟨narrow w (Config.busyReadValue s.busyReads), by simp only [State.hostAccess, h]⟩

end

/-- Settles O18: an access finds neither a register nor LMEM exactly when it is not accessible. -/
theorem busErrorsChangeNothing : Obligations.BusErrorsChangeNothing := by
  intro s off w v
  refine ⟨fun hrefused => ⟨?refusedRead, ?refusedWrite⟩, fun haccepted => ⟨?acceptedRead, ?acceptedWrite⟩⟩
  case refusedRead => exact hostAccess_read_busErr ((hostRead_eq_none_iff s off w).2 hrefused)
  case refusedWrite => exact hostAccess_write_busErr v ((hostWrite_eq_none_iff s off w v).2 hrefused)
  case acceptedRead =>
    obtain ⟨r, hr⟩ := Option.ne_none_iff_exists'.1 fun h => (hostRead_eq_none_iff s off w).1 h haccepted
    exact hostAccess_read_data hr
  case acceptedWrite =>
    obtain ⟨t, ht⟩ := Option.ne_none_iff_exists'.1 fun h => (hostWrite_eq_none_iff s off w v).1 h haccepted
    rw [hostAccess_write_okay v ht]

end Sys2Proof.Machine
end

section
/-! SUPPORT. The byte lanes of the host bus (20_memory.md R105): byte `j` of an access stands in bits `8j+7 : 8j`. -/

namespace Sys2Proof.Machine

theorem Width.bytes_le (w : Width) : w.bytes ≤ 4 := by cases w <;> decide

@[simp] theorem laneBytes_length (w : Width) (v : Word) : (laneBytes w.bytes v).length = w.bytes := by
  simp [laneBytes, w.bytes_le]

theorem Memory.readBytes_getElem (m : Memory) {addr n j : Nat} (h : j < (m.readBytes addr n).length) :
    (m.readBytes addr n)[j] = m.read (addr + j) := by
  induction n generalizing addr j with
  | zero => simp at h
  | succ n ih =>
    cases j with
    | zero => rfl
    | succ j =>
      simp only [Memory.readBytes, List.getElem_cons_succ, ih]
      congr 1
      omega

/-- A digit of a little-endian number in base 256 is its byte. -/
theorem beNat_reverse_digit (bs : List Byte) {j : Nat} (h : j < bs.length) :
    beNat bs.reverse / 256 ^ j % 256 = bs[j].toNat := by
  induction bs generalizing j with
  | nil => simp at h
  | cons b bs ih =>
    rw [List.reverse_cons, beNat_append_singleton]
    have hb := b.isLt
    cases j with
    | zero =>
      rw [List.getElem_cons_zero]
      omega
    | succ j =>
      have hhead : (256 * beNat bs.reverse + b.toNat) / 256 = beNat bs.reverse := by omega
      rw [pow_succ', ← Nat.div_div_eq_div_mul, hhead, List.getElem_cons_succ]
      exact ih (by simpa using h)

section
variable {bs : List Byte}

theorem laneWord_toNat_lt : (laneWord bs).toNat < 256 ^ bs.length := by
  have hlt := beNat_lt bs.reverse
  rw [List.length_reverse] at hlt
  exact (Nat.mod_le _ _).trans_lt hlt

theorem laneWord_toNat (h : bs.length ≤ 4) : (laneWord bs).toNat = beNat bs.reverse := by
  have hlt := beNat_lt bs.reverse
  rw [List.length_reverse] at hlt
  exact Nat.mod_eq_of_lt (hlt.trans_le (Nat.pow_le_pow_right (by decide) h))

theorem laneWord_lane (h : bs.length ≤ 4) {j : Nat} (hj : j < bs.length) :
    (laneWord bs).extractLsb' (8 * j) 8 = bs[j] := by
  apply BitVec.eq_of_toNat_eq
  rw [BitVec.extractLsb'_toNat, laneWord_toNat h, Nat.shiftRight_eq_div_pow, pow_mul]
  exact beNat_reverse_digit bs hj

end

/-- A word is put back together from its four bytes. -/
theorem laneWord_laneBytes (v : Word) : laneWord (laneBytes 4 v) = v := by
  have hall : laneBytes 4 v = (beBytes 4 v.toNat).reverse := List.take_of_length_le (by simp)
  rw [laneWord, hall, List.reverse_reverse, beNat_beBytes]
  exact BitVec.eq_of_toNat_eq ((Nat.mod_mod _ _).trans (Nat.mod_eq_of_lt v.isLt))

theorem laneBytes_getElem {w : Width} {v : Word} {j : Nat} (h : j < (laneBytes w.bytes v).length) :
    (laneBytes w.bytes v)[j] = v.extractLsb' (8 * j) 8 := by
  have hfour : (laneBytes 4 v).length = 4 := laneBytes_length .w32 v
  have hj : j < (laneBytes 4 v).length := by
    have := w.bytes_le
    rw [laneBytes_length] at h
    omega
  have hlane := laneWord_lane hfour.le hj
  rw [laneWord_laneBytes] at hlane
  rw [hlane]
  simp only [laneBytes, List.getElem_take]

/-! ### LMEM accesses while idle -/

section
variable {s : State} {o : Nat} {w : Width}

/-- An aligned offset of LMEM is one of the host's window too: its base is a multiple of every width. -/
theorem accessible_lmem (ho : o < s.lmemSize) (haligned : o % w.bytes = 0) : s.Accessible (0x10000 + o) w := by
  refine .inr ⟨by omega, by omega, ?_⟩
  cases w <;> simp only [Width.bytes] at haligned ⊢ <;> omega

theorem hostRead_lmem (hb : s.busy = false) (ho : o < s.lmemSize) (haligned : o % w.bytes = 0) :
    s.hostRead (0x10000 + o) w = some (.exact (laneWord (s.lmem.readBytes o w.bytes))) := by
  have hregion : ¬0x10000 + o < 0x10000 := by omega
  obtain ⟨hwindow, hwidth⟩ := (accessible_lmem_iff s _ w hregion).1 (accessible_lmem ho haligned)
  rw [State.hostRead, if_neg hregion, if_pos hwindow, if_neg (not_not.2 hwidth), if_neg (by simp [hb]),
    Nat.add_sub_cancel_left]

theorem hostWrite_lmem (v : Word) (hb : s.busy = false) (ho : o < s.lmemSize) (haligned : o % w.bytes = 0) :
    s.hostWrite (0x10000 + o) w v = some { s with lmem := s.lmem.writeBytes o (laneBytes w.bytes v) } := by
  have hregion : ¬0x10000 + o < 0x10000 := by omega
  obtain ⟨hwindow, hwidth⟩ := (accessible_lmem_iff s _ w hregion).1 (accessible_lmem ho haligned)
  rw [State.hostWrite, if_neg hregion, if_pos hwindow, if_neg (not_not.2 hwidth), if_neg (by simp [hb]),
    Nat.add_sub_cancel_left]

end

/-- What stands in LMEM after a bus write: byte `j` of its range is lane `j` of the bus word. -/
theorem Memory.read_writeBytes_lane {m : Memory} (o : Nat) (w : Width) (v : Word) (hm : m.wf = true) {j : Nat}
    (hj : j < w.bytes) : (m.writeBytes o (laneBytes w.bytes v)).read (o + j) = v.extractLsb' (8 * j) 8 := by
  have hlane : j < (laneBytes w.bytes v).length := by rwa [laneBytes_length]
  rw [← laneBytes_getElem hlane, ← Memory.readBytes_getElem _ (n := (laneBytes w.bytes v).length) (by simpa using hj)]
  simp only [Memory.readBytes_writeBytes o _ hm]

/-- Settles O19: the read and the write of the bytes from `o` up, each byte in its lane. -/
theorem lmemWindowIsLittleEndian : Obligations.LmemWindowIsLittleEndian := by
  intro s o w v hwf hb ho haligned
  refine ⟨⟨laneWord (s.lmem.readBytes o w.bytes), hostAccess_read_exact (hostRead_lmem hb ho haligned),
    fun j hj => ?lane, ?zeros⟩, ?write⟩
  case lane =>
    have hlane : j < (s.lmem.readBytes o w.bytes).length := by rwa [Memory.readBytes_length]
    rw [laneWord_lane (by simpa using w.bytes_le) hlane, Memory.readBytes_getElem]
  case zeros => simpa using laneWord_toNat_lt (bs := s.lmem.readBytes o w.bytes)
  case write =>
    rw [hostAccess_write_okay v (hostWrite_lmem v hb ho haligned)]
    exact ⟨fun j hj => Memory.read_writeBytes_lane o w v hwf hj,
      fun a ha => Memory.read_writeBytes_outside (by rwa [laneBytes_length]), rfl⟩

end Sys2Proof.Machine
end

section
/-! SUPPORT. The command word (30_encoding.md R140-R151): the bits under the mask of an opcode's row name the row, and the
legal flag bits name the command within the row. -/

namespace Sys2Proof

/-! ### Flag bits, both ways (R140, R141) -/

@[simp] theorem FieldSel.toBit_ofBit (b : Bool) : (FieldSel.ofBit b).toBit = b := by cases b <;> rfl
@[simp] theorem Padding.toBit_ofBit (b : Bool) : (Padding.ofBit b).toBit = b := by cases b <;> rfl
@[simp] theorem PointForm.toBit_ofBit (b : Bool) : (PointForm.ofBit b).toBit = b := by cases b <;> rfl
@[simp] theorem Layout.toBit_ofBit (b : Bool) : (Layout.ofBit b).toBit = b := by cases b <;> rfl
@[simp] theorem MsgForm.toBit_ofBit (b : Bool) : (MsgForm.ofBit b).toBit = b := by cases b <;> rfl
@[simp] theorem IdSource.toBit_ofBit (b : Bool) : (IdSource.ofBit b).toBit = b := by cases b <;> rfl
@[simp] theorem Role.toBit_ofBit (b : Bool) : (Role.ofBit b).toBit = b := by cases b <;> rfl

/-- Reading a flag bit and putting it back in place is masking the word with that flag. -/
theorem flagWord_getLsbD (w : Word) (bit : Nat) : flagWord bit (w.getLsbD bit) = w &&& flagWord bit true := by
  simp only [flagWord, if_true, ← BitVec.twoPow_eq, BitVec.and_twoPow]

/-! ### The rows of the opcode map (R146) -/

@[simp] theorem Mnemonic.command_mnemonic (m : Mnemonic) (w : Word) : (m.command w).mnemonic = m := by cases m <;> rfl

/-- A command read from a word has that word's legal flag bits. -/
theorem Mnemonic.command_flagBits (m : Mnemonic) (w : Word) : (m.command w).flagBits = w &&& m.legalFlags := by
  cases m <;>
    simp [Mnemonic.command, Instr.flagBits, Mnemonic.legalFlags, flagWord_getLsbD, BitVec.and_or_distrib_left]

theorem Mnemonic.ofOpcode_opcode (m : Mnemonic) : Mnemonic.ofOpcode m.opcode = some m := by cases m <;> rfl

theorem Mnemonic.ofOpcode_eq_some_iff {opc : Byte} {m : Mnemonic} :
    Mnemonic.ofOpcode opc = some m ↔ m.opcode = opc := by
  constructor
  · intro h
    simpa using List.find?_some h
  · rintro rfl
    exact m.ofOpcode_opcode

/-- No flag stands in the field OPC (R140). -/
theorem Mnemonic.opcField_legalFlags (m : Mnemonic) : opcField m.legalFlags = 0 := by cases m <;> rfl

/-! ### Match and mask (R149) -/

/-- The word is one of the row's commands by the row's match and mask. -/
abbrev Mnemonic.Matches (m : Mnemonic) (w : Word) : Prop := w &&& ~~~m.legalFlags = m.opcode.setWidth 32

theorem highMask_getLsbD {i : Nat} (hi : i < 32) : (0xFFFFFF00#32).getLsbD i = decide (8 ≤ i) := by
  have hshift : 0xFFFFFF00#32 = BitVec.allOnes 32 <<< 8 := rfl
  simp only [hshift, BitVec.getLsbD_shiftLeft, BitVec.getLsbD_allOnes]
  grind

theorem opcField_toNat (w : Word) : (opcField w).toNat = w.toNat % 256 := BitVec.toNat_setWidth 8 w

theorem opcField_setWidth (o : Byte) : opcField (o.setWidth 32) = o := by simp [opcField]

/-- A word is an OPC alone exactly when that is its field OPC and bits 31:8 are 0. -/
theorem eq_setWidth_iff (x : Word) (o : Byte) : x = o.setWidth 32 ↔ opcField x = o ∧ x &&& 0xFFFFFF00#32 = 0 := by
  constructor
  · rintro rfl
    refine ⟨opcField_setWidth o, BitVec.eq_of_getLsbD_eq fun i hi => ?_⟩
    rw [BitVec.getLsbD_and, highMask_getLsbD hi, BitVec.getLsbD_setWidth]
    by_cases hlow : 8 ≤ i
    · simp [BitVec.getLsbD_of_ge o i hlow]
    · simp [hlow]
  · rintro ⟨rfl, hhigh⟩
    refine BitVec.eq_of_getLsbD_eq fun i hi => ?_
    have hbit := congrArg (·.getLsbD i) hhigh
    simp only [BitVec.getLsbD_and, highMask_getLsbD hi] at hbit
    by_cases hlow : i < 8
    · simp [opcField, hi, hlow]
    · simpa [opcField, hi, hlow, not_lt.1 hlow] using hbit

theorem opcField_and_mask (w : Word) (m : Mnemonic) : opcField (w &&& ~~~m.legalFlags) = opcField w := by
  have hflags := m.opcField_legalFlags
  rw [opcField] at hflags
  rw [opcField, BitVec.setWidth_and, BitVec.setWidth_not (by decide), hflags]
  exact BitVec.and_allOnes

/-- Match and mask make the decoder's two checks, of the opcode and of the bits above it (R143). -/
theorem Mnemonic.matches_iff {m : Mnemonic} {w : Word} : m.Matches w ↔ opcField w = m.opcode ∧ illegalBits w m = 0 := by
  rw [Mnemonic.Matches, eq_setWidth_iff, opcField_and_mask, illegalBits, BitVec.and_assoc, BitVec.and_assoc,
    BitVec.and_comm (~~~m.legalFlags)]

/-- OPC alone, every flag 0, is a word of its row. -/
theorem Mnemonic.matches_opcode (m : Mnemonic) : m.Matches (m.opcode.setWidth 32) := by cases m <;> rfl

/-! ### Decoding and encoding (R143, R151) -/

theorem decode_of_opcode {w : Word} {m : Mnemonic} (h : opcField w = m.opcode) :
    decode w = if illegalBits w m ≠ 0 then .error .reservedBits else .ok (m.command w) := by
  rw [decode, h, m.ofOpcode_opcode]

theorem decode_of_unlisted {w : Word} (h : ∀ m : Mnemonic, opcField w ≠ m.opcode) : decode w = .error .badOpcode := by
  have hnone : Mnemonic.ofOpcode (opcField w) = none :=
    Option.eq_none_iff_forall_ne_some.2 fun m hm => h m (Mnemonic.ofOpcode_eq_some_iff.1 hm).symm
  rw [decode, hnone]

/-- A word is decoded to a command exactly when its row matches, and the row reads the command from it. -/
theorem decode_eq_ok_iff {w : Word} {i : Instr} :
    decode w = .ok i ↔ i.mnemonic.Matches w ∧ i.mnemonic.command w = i := by
  rw [Mnemonic.matches_iff]
  constructor
  · intro h
    by_cases hlisted : ∃ m : Mnemonic, opcField w = m.opcode
    · obtain ⟨m, hm⟩ := hlisted
      rw [decode_of_opcode hm] at h
      split_ifs at h with hlegal
      cases h
      rw [m.command_mnemonic]
      exact ⟨⟨hm, not_not.1 hlegal⟩, rfl⟩
    · rw [decode_of_unlisted (not_exists.1 hlisted)] at h
      cases h
  · rintro ⟨⟨hopc, hlegal⟩, hcommand⟩
    rw [decode_of_opcode hopc, if_neg (not_not.2 hlegal), hcommand]

theorem Mnemonic.matches_iff_decode {m : Mnemonic} {w : Word} :
    m.Matches w ↔ ∃ i, decode w = .ok i ∧ i.mnemonic = m := by
  constructor
  · intro h
    have hrow := m.command_mnemonic w
    exact ⟨m.command w, decode_eq_ok_iff.2 (by rw [hrow]; exact ⟨h, rfl⟩), hrow⟩
  · rintro ⟨i, hi, rfl⟩
    exact (decode_eq_ok_iff.1 hi).1

/-- A word is put back together from the bits under its row's mask and its legal flag bits. -/
theorem encode_command {m : Mnemonic} {w : Word} (h : m.Matches w) : encode (m.command w) = w := by
  calc encode (m.command w)
      = (w &&& ~~~m.legalFlags) ||| (w &&& m.legalFlags) := by rw [encode, m.command_mnemonic, m.command_flagBits, h]
    _ = w := by rw [← BitVec.and_or_distrib_left, BitVec.or_comm, BitVec.or_not_self, BitVec.and_allOnes]

/-- Every command with every value of its flags is read back from its word. -/
theorem decode_encode (i : Instr) : decode (encode i) = .ok i := by
  cases i with
  | fred f | fadd f | fsub f | fmul f | fsqr f | fneg f | finv f | fpow f | fsqrt f | fiszero f | fisodd f | feq f
  | fbinv f => cases f <;> rfl
  | sm4ecbe pad | sm4ecbd pad | sm4cbce pad | sm4cbcd pad => cases pad <;> rfl
  | penc form => cases form <;> rfl
  | zval id => cases id <;> rfl
  | sign msg id | verify msg id => cases msg <;> cases id <;> rfl
  | enc layout | dec layout => cases layout <;> rfl
  | keyx idA idB role => cases idA <;> cases idB <;> cases role <;> rfl
  | _ => rfl

end Sys2Proof

namespace Sys2Proof.Machine

/-- Settles O1: a decoded word is put back together from its fields, and every command is read back from its word. -/
theorem decodingInvertsEncoding : Obligations.DecodingInvertsEncoding := by
  intro w i
  constructor
  · intro h
    obtain ⟨hrow, hcommand⟩ := decode_eq_ok_iff.1 h
    rw [← hcommand, encode_command hrow]
  · rintro rfl
    exact decode_encode i

/-- The table of the statements has the match and mask of R149. -/
theorem opcodeTable_match_mask :
    ∀ row ∈ opcodeTable, row.2.1 = row.1.opcode.setWidth 32 ∧ row.2.2 = ~~~row.1.legalFlags := by decide

/-- Settles O2: a row's match and mask are those of its mnemonic. -/
theorem wordsDecodeByMatchAndMask : Obligations.WordsDecodeByMatchAndMask := by
  intro row hrow w
  obtain ⟨hmatch, hmask⟩ := opcodeTable_match_mask row hrow
  rw [hmatch, hmask]
  exact Mnemonic.matches_iff_decode

end Sys2Proof.Machine
end

section
/-! SUPPORT. Illegal words in the core's turn (30_encoding.md R147). -/

namespace Sys2Proof.Machine

/-- An opcode in a reserved range (R147). -/
abbrev ReservedOpcode (opc : Nat) : Prop :=
  opc ≤ 0x0F ∨ (0x1D ≤ opc ∧ opc ≤ 0x1F) ∨ (0x27 ≤ opc ∧ opc ≤ 0x2F) ∨ (0x37 ≤ opc ∧ opc ≤ 0x3F) ∨
    (0x49 ≤ opc ∧ opc ≤ 0x4F) ∨ 0x59 ≤ opc

theorem opcode_not_reserved (m : Mnemonic) : ¬ReservedOpcode m.opcode.toNat := by cases m <;> decide

section
variable {s : State} (hb : s.busy = true)
include hb

theorem coreStep_badOpcode (h : ReservedOpcode (s.cmdl.toNat % 256)) : coreStep s = .next (s.errored 0x10 0x01) := by
  refine coreStep_illegal hb (decode_of_unlisted fun m hm => opcode_not_reserved m ?_)
  rwa [← hm, opcField_toNat]

theorem coreStep_reservedBits {m : Mnemonic} (hopc : opcField s.cmdl = m.opcode) (hbits : ¬m.Matches s.cmdl) :
    coreStep s = .next (s.errored 0x10 0x02) := by
  have hillegal : illegalBits s.cmdl m ≠ 0 := fun hlegal => hbits (Mnemonic.matches_iff.2 ⟨hopc, hlegal⟩)
  exact coreStep_illegal hb ((decode_of_opcode hopc).trans (if_pos hillegal))

end

/-- Settles O3: a reserved opcode has no row, and a word of a row that does not match has an illegal bit. -/
theorem illegalWordsCompleteAsIllegalCommands : Obligations.IllegalWordsCompleteAsIllegalCommands := by
  intro s hb
  refine ⟨coreStep_badOpcode hb, fun row hrow hopc hbits => ?_⟩
  obtain ⟨hmatch, hmask⟩ := opcodeTable_match_mask row hrow
  rw [hmatch] at hopc hbits
  rw [hmask] at hbits
  refine coreStep_reservedBits hb ?_ hbits
  calc opcField s.cmdl
      = opcField (s.cmdl &&& 0xFF#32) := by rw [opcField, opcField, BitVec.setWidth_and]; exact BitVec.and_allOnes.symm
    _ = row.1.opcode := by rw [← hopc, opcField_setWidth]

end Sys2Proof.Machine
end

section
/-! SUPPORT. The word an assembler line encodes to (30_encoding.md R151). -/

namespace Sys2Proof.Machine

/-- Bits that all stand outside a mask change nothing under it. -/
theorem or_and_of_disjoint (w : Word) {bits mask : Word} (h : bits &&& mask = 0) : (w ||| bits) &&& mask = w &&& mask := by
  rw [BitVec.and_comm, BitVec.and_or_distrib_left, BitVec.and_comm mask bits, h, BitVec.and_comm mask]
  exact BitVec.or_zero

/-- The bits under a mask that no suffix of the line sets are those of OPC. -/
theorem asmWord_and {l : AsmLine} {mask : Word} (h : ∀ x ∈ l.suffixes, suffixBits x &&& mask = 0) :
    asmWord l &&& mask = l.mnemonic.opcode.setWidth 32 &&& mask := by
  obtain ⟨m, xs, args⟩ := l
  simp only [asmWord] at h ⊢
  generalize (m.opcode.setWidth 32 : Word) = w
  induction xs generalizing w with
  | nil => rfl
  | cons x xs ih =>
    obtain ⟨hx, hxs⟩ := List.forall_mem_cons.1 h
    rw [List.foldl_cons, ih hxs, or_and_of_disjoint w hx]

/-- A bit of the word is 1 by OPC or by a suffix of the line. -/
theorem asmWord_getLsbD (l : AsmLine) (k : Nat) :
    (asmWord l).getLsbD k =
      ((l.mnemonic.opcode.setWidth 32 : Word).getLsbD k || l.suffixes.any fun x => (suffixBits x).getLsbD k) := by
  rw [asmWord]
  generalize l.mnemonic.opcode.setWidth 32 = w
  induction l.suffixes generalizing w with
  | nil => simp
  | cons x xs ih => rw [List.foldl_cons, ih, BitVec.getLsbD_or, List.any_cons, Bool.or_assoc]

/-- A flag bit that one suffix alone sets is 1 exactly when that suffix is written. -/
theorem asmWord_flagBit {k : Nat} {x : Suffix} (l : AsmLine) (hk : 8 ≤ k)
    (hx : ∀ y, (suffixBits y).getLsbD k = decide (y = x)) : (asmWord l).getLsbD k = decide (x ∈ l.suffixes) := by
  have hopc : (l.mnemonic.opcode.setWidth 32 : Word).getLsbD k = false := by
    rw [BitVec.getLsbD_setWidth, BitVec.getLsbD_of_ge _ _ hk, Bool.and_false]
  rw [asmWord_getLsbD, hopc, Bool.false_or, Bool.eq_iff_iff]
  simp [hx]

/-- A suffix sets no bit outside the flag it is about (R151). -/
theorem suffixBits_and_of_flagMask {x : Suffix} {mask : Word} (h : x.flagMask &&& mask = 0) :
    suffixBits x &&& mask = 0 := by
  cases x with
  | p => exact BitVec.zero_and
  | _ => exact h

/-- Legal suffixes leave the bits under the mnemonic's mask as OPC alone has them. -/
theorem asmWord_matches {l : AsmLine} (h : l.wellFormed = true) : l.mnemonic.Matches (asmWord l) := by
  simp only [AsmLine.wellFormed, AsmLine.suffixesLegal, Bool.and_eq_true, List.all_eq_true, beq_iff_eq] at h
  obtain ⟨⟨hsuffixes, -⟩, -⟩ := h
  exact (asmWord_and fun x hx => suffixBits_and_of_flagMask (hsuffixes x hx)).trans (l.mnemonic.matches_opcode)

/-- Settles O5: the word matches its mnemonic's row, and each of the eight flag bits has its one suffix. -/
theorem wellFormedLinesAssembleToTheirCommand : Obligations.WellFormedLinesAssembleToTheirCommand := by
  intro l hl
  have hrow := asmWord_matches hl
  refine ⟨Mnemonic.matches_iff_decode.1 hrow, ?opc, ?fsel, ?pad, ?comp, ?layout, ?prehash, ?useid, ?useidb, ?role⟩
  case opc => rw [← opcField_toNat, (Mnemonic.matches_iff.1 hrow).1]
  all_goals exact asmWord_flagBit l (by decide) fun y => by cases y <;> rfl

/-- Settles O4: the words by evaluation, each decoded as the encoding of its command; FADD's row has no PAD. -/
theorem workedEncodingsAssembleAndDecode : Obligations.WorkedEncodingsAssembleAndDecode := by
  refine ⟨rfl, decode_encode (.fadd .fn), rfl, decode_encode (.sm4cbcd .pkcs7), rfl,
    decode_encode (.keyx .lmemId .lmemId .responder), rfl, decode_encode (.sign .digest .defaultId), fun s hb hcmdl => ?_⟩
  apply coreStep_reservedBits hb (m := .fadd) <;> rw [hcmdl] <;> decide

end Sys2Proof.Machine
end

section
/-! SUPPORT. The launch on the host bus (30_encoding.md R142). -/

namespace Sys2Proof.Machine

theorem writeCsr_cmd {s : State} (w : Word) (hb : s.busy = false) : s.writeCsr 0x020 w = some (s.launch w) := by
  have hcmd : s.writeCsr 0x020 w = some (if s.busy then s.dropped else s.launch w) := rfl
  rw [hcmd, if_neg (by simp [hb])]

/-- Settles O13: an idle core's CMD takes every word. -/
theorem launchLatchesCommandAndArguments : Obligations.LaunchLatchesCommandAndArguments := fun s w hb =>
  hostAccess_writeCsr s (off := 0x020) (by decide) (writeCsr_cmd w hb)

end Sys2Proof.Machine
end

section
/-! SUPPORT. More ways to follow a list of guards (60_exceptions.md R405): a computation and its continuation, and the two
ways a completion can end, for the statements that give one list of guards to several commands. -/

namespace Sys2Proof.Machine

/-- The first guard that fails is among the first guards, or they all hold and it is the first of the others. -/
theorem firstFailed_append (gs gs' : List Guard) : firstFailed (gs ++ gs') = (firstFailed gs).or (firstFailed gs') := by
  induction gs with
  | nil => rfl
  | cons g gs ih => cases hg : g.holds <;> simp [firstFailed, hg, ih]

section
variable {α β : Type} {gs gs' : List Guard} {x : Check β} {done : α → Prop} {P : β → Prop}

/-- A computation that follows its guards, then one that follows the rest on every value the first may give. -/
theorem follows_bind {k : β → Check α} (hx : Follows gs x P) (hk : ∀ b, P b → Follows gs' (k b) done) :
    Follows (gs ++ gs') (x >>= k) done := by
  rw [Follows, firstFailed_append]
  rw [Follows] at hx
  cases hf : firstFailed gs with
  | some cd =>
    rw [hf] at hx
    obtain ⟨e, rfl, he⟩ := hx
    exact ⟨e, rfl, he⟩
  | none =>
    rw [hf] at hx
    obtain ⟨b, rfl, hb⟩ := hx
    exact hk b hb

/-- What a computation that follows its guards gives has every weaker property too. -/
theorem follows_imp (hx : Follows gs x P) {P' : β → Prop} (h : ∀ b, P b → P' b) : Follows gs x P' := by
  rw [Follows] at hx ⊢
  cases hf : firstFailed gs with
  | some cd =>
    rw [hf] at hx
    exact hx
  | none =>
    rw [hf] at hx
    obtain ⟨b, hb, hP⟩ := hx
    exact ⟨b, hb, h b hP⟩

/-- A computation with no check after it. -/
theorem follows_map {g : β → α} (hx : Follows gs x fun b => done (g b)) :
    Follows gs (x >>= fun b => .ok (g b)) done :=
  List.append_nil gs ▸ follows_bind hx fun _ hb => follows_done hb

end

section
variable {s : State} {gs : List Guard} {x : Check Effects} {Q : State → Prop}

theorem complete_of_firstFailed_some {done : Effects → Prop} {c d : Byte} (h : Follows gs x done)
    (hf : firstFailed gs = some (c, d)) : s.complete x = .next (s.errored c d) := by
  rw [Follows, hf] at h
  obtain ⟨e, rfl, rfl, rfl⟩ := h
  rfl

theorem complete_of_firstFailed_none (h : Follows gs x fun e => Q (s.finish e)) (hf : firstFailed gs = none) :
    ∃ t, s.complete x = .next t ∧ Q t := by
  rw [Follows, hf] at h
  obtain ⟨e, rfl, he⟩ := h
  exact ⟨s.finish e, rfl, he⟩

/-- A command that writes a string its rule gives by a property (30_encoding.md R143). -/
theorem complete_exists_wrote {ρ : Type} {R : ρ → Prop} {addr : Nat} {v : ρ → List Byte}
    (h : Follows gs x fun e => ∃ r, R r ∧ Wrote s (s.finish e) addr (v r) false) :
    match firstFailed gs with
    | some (c, d) => s.complete x = .next (s.errored c d)
    | none => ∃ r t, R r ∧ s.complete x = .next t ∧ Wrote s t addr (v r) false := by
  split
  · next hf => exact complete_of_firstFailed_some h hf
  · next hf =>
    rw [Follows, hf] at h
    obtain ⟨e, rfl, r, hr, hwrote⟩ := h
    exact ⟨r, s.finish e, hr, rfl, hwrote⟩

end

end Sys2Proof.Machine
end

section
/-! SUPPORT. What the results of FSUB, FINV, FSQRT and FBINV are (40_modarith.md R203, R207, R209, R213). -/

namespace Sys2Proof.Machine

/-- The model's difference is the residue of the integer difference (00_scope.md R9). -/
theorem subMod_eq_emod {m a b : Nat} (hb : b ≤ m) : subMod m a b = (((a : Int) - (b : Int)) % (m : Int)).toNat := by
  have hsum : ((a + (m - b) : Nat) : Int) = (a : Int) - b + m := by omega
  rw [← Int.add_emod_right, ← hsum, ← Int.natCast_mod, Int.toNat_natCast, subMod]

/-- FSQRT's candidate is the power it should be (40_modarith.md R209). -/
theorem sqrtMod_eq (f : FieldSel) (a : Nat) :
    let r := a ^ ((modulus f + 1) / 4) % modulus f
    sqrtMod (modulus f) a = if r * r % modulus f = a then some r else none := by
  have he : (modulus f + 1) / 4 < 2 ^ 256 := by
    have := modulus_lt f
    omega
  simp only [sqrtMod, powMod_eq he]

/-- The inverse of a canonical value other than 0 lies in [1, m − 1] (40_modarith.md R207). -/
theorem invMod_inverts (f : FieldSel) {a : Nat} (h0 : a ≠ 0) (ha : a < modulus f) :
    1 ≤ invMod (modulus f) a ∧ invMod (modulus f) a < modulus f ∧ invMod (modulus f) a * a % modulus f = 1 := by
  obtain ⟨hlt, hmul⟩ := invMod_spec f h0 ha
  refine ⟨Nat.one_le_iff_ne_zero.2 fun hz => ?_, hlt, hmul⟩
  simp [hz] at hmul

/-- What is below the modulus and multiplies `a` to 1 is the inverse (40_modarith.md R207). -/
theorem eq_invMod (f : FieldSel) {r a : Nat} (h0 : a ≠ 0) (ha : a < modulus f) (hr : r < modulus f)
    (h : r * a ≡ 1 [MOD modulus f]) : r = invMod (modulus f) a := by
  obtain ⟨hlt, hmul⟩ := invMod_spec f h0 ha
  exact inverse_unique hr hlt h (by rw [hmul, Nat.mod_eq_of_lt (modulus_gt_one f)])

/-! ### FBINV: running products, one inversion, and folding back (R213) -/

/-- The last running product is the product of all the elements. -/
theorem prefixProducts_getLastD {m : Nat} (as : List Nat) {c : Nat} (hc : c < m) :
    (prefixProducts m c as).getLastD c = c * as.prod % m := by
  induction as generalizing c with
  | nil => simp [prefixProducts, Nat.mod_eq_of_lt hc]
  | cons a as ih =>
    rw [prefixProducts, List.getLastD_cons, ih (Nat.mod_lt _ (by omega)), List.prod_cons, Nat.mod_mul_mod, mul_assoc]

/-- Folding back goes over every element once. -/
theorem prod_fst_zip_prefixProducts (m c : Nat) (as : List Nat) :
    ((as.zip (c :: prefixProducts m c as)).reverse.map Prod.fst).prod = as.prod := by
  rw [List.map_reverse, List.prod_reverse, List.map_fst_zip (by simp [prefixProducts_length])]

/-- Folding back over one element more at the end: its result is the product of `u`, the elements folded before, and the
product before it. -/
theorem foldBack_append_singleton (m u : Nat) (acs : List (Nat × Nat)) (a c : Nat) :
    ∃ v, v ≡ u * (acs.map Prod.fst).prod [MOD m] ∧ foldBack m u (acs ++ [(a, c)]) = foldBack m u acs ++ [v * c % m] := by
  induction acs generalizing u with
  | nil => exact ⟨u, by simp [Nat.ModEq], rfl⟩
  | cons ac acs ih =>
    obtain ⟨v, hv, hfold⟩ := ih (u * ac.1 % m)
    refine ⟨v, hv.trans ?_, by simp [foldBack, hfold]⟩
    rw [List.map_cons, List.prod_cons, ← mul_assoc]
    exact (Nat.mod_modEq _ m).mul_right _

/-- If `u` inverts the product of the elements and of `c`, folding back gives the inverse of each, last first. -/
theorem foldBack_prefixProducts (f : FieldSel) {u : Nat} (as : List Nat) {c : Nat}
    (has : ∀ a ∈ as, a ≠ 0 ∧ a < modulus f) (hu : u * (c * as.prod) ≡ 1 [MOD modulus f]) :
    foldBack (modulus f) u (as.zip (c :: prefixProducts (modulus f) c as)).reverse =
      (as.map (invMod (modulus f))).reverse := by
  induction as generalizing c with
  | nil => rfl
  | cons a as ih =>
    obtain ⟨⟨h0, ha⟩, has⟩ := List.forall_mem_cons.1 has
    have hrest : u * (c * a % modulus f * as.prod) ≡ 1 [MOD modulus f] := by
      refine Nat.ModEq.trans (((Nat.mod_modEq _ _).mul_right _).mul_left u) ?_
      rwa [mul_assoc c, ← List.prod_cons]
    obtain ⟨v, hv, hfold⟩ := foldBack_append_singleton (modulus f) u
      (as.zip (c * a % modulus f :: prefixProducts (modulus f) (c * a % modulus f) as)).reverse a c
    rw [prod_fst_zip_prefixProducts] at hv
    have hinv : v * c % modulus f * a ≡ 1 [MOD modulus f] := by
      calc v * c % modulus f * a
          ≡ v * c * a [MOD modulus f] := (Nat.mod_modEq _ _).mul_right a
        _ ≡ u * as.prod * c * a [MOD modulus f] := (hv.mul_right c).mul_right a
        _ = u * (c * (a :: as).prod) := by rw [List.prod_cons]; ring
        _ ≡ 1 [MOD modulus f] := hu
    have hlt : v * c % modulus f < modulus f := Nat.mod_lt _ (by have := modulus_gt_one f; omega)
    rw [prefixProducts, List.zip_cons_cons, List.reverse_cons, hfold, ih has hrest, List.map_cons, List.reverse_cons,
      eq_invMod f h0 ha hlt hinv]

/-- No product of canonical values other than 0 is 0 modulo the prime modulus. -/
theorem prod_mod_modulus_ne_zero (f : FieldSel) {as : List Nat} (has : ∀ a ∈ as, a ≠ 0 ∧ a < modulus f) :
    as.prod % modulus f ≠ 0 := by
  intro h
  obtain ⟨a, ha, hdvd⟩ := (modulus_prime f).prime.dvd_prod_iff.1 (Nat.dvd_of_mod_eq_zero h)
  obtain ⟨h0, hlt⟩ := has a ha
  exact h0 (Nat.eq_zero_of_dvd_of_lt hdvd hlt)

/-- FBINV's one inversion gives every inverse (40_modarith.md R213). -/
theorem batchInverse_eq_map (f : FieldSel) {as : List Nat} (has : ∀ a ∈ as, a ≠ 0 ∧ a < modulus f) :
    batchInverse (modulus f) as = as.map (invMod (modulus f)) := by
  have hlast : (prefixProducts (modulus f) 1 as).getLastD 1 = as.prod % modulus f := by
    rw [prefixProducts_getLastD as (modulus_gt_one f), one_mul]
  obtain ⟨-, hmul⟩ := invMod_spec f (prod_mod_modulus_ne_zero f has)
    (Nat.mod_lt _ (by have := modulus_gt_one f; omega))
  have hu : invMod (modulus f) (as.prod % modulus f) * (1 * as.prod) ≡ 1 [MOD modulus f] := by
    rw [one_mul]
    refine ((Nat.mod_modEq as.prod _).mul_left _).symm.trans ?_
    rw [Nat.ModEq, hmul, Nat.mod_eq_of_lt (modulus_gt_one f)]
  rw [batchInverse, hlast, foldBack_prefixProducts f as has hu, List.reverse_reverse]

end Sys2Proof.Machine
end

section
/-! SUPPORT. The modular arithmetic commands (40_modarith.md R201-R213): the shared meanings against their guards, then the
rule of each command. -/

namespace Sys2Proof.Machine

section
variable {s : State} {f : FieldSel} {done : Effects → Prop}

/-- FADD, FSUB and FMUL (R202). -/
theorem fieldBinary_follows {op : Nat → Nat → Nat → Nat}
    (h : s.scalar (s.arg 1) < modulus f →
      done (written (s.arg 2) (beBytes 32 (op (modulus f) (s.scalar (s.arg 0)) (s.scalar (s.arg 1)))))) :
    Follows [s.rangeGuard 0 32, s.rangeGuard 1 32, s.rangeGuard 2 32,
      s.overlapGuard 2 32 [(s.arg 0, 32), (s.arg 1, 32)], canonicalGuard (modulus f) (s.scalar (s.arg 0)),
      canonicalGuard (modulus f) (s.scalar (s.arg 1))] (fieldBinary f op s) done :=
  follows_range fun _ => follows_range fun _ => follows_range fun _ => follows_overlap <|
    follows_canonical fun _ => follows_canonical fun hb => follows_done (h hb)

/-- FSQR, FNEG, FINV and FSQRT (R205), `gs` the checks that the computation itself makes. -/
theorem fieldUnary_follows {gs : List Guard} {op : Nat → Nat → Check Nat}
    (h : s.scalar (s.arg 0) < modulus f →
      Follows gs (op (modulus f) (s.scalar (s.arg 0))) fun r => done (written (s.arg 2) (beBytes 32 r))) :
    Follows ([s.rangeGuard 0 32, s.rangeGuard 2 32, s.overlapGuard 2 32 [(s.arg 0, 32)],
      canonicalGuard (modulus f) (s.scalar (s.arg 0))] ++ gs) (fieldUnary f op s) done :=
  follows_range fun _ => follows_range fun _ => follows_overlap <| follows_canonical fun ha => follows_map (h ha)

/-- FISZERO and FISODD (R210). -/
theorem fieldPredicate_follows {p : Nat → Bool} (h : done (verdict (p (s.scalar (s.arg 0))))) :
    Follows [s.rangeGuard 0 32, canonicalGuard (modulus f) (s.scalar (s.arg 0))] (fieldPredicate f p s) done :=
  follows_range fun _ => follows_canonical fun _ => follows_done h

end

/-- A 32-byte integer (30_encoding.md R145). -/
theorem scalar_lt (s : State) (addr : Nat) : s.scalar addr < 2 ^ 256 := by
  have h := beNat_lt (s.memRead addr 32)
  rwa [memRead_length, show 256 ^ 32 = 2 ^ 256 by norm_num] at h

/-- The elements of FBINV, canonical in index order (R213). -/
theorem canonicals_follows (s : State) (m addr k : Nat) :
    Follows ((List.range k).map fun i => canonicalGuard m (s.scalar (addr + 32 * i))) (s.canonicals m addr k)
      fun as => as = ((List.range k).map fun i => s.scalar (addr + 32 * i)) ∧ ∀ a ∈ as, a < m := by
  induction k generalizing addr with
  | zero => exact follows_done ⟨rfl, by simp⟩
  | succ k ih =>
    have hshift : ∀ i, addr + 32 * (i + 1) = addr + 32 + 32 * i := fun i => by ring
    simp only [List.range_succ_eq_map, List.map_cons, List.map_map, Function.comp_def, Nat.succ_eq_add_one, hshift,
      mul_zero, add_zero]
    refine follows_canonical fun ha => List.append_nil (List.map _ _) ▸ follows_bind (ih (addr + 32)) fun as has => ?_
    obtain ⟨heq, hlt⟩ := has
    exact follows_done ⟨by rw [heq], List.forall_mem_cons.2 ⟨ha, hlt⟩⟩

/-- Settles O22: one list of guards for the three operations. -/
theorem faddFsubFmulFollowTheirRules : Obligations.FaddFsubFmulFollowTheirRules := by
  intro f s hw m a b
  have add : Follows _ (fieldBinary f (fun m a b => (a + b) % m) s) fun e =>
      Wrote s (s.finish e) (s.arg 2) (beBytes 32 ((a + b) % m)) false :=
    fieldBinary_follows fun _ => finish_written _ _ _ hw
  have sub : Follows _ (fieldBinary f subMod s) fun e =>
      Wrote s (s.finish e) (s.arg 2) (beBytes 32 (((a : Int) - (b : Int)) % (m : Int)).toNat) false :=
    fieldBinary_follows fun hb => subMod_eq_emod (m := m) (a := a) hb.le ▸ finish_written _ _ _ hw
  have mul : Follows _ (fieldBinary f (fun m a b => a * b % m) s) fun e =>
      Wrote s (s.finish e) (s.arg 2) (beBytes 32 (a * b % m)) false :=
    fieldBinary_follows fun _ => finish_written _ _ _ hw
  split
  · next hf =>
    exact ⟨complete_of_firstFailed_some add hf, complete_of_firstFailed_some sub hf, complete_of_firstFailed_some mul hf⟩
  · next hf =>
    exact ⟨complete_of_firstFailed_none add hf, complete_of_firstFailed_none sub hf, complete_of_firstFailed_none mul hf⟩

/-- FINV's last check and its result: the inverse, or INV_ZERO (R207). -/
theorem finv_follows (f : FieldSel) {a : Nat} (ha : a < modulus f) :
    Follows [{ holds := decide (a ≠ 0), code := 0x03, detail := 0x01 }]
      (if a = 0 then .error .invZero else .ok (invMod (modulus f) a))
      fun r => 1 ≤ r ∧ r < modulus f ∧ r * a % modulus f = 1 :=
  follows_guard (y := .ok (invMod (modulus f) a)) (e := .invZero) (by simp) rfl rfl fun h0 =>
    follows_done (invMod_inverts f (of_decide_eq_true h0) ha)

/-- Settles O23: FINV with its own last check; `invMod` is the inverse it is asked for. -/
theorem fsqrFnegFinvFollowTheirRules : Obligations.FsqrFnegFinvFollowTheirRules := by
  intro f s hw m a checks
  have sqr : Follows checks (fieldUnary f (fun m a => .ok (a * a % m)) s) fun e =>
      Wrote s (s.finish e) (s.arg 2) (beBytes 32 (a * a % m)) false :=
    fieldUnary_follows fun _ => follows_done (finish_written _ _ _ hw)
  have neg : Follows checks (fieldUnary f (fun m a => .ok ((m - a) % m)) s) fun e =>
      Wrote s (s.finish e) (s.arg 2) (beBytes 32 ((m - a) % m)) false :=
    fieldUnary_follows fun _ => follows_done (finish_written _ _ _ hw)
  have inv : Follows (checks ++ [{ holds := decide (a ≠ 0), code := 0x03, detail := 0x01 }])
      (fieldUnary f (fun m a => if a = 0 then .error .invZero else .ok (invMod m a)) s) fun e =>
      ∃ r, (1 ≤ r ∧ r < m ∧ r * a % m = 1) ∧ Wrote s (s.finish e) (s.arg 2) (beBytes 32 r) false :=
    fieldUnary_follows fun ha => follows_imp (finv_follows f ha) fun r hr => ⟨r, hr, finish_written _ _ _ hw⟩
  constructor
  · split
    · next hf => exact ⟨complete_of_firstFailed_some sqr hf, complete_of_firstFailed_some neg hf⟩
    · next hf => exact ⟨complete_of_firstFailed_none sqr hf, complete_of_firstFailed_none neg hf⟩
  · split
    · next hf => exact complete_of_firstFailed_some inv hf
    · next hf =>
      obtain ⟨r, t, ⟨h1, hlt, hmul⟩, ht, hwrote⟩ := hf ▸ complete_exists_wrote inv
      exact ⟨r, t, h1, hlt, hmul, ht, hwrote⟩

/-- Settles O24: the exponent is below 2^256, so the model's square-and-multiply is the power. -/
theorem fpowFollowsItsRule : Obligations.FpowFollowsItsRule := by
  intro f s hw m a
  have he : s.scalar (s.arg 1) < 2 ^ 256 := scalar_lt s _
  exact complete_follows <| follows_range fun _ => follows_range fun _ => follows_range fun _ => follows_overlap <|
    follows_canonical fun _ => follows_done (powMod_eq (m := m) (a := a) he ▸ finish_written _ _ _ hw)

/-- FSQRT's last check and its result: the power, if it is a root, or NQR (R209). -/
theorem fsqrt_follows (f : FieldSel) (a : Nat) :
    let r := a ^ ((modulus f + 1) / 4) % modulus f
    Follows [{ holds := decide (r * r % modulus f = a), code := 0x03, detail := 0x02 }]
      (match sqrtMod (modulus f) a with | some r => .ok r | none => .error .nqr) (· = r) := by
  intro r
  refine follows_guard (y := .ok r) (e := .nqr) ?_ rfl rfl fun _ => follows_done rfl
  rw [show sqrtMod (modulus f) a = if r * r % modulus f = a then some r else none from sqrtMod_eq f a]
  by_cases hr : r * r % modulus f = a
  · rw [if_pos hr, decide_eq_true hr]
    rfl
  · rw [if_neg hr, decide_eq_false hr]
    rfl

/-- Settles O25: the guard is the test the model makes on its candidate root. -/
theorem fsqrtFollowsItsRule : Obligations.FsqrtFollowsItsRule := by
  intro f s hw m a r
  exact complete_follows <| fieldUnary_follows fun _ =>
    follows_imp (fsqrt_follows f a) fun _ hr => hr ▸ finish_written _ _ _ hw

/-- Settles O26: check by check. -/
theorem fredFollowsItsRule : Obligations.FredFollowsItsRule := by
  intro f s hw
  exact complete_follows <| follows_range fun _ => follows_range fun _ => follows_overlap <|
    follows_require rfl rfl rfl fun _ => follows_done (finish_written _ _ _ hw)

/-- Settles O27: check by check; the two unary predicates have one list of guards. -/
theorem fieldPredicatesFollowTheirRules : Obligations.FieldPredicatesFollowTheirRules := by
  intro f s m a b
  have isZero := complete_verdict (s := s) (fieldPredicate_follows (s := s) (f := f) (p := fun a => a == 0) rfl)
  have isOdd := complete_verdict (s := s) (fieldPredicate_follows (s := s) (f := f) (p := fun a => a % 2 == 1) rfl)
  refine ⟨?_, complete_verdict <| follows_range fun _ => follows_range fun _ =>
    follows_canonical fun _ => follows_canonical fun _ => follows_done rfl⟩
  split <;> next hf =>
    rw [hf] at isZero isOdd
    exact ⟨isZero, isOdd⟩

/-- Settles O28: FBINV writes the inverses of its elements. -/
theorem fbinvFollowsItsRule : Obligations.FbinvFollowsItsRule := by
  intro f s hw m k a
  refine complete_exists_wrote (R := fun r : Nat → Nat => ∀ i < k, 1 ≤ r i ∧ r i < m ∧ r i * a i % m = 1)
    (v := fun r => (List.range k).flatMap fun i => beBytes 32 (r i)) <|
    follows_range fun _ => follows_range fun _ => follows_overlap <|
    follows_bind (canonicals_follows s m (s.arg 0) k) fun as has => ?_
  obtain ⟨rfl, hlt⟩ := has
  refine follows_require (by rw [Bool.eq_iff_iff]; simp [a]) rfl rfl fun h0 => follows_done ?_
  have hall : ∀ i < k, a i ≠ 0 ∧ a i < m := fun i hi =>
    ⟨of_decide_eq_true h0 i (List.mem_range.2 hi), hlt _ (List.mem_map_of_mem (List.mem_range.2 hi))⟩
  refine ⟨fun i => invMod m (a i), fun i hi => invMod_inverts f (hall i hi).1 (hall i hi).2, ?_⟩
  rw [batchInverse_eq_map f (by simpa using hall), List.map_map, List.flatMap_map]
  exact finish_written _ _ _ hw

end Sys2Proof.Machine
end

section
/-! SUPPORT. The blocks of a byte string (00_scope.md R7). -/

namespace Sys2Proof.Machine

/-- Block `i` of a string is its bytes from `k·i` on. -/
theorem blocks_getElem (k : Nat) {n i : Nat} (s : List Byte) (h : i < (blocks k n s).length) :
    (blocks k n s)[i] = slice s (k * i) (k * i + k) := by
  induction n generalizing s i with
  | zero => simp [blocks] at h
  | succ n ih =>
    cases i with
    | zero => simp [blocks, slice]
    | succ i =>
      simp only [blocks, List.getElem_cons_succ, ih, slice, List.drop_drop, Nat.add_sub_cancel_left]
      rw [Nat.mul_succ, Nat.add_comm k]

/-- Word `i` of a string is its bytes from `4·i` on, read big-endian (20_memory.md R102). -/
theorem beWords_getElem (s : List Byte) {i : Nat} (h : i < (beWords s).length) :
    (beWords s)[i] = BitVec.ofNat 32 (beNat (slice s (4 * i) (4 * i + 4))) := by
  simp only [beWords, List.getElem_map, blocks_getElem]

end Sys2Proof.Machine
end

section
/-! SUPPORT. The SM3 compression function (41_sm3.md R241-R245): its expanded words and working words as sequences. -/

namespace Sys2Proof.Machine

/-! ### The expanded words (R241) -/

/-- The last of `n + 1` more words comes from the words before it. -/
theorem sm3Extend_succ (n : Nat) (ws : List Word) :
    sm3Extend (n + 1) ws = sm3NextW (sm3Extend n ws) :: sm3Extend n ws := by
  induction n generalizing ws with
  | zero => rfl
  | succ n ih => rw [sm3Extend, ih, sm3Extend]

@[simp] theorem sm3Extend_length (n : Nat) (ws : List Word) : (sm3Extend n ws).length = ws.length + n := by
  induction n with
  | zero => rfl
  | succ n ih => rw [sm3Extend_succ, List.length_cons, ih, Nat.add_assoc]

/-- More words leave the words there are in their places from the first on. -/
theorem sm3Extend_reverse_prefix (n d : Nat) (ws : List Word) :
    (sm3Extend n ws).reverse <+: (sm3Extend (n + d) ws).reverse := by
  induction d with
  | zero => exact List.prefix_rfl
  | succ d ih =>
    rw [← Nat.add_assoc, sm3Extend_succ, List.reverse_cons]
    exact ih.trans (List.prefix_append _ _)

/-- `W[j]` of the expansion of a block. -/
def sm3Word (block : List Byte) (j : Nat) : Word := (sm3Expand block).getD j 0

section
variable {block : List Byte} (hb : block.length = 64)
include hb

/-- After `n` extensions, with `W[j]` the next word for `j = 16 + n`, the word `W[j−k]` stands at index `k − 1`. -/
theorem sm3Extend_getD {n k : Nat} (hn : n ≤ 52) (hk : k < 16 + n) :
    (sm3Extend n (beWords block).reverse).getD k 0 = sm3Word block (16 + n - (k + 1)) := by
  have hlen : (sm3Extend n (beWords block).reverse).length = 16 + n := by simp [hb]
  obtain ⟨d, hd⟩ := Nat.exists_eq_add_of_le hn
  obtain ⟨rest, hrest⟩ := sm3Extend_reverse_prefix n d (beWords block).reverse
  have hback : 16 + n - 1 - (16 + n - (k + 1)) = k := by omega
  rw [sm3Word, sm3Expand, hd, ← hrest, List.getD_append _ _ _ _ (by rw [List.length_reverse, hlen]; omega),
    List.getD_reverse _ (by omega), hlen, hback]

/-- `W[0..15]` are the words of the block. -/
theorem sm3Word_of_lt {j : Nat} (hj : j < 16) :
    sm3Word block j = BitVec.ofNat 32 (beNat (slice block (4 * j) (4 * j + 4))) := by
  have hlen : (beWords block).length = 16 := by simp [hb]
  have hindex : 16 + 0 - (15 - j + 1) = j := by omega
  have hback : 16 - 1 - (15 - j) = j := by omega
  have hword := sm3Extend_getD hb (n := 0) (k := 15 - j) (by omega) (by omega)
  rw [hindex, sm3Extend, List.getD_reverse _ (by omega), hlen, hback, List.getD_eq_getElem _ _ (by omega),
    beWords_getElem] at hword
  exact hword.symm

/-- The recurrence of `W[16..67]`. -/
theorem sm3Word_of_ge {j : Nat} (hlo : 16 ≤ j) (hhi : j < 68) :
    sm3Word block j =
      sm3P1 (sm3Word block (j - 16) ^^^ sm3Word block (j - 9) ^^^ rotl (sm3Word block (j - 3)) 15) ^^^
        rotl (sm3Word block (j - 13)) 7 ^^^ sm3Word block (j - 6) := by
  obtain ⟨n, rfl⟩ := Nat.exists_eq_add_of_le hlo
  have hnext := sm3Extend_getD hb (n := n + 1) (k := 0) (by omega) (by omega)
  rw [sm3Extend_succ, List.getD_cons_zero, sm3NextW] at hnext
  have before {k : Nat} (hk : k < 16) := sm3Extend_getD hb (n := n) (k := k) (by omega) (by omega)
  simp (disch := decide) only [before] at hnext
  exact hnext.symm

end

/-! ### The working words (R242) -/

/-- The last of `n + 1` rounds from round `j` on is round `j + n`. -/
theorem sm3Rounds_succ (n j : Nat) (ws : List Word) (r : Sm3Regs) :
    sm3Rounds (n + 1) j ws r =
      sm3Round (sm3Rounds n j ws r) (j + n) (ws.getD n 0) (ws.getD n 0 ^^^ ws.getD (n + 4) 0) := by
  induction n generalizing j ws r with
  | zero => rfl
  | succ n ih =>
    have hsum : j + 1 + n = j + (n + 1) := by omega
    have htail (i : Nat) : ws.tail.getD i 0 = ws.getD (i + 1) 0 := by cases ws <;> rfl
    rw [sm3Rounds, ih, sm3Rounds, hsum, htail, htail, Nat.add_right_comm n 4 1]

/-- The working words before the rounds. -/
def sm3Start (v : Vector Word 8) : Sm3Regs :=
  { a := v[0], b := v[1], c := v[2], d := v[3], e := v[4], f := v[5], g := v[6], h := v[7] }

/-- The working words after `j` rounds on the expanded block. -/
def sm3Working (v : Vector Word 8) (block : List Byte) (j : Nat) : Sm3Regs :=
  sm3Rounds j 0 (sm3Expand block) (sm3Start v)

theorem sm3Working_succ (v : Vector Word 8) (block : List Byte) (j : Nat) :
    sm3Working v block (j + 1) =
      sm3Round (sm3Working v block j) j (sm3Word block j) (sm3Word block j ^^^ sm3Word block (j + 4)) := by
  rw [sm3Working, sm3Rounds_succ, Nat.zero_add, ← sm3Working, ← sm3Word, ← sm3Word]

/-- Settles O29: the sequences are the expanded words and the working words after `j` rounds; `R` is the model's rotation
(00_scope.md R8). -/
theorem compressionRunsItsRounds : Obligations.CompressionRunsItsRounds := by
  intro v blk hb R P0 P1 FF GG
  have hR : R = rotl := funext₂ fun x n => (rotl_eq x n).symm
  let r := sm3Working v blk
  refine ⟨sm3Word blk, fun j => (r j).a, fun j => (r j).b, fun j => (r j).c, fun j => (r j).d, fun j => (r j).e,
    fun j => (r j).f, fun j => (r j).g, fun j => (r j).h, fun j hj => sm3Word_of_lt hb hj, fun j hlo hhi => ?expand,
    rfl, rfl, rfl, rfl, rfl, rfl, rfl, rfl, fun j hj => ?round, rfl⟩
  case expand =>
    rw [sm3Word_of_ge hb hlo hhi]
    simp only [P1, hR, sm3P1]
  case round =>
    have hround := sm3Working_succ v blk j
    simp only [r, hround, P0, FF, GG, hR]
    exact ⟨rfl, rfl, rfl, rfl, rfl, rfl, rfl, rfl⟩

end Sys2Proof.Machine
end

section
/-! SUPPORT. SM3 as a stream (41_sm3.md R243, R246): compressing a string in two parts, padding its rest, and absorbing
it part by part. -/

namespace Sys2Proof.Machine

/-- What whole blocks leave of a string. -/
def blockRest (s : List Byte) : List Byte := s.drop (64 * (s.length / 64))

section
variable (v : Vector Word 8) {s : List Byte}

theorem sm3Blocks_of_lt (h : s.length < 64) : sm3Blocks v s = v := by
  rw [sm3Blocks, Nat.div_eq_of_lt h]
  rfl

/-- The first block is compressed first. -/
theorem sm3Blocks_of_ge (h : 64 ≤ s.length) : sm3Blocks v s = sm3Blocks (sm3CF v (s.take 64)) (s.drop 64) := by
  have hcount : s.length / 64 = (s.drop 64).length / 64 + 1 := by
    rw [List.length_drop]
    omega
  rw [sm3Blocks, hcount, blocks, List.foldl_cons, sm3Blocks]

theorem blockRest_of_lt (h : s.length < 64) : blockRest s = s := by
  rw [blockRest, Nat.div_eq_of_lt h]
  rfl

theorem blockRest_of_ge (h : 64 ≤ s.length) : blockRest s = blockRest (s.drop 64) := by
  have hcount : 64 * (s.length / 64) = 64 + 64 * ((s.length - 64) / 64) := by omega
  rw [blockRest, hcount, blockRest, List.drop_drop, List.length_drop]

end

@[simp] theorem blockRest_length (s : List Byte) : (blockRest s).length = s.length % 64 := by
  rw [blockRest, List.length_drop]
  omega

/-- Compressing `s ‖ t` is compressing the whole blocks of `s`, then what they leave of `s` with `t`. -/
theorem sm3Blocks_append (v : Vector Word 8) (s t : List Byte) :
    sm3Blocks v (s ++ t) = sm3Blocks (sm3Blocks v s) (blockRest s ++ t) := by
  induction hn : s.length / 64 generalizing v s with
  | zero =>
    have hlt : s.length < 64 := by omega
    rw [sm3Blocks_of_lt v hlt, blockRest_of_lt hlt]
  | succ n ih =>
    have hge : 64 ≤ s.length := by omega
    rw [sm3Blocks_of_ge v hge, blockRest_of_ge hge, sm3Blocks_of_ge v (by rw [List.length_append]; omega),
      List.take_append_of_le_length hge, List.drop_append_of_le_length hge]
    exact ih _ _ (by rw [List.length_drop]; omega)

theorem blockRest_append (s t : List Byte) : blockRest (s ++ t) = blockRest (blockRest s ++ t) := by
  induction hn : s.length / 64 generalizing s with
  | zero => rw [blockRest_of_lt (s := s) (by omega)]
  | succ n ih =>
    have hge : 64 ≤ s.length := by omega
    rw [blockRest_of_ge hge, blockRest_of_ge (by rw [List.length_append]; omega), List.drop_append_of_le_length hge]
    exact ih _ (by rw [List.length_drop]; omega)

/-- Padding looks only at how many bytes the last block has. -/
theorem sm3Blocks_sm3Pad (v : Vector Word 8) (m : List Byte) (l : Nat) :
    sm3Blocks v (sm3Pad m l) = sm3Blocks (sm3Blocks v m) (sm3Pad (blockRest m) l) := by
  simp only [sm3Pad, blockRest_length, Nat.mod_mod, List.append_assoc]
  exact sm3Blocks_append v m _

/-! ### Absorbing (R246) -/

/-- A context is its three fields (10_state.md R64). -/
theorem context_eq {c d : Sm3Context} (hv : c.v = d.v) (hbuf : c.buf = d.buf) (hbitlen : c.bitlen = d.bitlen) :
    c = d := by
  cases c
  cases d
  exact (Sm3Context.mk.injEq ..).mpr ⟨hv, hbuf, hbitlen⟩

section
variable (c : Sm3Context) (s : List Byte)

theorem absorb_v : (c.absorb s).v = sm3Blocks c.v (c.buf ++ s) := rfl

theorem absorb_buf : (c.absorb s).buf = blockRest (c.buf ++ s) := rfl

theorem absorb_bitlen : (c.absorb s).bitlen = c.bitlen + BitVec.ofNat 64 (8 * s.length) := rfl

theorem absorb_buf_length_lt : (c.absorb s).buf.length < 64 := by
  rw [absorb_buf, blockRest_length]
  exact Nat.mod_lt _ (by decide)

/-- Absorbing two strings one after the other is absorbing them as one. -/
theorem absorb_append (t : List Byte) : (c.absorb s).absorb t = c.absorb (s ++ t) := by
  apply context_eq
  · rw [absorb_v, absorb_v, absorb_v, absorb_buf, ← sm3Blocks_append, List.append_assoc]
  · rw [absorb_buf, absorb_buf, absorb_buf, ← blockRest_append, List.append_assoc]
  · rw [absorb_bitlen, absorb_bitlen, absorb_bitlen, List.length_append, Nat.mul_add, BitVec.ofNat_add,
      BitVec.add_assoc]

variable {c}

theorem absorb_nil (hc : c.buf.length < 64) : c.absorb [] = c := by
  apply context_eq
  · rw [absorb_v, List.append_nil, sm3Blocks_of_lt c.v hc]
  · rw [absorb_buf, List.append_nil, blockRest_of_lt hc]
  · rw [absorb_bitlen]
    exact BitVec.add_zero _

/-- Absorbing the parts of a string in order is absorbing the string. -/
theorem foldl_absorb (parts : List (List Byte)) (hc : c.buf.length < 64) :
    parts.foldl Sm3Context.absorb c = c.absorb parts.flatten := by
  induction parts generalizing c with
  | nil => exact (absorb_nil hc).symm
  | cons s parts ih => rw [List.foldl_cons, ih (absorb_buf_length_lt c s), absorb_append, List.flatten_cons]

end

/-- Finishing after one string of fewer than 2^64 bits is SM3 of it (R243). -/
theorem final_absorb_iv {m : List Byte} (hm : 8 * m.length < 2 ^ 64) : (Sm3Context.iv.absorb m).final = sm3Hash m := by
  have hv : (Sm3Context.iv.absorb m).v = sm3Blocks sm3Iv m := rfl
  have hbuf : (Sm3Context.iv.absorb m).buf = blockRest m := rfl
  have hbits : (Sm3Context.iv.absorb m).bitlen.toNat = 8 * m.length := by
    rw [absorb_bitlen, show Sm3Context.iv.bitlen = 0#64 from rfl, BitVec.zero_add]
    exact Nat.mod_eq_of_lt hm
  rw [Sm3Context.final, hv, hbuf, hbits, ← sm3Blocks_sm3Pad, sm3Hash]

/-- Settles O31: the recurrence from the first block of `T`, and one message for all its splits. -/
theorem streamingEqualsOneShot : Obligations.StreamingEqualsOneShot := by
  refine ⟨fun c S _ => ?recurrence, fun parts hbits => ?split⟩
  case recurrence =>
    exact ⟨absorb_bitlen c S, absorb_buf_length_lt c S, fun hlt => ⟨sm3Blocks_of_lt c.v hlt,
      blockRest_of_lt hlt⟩, fun hge => ⟨sm3Blocks_of_ge c.v hge, blockRest_of_ge hge⟩, rfl⟩
  case split => rw [foldl_absorb parts (c := Sm3Context.iv) (by decide), final_absorb_iv hbits]

end Sys2Proof.Machine
end

section
/-! SUPPORT. HMAC and HKDF as their rules write them (41_sm3.md R247, R248). -/

namespace Sys2Proof.Machine

/-! ### HMAC (R247) -/

theorem xorBytes_copies (s : List Byte) (b : Byte) : xorBytes s (copies b s.length) = s.map (· ^^^ b) := by
  induction s with
  | nil => rfl
  | cons a s ih => exact congrArg (List.cons (a ^^^ b)) ih

theorem hmacKey_length (key : List Byte) : (hmacKey key).length = 64 := by
  simp only [hmacKey, List.length_append, copies_length]
  split
  · rw [sm3Hash_length]
  · omega

/-- The two pads are the key with each byte changed. -/
theorem hmacSm3_eq (key msg : List Byte) :
    hmacSm3 key msg =
      sm3Hash ((hmacKey key).map (· ^^^ 0x5C) ++ sm3Hash ((hmacKey key).map (· ^^^ 0x36) ++ msg)) := by
  rw [hmacSm3, ← xorBytes_copies, ← xorBytes_copies, hmacKey_length]

/-! ### HKDF (R248) -/

/-- `T(i)` of the expand step, `T(0)` empty. -/
def hkdfBlock (prk info : List Byte) : Nat → List Byte
  | 0 => []
  | i + 1 => hmacSm3 prk (hkdfBlock prk info i ++ info ++ [BitVec.ofNat 8 (i + 1)])

theorem beBytes_one (x : Nat) : beBytes 1 x = [BitVec.ofNat 8 x] := by simp [beBytes]

/-- `n` blocks after `T(i)` are `T(i+1)` to `T(i+n)`. -/
theorem hkdfExpand_eq (prk info : List Byte) (n i : Nat) :
    hkdfExpand prk info n (i + 1) (hkdfBlock prk info i) =
      (List.range n).flatMap fun k => hkdfBlock prk info (i + k + 1) := by
  induction n generalizing i with
  | zero => rfl
  | succ n ih =>
    have hshift (k : Nat) : i + 1 + k + 1 = i + (k + 1) + 1 := by omega
    have hblock : hmacSm3 prk (hkdfBlock prk info i ++ info ++ beBytes 1 (i + 1)) = hkdfBlock prk info (i + 1) := by
      rw [beBytes_one, hkdfBlock]
    simp only [hkdfExpand, hblock, ih, hshift, List.range_succ_eq_map, List.flatMap_cons, List.flatMap_map]

/-- HKDF is the first `l` bytes of its chain of blocks. -/
theorem hkdfSm3_eq (ikm : List Byte) (salt : Option (List Byte)) (info : List Byte) (l : Nat) :
    hkdfSm3 ikm salt info l =
      ((List.range ((l + 31) / 32)).flatMap fun i =>
        hkdfBlock (hmacSm3 (salt.getD (List.replicate 32 0)) ikm) info (i + 1)).take l := by
  have hchain := hkdfExpand_eq (hmacSm3 (salt.getD (List.replicate 32 0)) ikm) info ((l + 31) / 32) 0
  simp only [Nat.zero_add] at hchain
  exact congrArg (List.take l) hchain

end Sys2Proof.Machine
end

section
/-! SUPPORT. The SM3 commands (41_sm3.md R250-R256): each command's checks against its guards, and what it then
leaves. -/

namespace Sys2Proof.Machine

/-- What a command whose checks follow its guards answers, its result in any form that its completion gives. -/
theorem complete_of_follows {s : State} {gs : List Guard} {x : Check Effects} {Q : State → Prop} {answer : Prop}
    (h : Follows gs x fun e => Q (s.finish e)) (hanswer : ∀ t, s.complete x = .next t → Q t → answer) :
    match firstFailed gs with
    | some (c, d) => s.complete x = .next (s.errored c d)
    | none => answer := by
  split
  · next hf => exact complete_of_firstFailed_some h hf
  · next hf =>
    obtain ⟨t, ht, hQ⟩ := complete_of_firstFailed_none h hf
    exact hanswer t ht hQ

theorem finish_context (s : State) (c : Sm3Context) :
    s.finish { sm3 := some c } = { s.judged false with sm3 := c } := by
  simp [State.finish, State.judged]

/-- A command that stages a new SM3 context alone (R251, R253). -/
theorem complete_context {s : State} {gs : List Guard} {x : Check Effects} {c : Sm3Context}
    (h : Follows gs x fun e => e = { sm3 := some c }) :
    match firstFailed gs with
    | some (code, detail) => s.complete x = .next (s.errored code detail)
    | none => s.complete x = .next { s.judged false with sm3 := c } :=
  complete_of_follows (Q := fun t => t = { s.judged false with sm3 := c })
    (follows_imp h fun _ he => he ▸ finish_context s c) fun _ ht hQ => hQ ▸ ht

/-- A command that stages an output and a new SM3 context (R252). -/
theorem finish_written_context {s : State} (addr : Nat) (v : List Byte) (c : Sm3Context) (hw : s.lmem.wf = true) :
    let t := s.finish { written addr v with sm3 := some c }
    t.sm3 = c ∧ Wrote s { t with sm3 := s.sm3 } addr v false :=
  ⟨rfl, finish_written addr v false hw⟩

/-- Settles O30: check by check. -/
theorem streamingCommandsFollowTheirRules : Obligations.StreamingCommandsFollowTheirRules := by
  intro s hw
  refine ⟨congrArg _ (finish_context s _), ?upd, ?fin, ?cf⟩
  case upd => exact complete_context <| follows_range fun _ => follows_require rfl rfl rfl fun _ => follows_done rfl
  case fin =>
    exact complete_follows (Q := fun t => t.sm3 = Sm3Context.iv ∧ Wrote s { t with sm3 := s.sm3 } _ _ false) <|
      follows_range fun _ => follows_done (finish_written_context _ _ _ hw)
  case cf => exact complete_context <| follows_range fun _ => follows_done rfl

/-- The zeros that fill a message and its 0x80 up to 56 bytes of a block (R243). -/
theorem sm3Pad_zeros (n : Nat) : (119 - n % 64) % 64 < 64 ∧ (n + 1 + (119 - n % 64) % 64) % 64 = 56 := by omega

/-- Settles O32: SM3 of the message by its definition, HMAC with its pads as bytes changed. -/
theorem sm3hashAndHmacFollowTheirRules : Obligations.Sm3hashAndHmacFollowTheirRules := by
  intro s hw
  refine ⟨?hash, ?hmac⟩
  case hash =>
    obtain ⟨hlt, hfill⟩ := sm3Pad_zeros (s.memRead (s.arg 0) (s.arg 1)).length
    exact complete_of_follows (follows_range fun _ => follows_range fun _ => follows_overlap <|
      follows_done (finish_written _ _ _ hw)) fun t ht hwrote => ⟨_, t, hlt, hfill, ht, hwrote⟩
  case hmac =>
    exact complete_follows <| follows_range fun _ => follows_range fun _ => follows_range fun _ => follows_overlap <|
      follows_done (hmacSm3_eq _ _ ▸ finish_written _ _ _ hw)

/-- An absent salt is 32 zero bytes (R248). -/
theorem salt_getD (n : Nat) (salt : List Byte) :
    (if n = 0 then none else some salt).getD (List.replicate 32 0) = if n = 0 then List.replicate 32 0 else salt := by
  split <;> rfl

/-- Settles O33: the chain of blocks is `hkdfBlock`. -/
theorem hkdfFollowsItsRule : Obligations.HkdfFollowsItsRule := by
  intro s hw
  refine complete_of_follows (Q := fun t => Wrote s t (s.arg 7) _ false) (follows_range fun _ => follows_range fun _ =>
    follows_range fun _ => follows_range fun _ => follows_overlap <| follows_require rfl rfl rfl fun _ =>
    follows_done (finish_written _ _ _ hw)) fun t ht hwrote => ?_
  intro salt PRK
  rw [hkdfSm3_eq, salt_getD] at hwrote
  refine ⟨hkdfBlock PRK (s.memRead (s.arg 4) (s.arg 5)), t, rfl, fun i hi _ => ?chain, ht, hwrote⟩
  case chain =>
    obtain ⟨k, rfl⟩ := Nat.exists_eq_add_of_le' hi
    rfl

end Sys2Proof.Machine
end

section
/-! SUPPORT. Strings as lists of blocks and words, and reading LMEM in parts (00_scope.md R7, 20_memory.md R102). -/

namespace Sys2Proof.Machine

theorem blocks_eq_map (k n : Nat) (s : List Byte) :
    blocks k n s = (List.range n).map fun i => slice s (k * i) (k * i + k) :=
  List.ext_getElem (by simp) fun i h _ => by rw [blocks_getElem k s h, List.getElem_map, List.getElem_range]

/-- Part of what a read gives is a shorter read. -/
theorem slice_memRead (s : State) (addr : Nat) {n i j : Nat} (hj : j ≤ n) :
    slice (s.memRead addr n) i j = s.memRead (addr + i) (j - i) := by
  refine List.ext_getElem ?_ fun m h _ => ?_
  · rw [slice_length, memRead_length, memRead_length]
    omega
  · simp only [slice, State.memRead, List.getElem_take, List.getElem_drop, Memory.readBytes_getElem, Nat.add_assoc]

/-- Packing the bytes of words gives the words back. -/
theorem beWords_wordBytes (ws : List Word) : beWords (wordBytes ws) = ws := by
  induction ws with
  | nil => rfl
  | cons w ws ih =>
    have hcount : (wordBytes (w :: ws)).length / 4 = (wordBytes ws).length / 4 + 1 := by
      simp only [wordBytes_length, List.length_cons]
      omega
    have hbytes : wordBytes (w :: ws) = beBytes 4 w.toNat ++ wordBytes ws := rfl
    have hword : BitVec.ofNat 32 (beNat (beBytes 4 w.toNat)) = w := by
      rw [beNat_beBytes, Nat.mod_eq_of_lt (show w.toNat < 256 ^ 4 from w.isLt), BitVec.ofNat_toNat, BitVec.setWidth_eq]
    rw [beWords, hcount, hbytes, blocks, List.map_cons, List.take_left' (beBytes_length ..),
      List.drop_left' (beBytes_length ..), hword, ← beWords, ih]

/-- Unpacking the words of a string of whole words gives the string back. -/
theorem wordBytes_beWords {s : List Byte} (hs : s.length % 4 = 0) : wordBytes (beWords s) = s := by
  obtain ⟨n, hn⟩ := Nat.dvd_of_mod_eq_zero hs
  induction n generalizing s with
  | zero =>
    obtain rfl := List.eq_nil_of_length_eq_zero hn
    rfl
  | succ n ih =>
    have htail : (s.drop 4).length = 4 * n := by rw [List.length_drop]; omega
    have hword : beBytes 4 (BitVec.ofNat 32 (beNat (s.take 4))).toNat = s.take 4 := by
      have hlen : (s.take 4).length = 4 := by rw [List.length_take]; omega
      have hencode := beBytes_beNat (s.take 4)
      rw [BitVec.toNat_ofNat]
      rw [hlen] at hencode
      exact (beBytes_mod 4 _).trans hencode
    have hwords : beWords s = BitVec.ofNat 32 (beNat (s.take 4)) :: beWords (s.drop 4) := by
      rw [beWords, hn, show 4 * (n + 1) / 4 = n + 1 by omega, blocks, List.map_cons, beWords, htail,
        show 4 * n / 4 = n by omega]
    rw [hwords, wordBytes, List.flatMap_cons, hword, ← wordBytes, ih (by omega) htail, List.take_append_drop]

/-- A property of the empty string that a block in front keeps holds of every string of whole blocks. -/
theorem wholeBlocks_induction {P : List Byte → Prop} (nil : P [])
    (block : ∀ b d : List Byte, b.length = 16 → P d → P (b ++ d)) {d : List Byte} (hd : d.length % 16 = 0) : P d := by
  obtain ⟨n, hn⟩ := Nat.dvd_of_mod_eq_zero hd
  induction n generalizing d with
  | zero => exact List.eq_nil_of_length_eq_zero hn ▸ nil
  | succ n ih =>
    have htail : (d.drop 16).length = 16 * n := by rw [List.length_drop]; omega
    rw [← List.take_append_drop 16 d]
    exact block _ _ (by rw [List.length_take]; omega) (ih (by omega) htail)

theorem xorBytes_xorBytes {s t : List Byte} (h : s.length = t.length) : xorBytes (xorBytes s t) t = s := by
  refine List.ext_getElem (by simp [h]) fun i _ _ => ?_
  simp only [xorBytes, List.getElem_zipWith]
  rw [BitVec.xor_assoc, BitVec.xor_self, BitVec.xor_zero]

end Sys2Proof.Machine
end

section
/-! SUPPORT. The SM4 block function and key schedule (42_sm4.md R281-R286): both are one recurrence on words, four of them
at a time. -/

namespace Sys2Proof.Machine

/-! ### The S-box and τ (R282, R283) -/

theorem sm4Sbox_eq_table : ∀ b : Byte, sm4Sbox b = sboxTable.getD b.toNat 0 := by decide

theorem sboxTable_length : sboxTable.length = 256 := by
  simp only [sboxTable, List.length_append, List.length_cons, List.length_nil, Nat.zero_add, Nat.reduceAdd]

theorem sboxTable_nodup : sboxTable.Nodup := List.Nodup.of_map BitVec.toNat (by decide +kernel)

theorem sm4Tau_eq (x : Word) :
    let S := fun b : Byte => sboxTable.getD b.toNat 0
    sm4Tau x = BitVec.ofNat 32 (beNat [S (x.extractLsb' 24 8), S (x.extractLsb' 16 8), S (x.extractLsb' 8 8),
      S (x.extractLsb' 0 8)]) := by
  intro S
  have hbyte (n : Nat) : x.extractLsb' n 8 = BitVec.ofNat 8 (x.toNat / 2 ^ n) := by
    rw [BitVec.extractLsb', Nat.shiftRight_eq_div_pow]
  have hS : S = sm4Sbox := funext fun b => (sm4Sbox_eq_table b).symm
  simp only [hS, hbyte]
  rfl

/-! ### The recurrence (R284, R286) -/

/-- The next four words: `X_{i+4} = X_i ⊕ F(X_{i+1} ⊕ X_{i+2} ⊕ X_{i+3} ⊕ k)`. -/
def sm4Next (F : Word → Word) (x : Sm4Words) (k : Word) : Sm4Words :=
  { x0 := x.x1, x1 := x.x2, x2 := x.x3, x3 := x.x0 ^^^ F (x.x1 ^^^ x.x2 ^^^ x.x3 ^^^ k) }

/-- The four words from `X_i` on, the first four being `x`. -/
def sm4Window (F : Word → Word) (k : Nat → Word) (x : Sm4Words) : Nat → Sm4Words
  | 0 => x
  | i + 1 => sm4Next F (sm4Window F k x i) (k i)

/-- `X_i`. -/
def sm4Seq (F : Word → Word) (k : Nat → Word) (x : Sm4Words) (i : Nat) : Word := (sm4Window F k x i).x0

section
variable (F : Word → Word) (k : Nat → Word) (x : Sm4Words) (i : Nat)

theorem sm4Window_eq_seq :
    sm4Window F k x i =
      ⟨sm4Seq F k x i, sm4Seq F k x (i + 1), sm4Seq F k x (i + 2), sm4Seq F k x (i + 3)⟩ := rfl

theorem sm4Seq_add_four :
    sm4Seq F k x (i + 4) =
      sm4Seq F k x i ^^^ F (sm4Seq F k x (i + 1) ^^^ sm4Seq F k x (i + 2) ^^^ sm4Seq F k x (i + 3) ^^^ k i) := rfl

theorem sm4Seq_of_lt {ws : List Word} (h0 : x.x0 = ws.getD 0 0) (h1 : x.x1 = ws.getD 1 0) (h2 : x.x2 = ws.getD 2 0)
    (h3 : x.x3 = ws.getD 3 0) {i : Nat} (hi : i < 4) : sm4Seq F k x i = ws.getD i 0 := by
  match i, hi with
  | 0, _ => exact h0
  | 1, _ => exact h1
  | 2, _ => exact h2
  | 3, _ => exact h3

/-- The first step taken apart: the rest is the recurrence on the keys that are left. -/
theorem sm4Window_succ_left :
    sm4Window F k x (i + 1) = sm4Window F (fun j => k (j + 1)) (sm4Next F x (k 0)) i := by
  induction i with
  | zero => rfl
  | succ i ih => rw [sm4Window, ih, sm4Window]

end

/-! ### The rounds (R286) -/

/-- The rounds on a list of keys are the recurrence with T. -/
theorem foldl_sm4Round (rks : List Word) (x : Sm4Words) :
    rks.foldl sm4Round x = sm4Window sm4T (fun i => rks.getD i 0) x rks.length := by
  induction rks generalizing x with
  | nil => rfl
  | cons rk rks ih =>
    rw [List.foldl_cons, ih, List.length_cons, sm4Window_succ_left]
    rfl

/-- Word `i` of a block, read big-endian (R281). -/
theorem sm4Seq_sm4Words (F : Word → Word) (k : Nat → Word) {b : List Byte} (hb : b.length = 16) {i : Nat} (hi : i < 4) :
    sm4Seq F k (sm4Words b) i = BitVec.ofNat 32 (beNat (slice b (4 * i) (4 * i + 4))) := by
  have hlen : i < (beWords b).length := by rw [beWords_length]; omega
  rw [sm4Seq_of_lt F k (sm4Words b) rfl rfl rfl rfl hi, List.getD_eq_getElem _ _ hlen, beWords_getElem]

/-- Enc gives the words 35, 34, 33 and 32 of the recurrence. -/
theorem sm4Enc_eq (rk : Vector Word 32) (b : List Byte) :
    let X := sm4Seq sm4T (fun i => rk.toList.getD i 0) (sm4Words b)
    sm4Enc rk b = beBytes 4 (X 35).toNat ++ beBytes 4 (X 34).toNat ++ beBytes 4 (X 33).toNat ++
      beBytes 4 (X 32).toNat := by
  intro X
  rw [sm4Enc, sm4Block, foldl_sm4Round, Vector.length_toList, sm4Window_eq_seq]
  simp only [wordBytes, List.flatMap_cons, List.flatMap_nil, List.append_nil, List.append_assoc]
  rfl

/-! ### Decryption (R286) -/

/-- Four words in reverse order. -/
def Sm4Words.swap (x : Sm4Words) : Sm4Words := { x0 := x.x3, x1 := x.x2, x2 := x.x1, x3 := x.x0 }

/-- A round on the words of a round in reverse order takes the round back. -/
theorem sm4Round_swap (x : Sm4Words) (rk : Word) : sm4Round (sm4Round x rk).swap rk = x.swap := by
  have hargs : x.x3 ^^^ x.x2 ^^^ x.x1 = x.x1 ^^^ x.x2 ^^^ x.x3 := by ac_rfl
  simp only [sm4Round, Sm4Words.swap, hargs]
  rw [BitVec.xor_assoc x.x0, BitVec.xor_self, BitVec.xor_zero]

theorem foldl_reverse_sm4Round_swap (rks : List Word) (x : Sm4Words) :
    rks.reverse.foldl sm4Round (rks.foldl sm4Round x).swap = x.swap := by
  induction rks generalizing x with
  | nil => rfl
  | cons rk rks ih =>
    rw [List.reverse_cons, List.foldl_append, List.foldl_cons, List.foldl_nil, List.foldl_cons, ih]
    exact sm4Round_swap x rk

theorem sm4Words_wordBytes (x0 x1 x2 x3 : Word) :
    sm4Words (wordBytes [x0, x1, x2, x3]) = { x0 := x0, x1 := x1, x2 := x2, x3 := x3 } := by
  rw [sm4Words, beWords_wordBytes]
  rfl

theorem wordBytes_sm4Words {b : List Byte} (hb : b.length = 16) :
    wordBytes [(sm4Words b).x0, (sm4Words b).x1, (sm4Words b).x2, (sm4Words b).x3] = b := by
  have hlen : (beWords b).length = 4 := by rw [beWords_length, hb]
  obtain ⟨x0, x1, x2, x3, hwords⟩ := List.length_eq_four.mp hlen
  simp only [sm4Words, hwords]
  exact hwords ▸ wordBytes_beWords (by rw [hb])

/-- The block function with the keys in reverse order undoes it. -/
theorem sm4Block_reverse_sm4Block (rks : List Word) {b : List Byte} (hb : b.length = 16) :
    sm4Block rks.reverse (sm4Block rks b) = b := by
  have hswap : sm4Words (sm4Block rks b) = (rks.foldl sm4Round (sm4Words b)).swap := sm4Words_wordBytes ..
  rw [sm4Block, hswap, foldl_reverse_sm4Round_swap]
  exact wordBytes_sm4Words hb

theorem sm4Dec_sm4Enc (rk : Vector Word 32) {b : List Byte} (hb : b.length = 16) : sm4Dec rk (sm4Enc rk b) = b :=
  sm4Block_reverse_sm4Block rk.toList hb

theorem sm4Dec_eq_sm4Enc_reverse (rk : Vector Word 32) (b : List Byte) : sm4Dec rk b = sm4Enc rk.reverse b := by
  rw [sm4Dec, sm4Enc, Vector.toList_reverse]

/-- Settles O35: the words are the recurrence with T on the block's four words. -/
theorem blockFunctionRunsItsRounds : Obligations.BlockFunctionRunsItsRounds := by
  unfold Obligations.BlockFunctionRunsItsRounds
  intro S R τ L L' T T'
  have hS : S = sm4Sbox := funext fun b => (sm4Sbox_eq_table b).symm
  have hR : R = rotl := funext₂ fun x n => (rotl_eq x n).symm
  have hτ : τ = sm4Tau := funext fun x => (sm4Tau_eq x).symm
  have hL : L = sm4L := by simp only [L, hR]; rfl
  have hL' : L' = sm4L' := by simp only [L', hR]; rfl
  have hT : T = sm4T := by simp only [T, hL, hτ]; rfl
  have hT' : T' = sm4T' := by simp only [T', hL', hτ]; rfl
  rw [hS, hτ, hL, hL', hT, hT']
  refine ⟨fun _ => rfl, sboxTable_length, sboxTable_nodup, fun _ => ⟨rfl, rfl, rfl, rfl, rfl⟩, fun rk b hb =>
    ⟨⟨sm4Seq sm4T (fun i => rk.toList.getD i 0) (sm4Words b), fun i hi => sm4Seq_sm4Words _ _ hb hi,
      fun i hi => ?round, sm4Enc_eq rk b⟩, sm4Dec_eq_sm4Enc_reverse rk b, sm4Dec_sm4Enc rk hb⟩⟩
  case round =>
    have hkey : rk.toList.getD i 0 = rk[i] := by
      rw [List.getD_eq_getElem _ _ (by rwa [Vector.length_toList]), Vector.getElem_toList]
    rw [sm4Seq_add_four, hkey]

/-! ### The key schedule (R284) -/

/-- The schedule lists the words of the recurrence with T' from the fifth on. -/
theorem sm4Schedule_getD {n : Nat} (i : Nat) (x : Sm4Words) {j : Nat} (hj : j < n) :
    (sm4Schedule n i x).getD j 0 = sm4Seq sm4T' (fun m => sm4CK (i + m)) x (j + 4) := by
  induction n generalizing i x j with
  | zero => omega
  | succ n ih =>
    cases j with
    | zero => rfl
    | succ j =>
      have hkeys (m : Nat) : i + 1 + m = i + (m + 1) := by omega
      have htail := ih (i + 1) (sm4Next sm4T' x (sm4CK i)) (j := j) (by omega)
      simp only [hkeys] at htail
      rw [sm4Seq, sm4Window_succ_left]
      exact htail

/-- The first four words of the schedule: the key's words, each with its FK. -/
def sm4KeyWords (mk : List Byte) : Sm4Words :=
  let m := sm4Words mk
  { x0 := m.x0 ^^^ sm4Fk.getD 0 0, x1 := m.x1 ^^^ sm4Fk.getD 1 0
    x2 := m.x2 ^^^ sm4Fk.getD 2 0, x3 := m.x3 ^^^ sm4Fk.getD 3 0 }

theorem sm4KeySchedule_getElem (mk : List Byte) {i : Nat} (hi : i < 32) :
    (sm4KeySchedule mk)[i] = sm4Seq sm4T' sm4CK (sm4KeyWords mk) (i + 4) := by
  have hword := sm4Schedule_getD 0 (sm4KeyWords mk) hi
  simp only [Nat.zero_add] at hword
  rw [sm4KeySchedule, Vector.getElem_ofFn]
  exact hword

theorem sm4Seq_sm4KeyWords {mk : List Byte} (hmk : mk.length = 16) {i : Nat} (hi : i < 4) :
    sm4Seq sm4T' sm4CK (sm4KeyWords mk) i =
      BitVec.ofNat 32 (beNat (slice mk (4 * i) (4 * i + 4))) ^^^ sm4Fk.getD i 0 := by
  rw [← sm4Seq_sm4Words sm4T' sm4CK hmk hi]
  match i, hi with
  | 0, _ | 1, _ | 2, _ | 3, _ => rfl

theorem finish_roundKeys (s : State) (rk : Vector Word 32) :
    s.finish { roundKeys := some rk } = { s.judged false with rk := rk, keyv := true } := by
  simp [State.finish, State.judged]

/-- Settles O34: the round keys are the recurrence with T' on the key's words. -/
theorem sm4keyFollowsItsRule : Obligations.Sm4keyFollowsItsRule := by
  intro s
  let mk := s.memRead (s.arg 0) 16
  have hmk : mk.length = 16 := memRead_length ..
  refine complete_of_follows (Q := fun t => t = s.finish { roundKeys := some (sm4KeySchedule mk) })
    (follows_range fun _ => follows_done rfl) fun t ht hQ => ?_
  intro S R τ T'
  have hR : R = rotl := funext₂ fun x n => (rotl_eq x n).symm
  have hτ : τ = sm4Tau := funext fun x => (sm4Tau_eq x).symm
  have hT' : T' = sm4T' := by simp only [T', hR, hτ]; rfl
  rw [hT']
  refine ⟨sm4Seq sm4T' sm4CK (sm4KeyWords mk), sm4KeySchedule mk, fun i hi => ?words, fun _ _ => rfl,
    fun i hi => sm4KeySchedule_getElem mk hi, ?next⟩
  case words =>
    have hpart := slice_memRead s (s.arg 0) (n := 16) (i := 4 * i) (j := 4 * i + 4) (by omega)
    rw [Nat.add_sub_cancel_left] at hpart
    rw [sm4Seq_sm4KeyWords hmk hi, hpart]
    rfl
  case next => rw [← finish_roundKeys, ← hQ]; exact ht

end Sys2Proof.Machine
end

section
/-! SUPPORT. The SM4 modes of operation and the padding (42_sm4.md R285, R287): block by block, and decryption after
encryption. -/

namespace Sys2Proof.Machine

/-! ### The blocks of a mode (R287) -/

/-- The ciphertext blocks of CBC: `C_0 = IV`, `C_{i+1} = Enc(B_i ⊕ C_i)`. -/
def sm4CbcChain (rk : Vector Word 32) (iv : List Byte) (B : Nat → List Byte) : Nat → List Byte
  | 0 => iv
  | i + 1 => sm4Enc rk (xorBytes (B i) (sm4CbcChain rk iv B i))

section
variable (rk : Vector Word 32) (iv : List Byte) (B : Nat → List Byte)

/-- The chain from its second block on is the chain that starts there. -/
theorem sm4CbcChain_succ_left (i : Nat) :
    sm4CbcChain rk iv B (i + 1) = sm4CbcChain rk (sm4Enc rk (xorBytes (B 0) iv)) (fun j => B (j + 1)) i := by
  induction i with
  | zero => rfl
  | succ i ih => rw [sm4CbcChain, ih, sm4CbcChain]

theorem sm4CbcEncBlocks_map (n : Nat) :
    sm4CbcEncBlocks rk iv ((List.range n).map B) = (List.range n).flatMap fun i => sm4CbcChain rk iv B (i + 1) := by
  induction n generalizing iv B with
  | zero => rfl
  | succ n ih =>
    have htail := ih (sm4Enc rk (xorBytes (B 0) iv)) fun j => B (j + 1)
    simp only [← sm4CbcChain_succ_left] at htail
    rw [List.range_succ_eq_map, List.map_cons, List.map_map, List.flatMap_cons, List.flatMap_map]
    exact congrArg (sm4Enc rk (xorBytes (B 0) iv) ++ ·) htail

theorem sm4CbcDecBlocks_map (n : Nat) :
    sm4CbcDecBlocks rk iv ((List.range n).map B) =
      (List.range n).flatMap fun i => xorBytes (sm4Dec rk (B i)) (if i = 0 then iv else B (i - 1)) := by
  induction n generalizing iv B with
  | zero => rfl
  | succ n ih =>
    have hprev (i : Nat) : (if i = 0 then B 0 else B (i - 1 + 1)) = B i := by
      split
      · next h => rw [h]
      · next h => rw [Nat.sub_add_cancel (Nat.pos_of_ne_zero h)]
    have htail := ih (B 0) fun j => B (j + 1)
    simp only [hprev] at htail
    rw [List.range_succ_eq_map, List.map_cons, List.map_map, List.flatMap_cons, List.flatMap_map]
    exact congrArg (xorBytes (sm4Dec rk (B 0)) iv ++ ·) htail

end

/-- Settles O37: a string of `n` blocks is the list of its slices. -/
theorem modesChainTheirBlocks : Obligations.ModesChainTheirBlocks := by
  intro rk n d iv hd _ B
  have hblocks : blocks 16 (d.length / 16) d = (List.range n).map B := by
    rw [hd, Nat.mul_div_cancel_left n (by decide), blocks_eq_map]
  refine ⟨?ecbEnc, ?ecbDec, ⟨sm4CbcChain rk iv B, rfl, fun _ _ => rfl, ?cbcEnc⟩, ?cbcDec⟩
  case ecbEnc | ecbDec => rw [sm4Ecb, hblocks, List.flatMap_map]
  case cbcEnc => rw [sm4CbcEnc, hblocks, sm4CbcEncBlocks_map]
  case cbcDec => rw [sm4CbcDec, hblocks, sm4CbcDecBlocks_map]

/-! ### No block, and one block in front (R287) -/

@[simp] theorem sm4Ecb_nil (f : List Byte → List Byte) : sm4Ecb f [] = [] := by simp [sm4Ecb, blocks]

@[simp] theorem sm4CbcEnc_nil (rk : Vector Word 32) (iv : List Byte) : sm4CbcEnc rk iv [] = [] := by
  simp [sm4CbcEnc, blocks, sm4CbcEncBlocks]

@[simp] theorem sm4CbcDec_nil (rk : Vector Word 32) (iv : List Byte) : sm4CbcDec rk iv [] = [] := by
  simp [sm4CbcDec, blocks, sm4CbcDecBlocks]

section
variable (rk : Vector Word 32) {b : List Byte} (hb : b.length = 16) (iv d : List Byte)
include hb

theorem blocks_append : blocks 16 ((b ++ d).length / 16) (b ++ d) = b :: blocks 16 (d.length / 16) d := by
  have hcount : (b ++ d).length / 16 = d.length / 16 + 1 := by
    rw [List.length_append]
    omega
  rw [hcount, blocks, List.take_left' hb, List.drop_left' hb]

theorem sm4Ecb_append (f : List Byte → List Byte) : sm4Ecb f (b ++ d) = f b ++ sm4Ecb f d := by
  rw [sm4Ecb, blocks_append hb, List.flatMap_cons, sm4Ecb]

theorem sm4CbcEnc_append :
    sm4CbcEnc rk iv (b ++ d) = sm4Enc rk (xorBytes b iv) ++ sm4CbcEnc rk (sm4Enc rk (xorBytes b iv)) d := by
  rw [sm4CbcEnc, blocks_append hb, sm4CbcEncBlocks, sm4CbcEnc]

theorem sm4CbcDec_append : sm4CbcDec rk iv (b ++ d) = xorBytes (sm4Dec rk b) iv ++ sm4CbcDec rk b d := by
  rw [sm4CbcDec, blocks_append hb, sm4CbcDecBlocks, sm4CbcDec]

end

/-! ### Decryption after encryption (R285, R286, R287) -/

section
variable (rk : Vector Word 32) {d : List Byte} (hd : d.length % 16 = 0)
include hd

theorem sm4Ecb_dec_enc : sm4Ecb (sm4Dec rk) (sm4Ecb (sm4Enc rk) d) = d := by
  refine wholeBlocks_induction (P := fun d => sm4Ecb (sm4Dec rk) (sm4Ecb (sm4Enc rk) d) = d) (by simp)
    (fun b d hb ih => ?_) hd
  rw [sm4Ecb_append hb, sm4Ecb_append (sm4Enc_length rk b), sm4Dec_sm4Enc rk hb, ih]

theorem sm4CbcDec_sm4CbcEnc {iv : List Byte} (hiv : iv.length = 16) : sm4CbcDec rk iv (sm4CbcEnc rk iv d) = d := by
  refine wholeBlocks_induction (P := fun d => ∀ iv : List Byte, iv.length = 16 →
    sm4CbcDec rk iv (sm4CbcEnc rk iv d) = d) (by simp) (fun b d hb ih iv hiv => ?_) hd iv hiv
  have hxor : (xorBytes b iv).length = 16 := by rw [xorBytes_length, hb, hiv, Nat.min_self]
  rw [sm4CbcEnc_append rk hb, sm4CbcDec_append rk (sm4Enc_length ..), sm4Dec_sm4Enc rk hxor,
    xorBytes_xorBytes (hb.trans hiv.symm), ih _ (sm4Enc_length ..)]

end

theorem pad7_length_mod (d : List Byte) : (pad7 d).length % 16 = 0 := by
  rw [pad7, List.length_append, copies_length]
  omega

/-- The last byte of a padded string counts the bytes that were added (R285). -/
theorem getLastD_pad7 (d : List Byte) : ((pad7 d).getLastD 0).toNat = 16 - d.length % 16 := by
  obtain ⟨q, hq⟩ : ∃ q, 16 - d.length % 16 = q + 1 := ⟨15 - d.length % 16, by omega⟩
  rw [pad7, hq, copies, List.replicate_succ', ← List.append_assoc, List.getLastD_concat, BitVec.toNat_ofNat]
  omega

theorem unpad7_pad7 (d : List Byte) : unpad7 (pad7 d) = some d := by
  have hkeep : (pad7 d).length - (16 - d.length % 16) = d.length := by
    rw [pad7, List.length_append, copies_length, Nat.add_sub_cancel]
  have hpad : (pad7 d).drop d.length = copies (BitVec.ofNat 8 (16 - d.length % 16)) (16 - d.length % 16) :=
    List.drop_left
  have hvalid {p : List Byte} : ¬(16 - d.length % 16 < 1 ∨ 16 - d.length % 16 > 16 ∨ p ≠ p) := by
    simp only [ne_eq, not_true_eq_false, or_false]
    omega
  rw [unpad7, getLastD_pad7, hkeep, hpad, if_neg hvalid, pad7, List.take_left]

/-- Settles O40: a padded string is whole blocks, which the modes give back. -/
theorem paddedModesDecryptWhatTheyEncrypt : Obligations.PaddedModesDecryptWhatTheyEncrypt := by
  intro rk iv d hiv
  have hd := pad7_length_mod d
  exact ⟨by rw [sm4Ecb_dec_enc rk hd, unpad7_pad7], by rw [sm4CbcDec_sm4CbcEnc rk hd hiv, unpad7_pad7]⟩

end Sys2Proof.Machine
end

section
/-! SUPPORT. What PKCS#7 unpadding tests and leaves (42_sm4.md R285), byte by byte. -/

namespace Sys2Proof.Machine

/-- The last `q` bytes of a string are all `b`. -/
theorem drop_eq_copies_iff {p : List Byte} {q : Nat} (hq : q ≤ p.length) (b : Byte) :
    p.drop (p.length - q) = copies b q ↔ ∀ i < q, p.getD (p.length - (i + 1)) 0 = b := by
  constructor
  · intro h i hi
    have hindex : p.length - q + (q - (i + 1)) = p.length - (i + 1) := by omega
    have hbyte : (p.drop (p.length - q)).getD (q - (i + 1)) 0 = b := by
      rw [h, copies, List.getD_eq_getElem _ _ (by rw [List.length_replicate]; omega), List.getElem_replicate]
    rwa [List.getD_eq_getElem?_getD, List.getElem?_drop, hindex, ← List.getD_eq_getElem?_getD] at hbyte
  · intro h
    have hlen : (p.drop (p.length - q)).length = q := by rw [List.length_drop, Nat.sub_sub_self hq]
    refine List.eq_replicate_iff.2 ⟨hlen, fun c hc => ?_⟩
    obtain ⟨j, hj, rfl⟩ := List.getElem_of_mem hc
    rw [List.length_drop] at hj
    have hindex : p.length - (q - 1 - j + 1) = p.length - q + j := by omega
    have hbyte := h (q - 1 - j) (by omega)
    rwa [hindex, List.getD_eq_getElem _ _ (by omega), ← List.getElem_drop] at hbyte

theorem getLastD_eq_getD (p : List Byte) : p.getLastD 0 = p.getD (p.length - 1) 0 := by
  rw [List.getLastD_eq_getLast?, List.getLast?_eq_getElem?, List.getD_eq_getElem?_getD]

/-- The check of the pad bytes of a decrypted string of `len` bytes, if there are any (R285). -/
def sm4PadGuard (pad : Padding) (len : Nat) (p : List Byte) : Guard :=
  match pad with
  | .unpadded => { holds := true, code := 0x04, detail := 0x01 }
  | .pkcs7 =>
    let q := (p.getD (len - 1) 0).toNat
    { holds := decide (1 ≤ q ∧ q ≤ 16 ∧ ∀ i ∈ List.range q, (p.getD (len - (i + 1)) 0).toNat = q)
      code := 0x04, detail := 0x01 }

/-- What is left of a decrypted string of `len` bytes without its pad bytes (R285). -/
def sm4Kept (pad : Padding) (len : Nat) (p : List Byte) : List Byte :=
  match pad with
  | .unpadded => p
  | .pkcs7 => p.take (len - (p.getD (len - 1) 0).toNat)

/-- Unpadding a string of at least one block is the check of its pad bytes, then taking them off. -/
theorem unpad7_eq {p : List Byte} (hp : 16 ≤ p.length) :
    unpad7 p =
      if (sm4PadGuard .pkcs7 p.length p).holds then some (sm4Kept .pkcs7 p.length p) else none := by
  let q := (p.getD (p.length - 1) 0).toNat
  have hbytes (hq : q ≤ 16) : p.drop (p.length - q) = copies (BitVec.ofNat 8 q) q ↔
      ∀ i ∈ List.range q, (p.getD (p.length - (i + 1)) 0).toNat = q := by
    have hbyte (c : Byte) : c = BitVec.ofNat 8 q ↔ c.toNat = q := by
      rw [← BitVec.toNat_inj, BitVec.toNat_ofNat, Nat.mod_eq_of_lt (show q < 2 ^ 8 by omega)]
    simp only [drop_eq_copies_iff (hq.trans hp), hbyte, List.mem_range]
  have hrefuses : (q < 1 ∨ q > 16 ∨ p.drop (p.length - q) ≠ copies (BitVec.ofNat 8 q) q) ↔
      ¬(sm4PadGuard .pkcs7 p.length p).holds = true := by
    rw [sm4PadGuard, decide_eq_true_eq, ← Nat.not_le, not_and_or, not_and_or]
    refine or_congr_right ?_
    by_cases hq : q ≤ 16
    · rw [← hbytes hq, gt_iff_lt, ← Nat.not_le]
    · exact iff_of_true (.inl (by omega)) (.inl hq)
  rw [unpad7, getLastD_eq_getD]
  exact (if_congr hrefuses rfl rfl).trans (ite_not ..)

end Sys2Proof.Machine
end

section
/-! SUPPORT. The SM4 data commands (42_sm4.md R288, R289, R291-R296): each command's checks against its guards, and what
it then writes. -/

namespace Sys2Proof.Machine

section
variable {s : State} {gs : List Guard} {α : Type} {done : α → Prop}

/-- A loaded key (R289). -/
theorem follows_key {k : Unit → Check α} (h : Follows gs (k ()) done) :
    Follows (s.keyGuard :: gs) (s.checkKey >>= k) done :=
  follows_require rfl rfl rfl fun _ => h

/-- A length rule that is the last check. -/
theorem follows_length (ok : Bool) : Follows [lengthGuard ok] (require ok .badLength) fun _ => ok = true :=
  follows_guard (y := .ok ()) rfl rfl rfl fun h => follows_done h

theorem sm4EcbChecks_follows (r : Nat) (ok : Bool) (s : State) :
    Follows [s.keyGuard, s.rangeGuard 0 (s.arg 1), s.rangeGuard 2 r, s.overlapGuard 2 r [(s.arg 0, s.arg 1)],
      lengthGuard ok] (sm4EcbChecks r ok s) fun _ => ok = true :=
  follows_key <| follows_range fun _ => follows_range fun _ => follows_overlap <| follows_length ok

theorem sm4CbcChecks_follows (r : Nat) (ok : Bool) (s : State) :
    Follows [s.keyGuard, s.rangeGuard 0 (s.arg 1), s.rangeGuard 2 r, s.rangeGuard 3 16,
      s.overlapGuard 2 r [(s.arg 0, s.arg 1), (s.arg 3, 16)], lengthGuard ok] (sm4CbcChecks r ok s) fun _ => ok = true :=
  follows_key <| follows_range fun _ => follows_range fun _ => follows_range fun _ => follows_overlap <| follows_length ok

end

/-! ### One block (R291, R292) -/

theorem sm4OneBlock_follows {s : State} (f : List Byte → List Byte) (hw : s.lmem.wf = true) :
    Follows [s.keyGuard, s.rangeGuard 0 16, s.rangeGuard 1 16, s.overlapGuard 1 16 [(s.arg 0, 16)]] (sm4OneBlock f s)
      fun e => Wrote s (s.finish e) (s.arg 1) (f (s.memRead (s.arg 0) 16)) false :=
  follows_key <| follows_range fun _ => follows_range fun _ => follows_overlap <| follows_done (finish_written _ _ _ hw)

/-- Settles O36: one list of guards for the two commands. -/
theorem blockCommandsFollowTheirRules : Obligations.BlockCommandsFollowTheirRules := by
  intro s hw
  have enc := sm4OneBlock_follows (sm4Enc s.rk) hw
  have dec := sm4OneBlock_follows (sm4Dec s.rk) hw
  split
  · next hf => exact ⟨complete_of_firstFailed_some enc hf, complete_of_firstFailed_some dec hf⟩
  · next hf => exact ⟨complete_of_firstFailed_none enc hf, complete_of_firstFailed_none dec hf⟩

/-! ### Encryption (R293, R295) -/

/-- Settles O38: the length and the data of each padding are those of its rule. -/
theorem encryptionModesFollowTheirRules : Obligations.EncryptionModesFollowTheirRules := by
  intro pad s hw len q R ok D
  have hR : sm4EncReserved pad len = R := by
    cases pad with
    | unpadded => rfl
    | pkcs7 => exact Nat.add_sub_assoc (Nat.mod_lt len (by decide)).le len
  have hok : sm4EncLengthOk pad len = ok := by cases pad <;> rfl
  have hD : sm4PadData pad (s.memRead (s.arg 0) len) = D := by
    cases pad with
    | unpadded => rfl
    | pkcs7 => simp only [sm4PadData, pad7, memRead_length]; rfl
  rw [← hR, ← hok, ← hD]
  exact ⟨complete_follows <| follows_map <| follows_imp (sm4EcbChecks_follows _ _ s) fun _ _ => finish_written _ _ _ hw,
    complete_follows <| follows_map <| follows_imp (sm4CbcChecks_follows _ _ s) fun _ _ => finish_written _ _ _ hw⟩

/-! ### Decryption (R294, R296) -/

theorem sm4DecLengthOk_iff (pad : Padding) (len : Nat) :
    sm4DecLengthOk pad len = true ↔ len % 16 = 0 ∧ (pad = .pkcs7 → 0 < len) := by
  cases pad <;> simp [sm4DecLengthOk, and_comm]

theorem sm4Unpadded_follows {pad : Padding} {p : List Byte} (hok : sm4DecLengthOk pad p.length = true) :
    Follows [sm4PadGuard pad p.length p] (sm4Unpadded pad p) (· = sm4Kept pad p.length p) := by
  obtain ⟨hmod, hpos⟩ := (sm4DecLengthOk_iff pad p.length).1 hok
  cases pad with
  | unpadded => exact follows_skip rfl (follows_done rfl)
  | pkcs7 =>
    have hlen := hpos rfl
    refine follows_guard (y := .ok (sm4Kept .pkcs7 p.length p)) (e := .badPad) ?_ rfl rfl fun _ => follows_done rfl
    rw [sm4Unpadded, unpad7_eq (by omega)]
    cases (sm4PadGuard .pkcs7 p.length p).holds <;> rfl

theorem sm4CbcDec_length {iv d : List Byte} (rk : Vector Word 32) (hiv : iv.length = 16) (hd : d.length % 16 = 0) :
    (sm4CbcDec rk iv d).length = d.length := by
  refine wholeBlocks_induction (P := fun d => ∀ iv : List Byte, iv.length = 16 →
    (sm4CbcDec rk iv d).length = d.length) (by simp) (fun b d hb ih iv hiv => ?_) hd iv hiv
  rw [sm4CbcDec_append rk hb, List.length_append, xorBytes_length, sm4Dec_length, hiv, Nat.min_self, ih b hb,
    List.length_append, hb]

/-- A decryption: the checks of its mode, then those of the padding. -/
theorem sm4Decrypt_follows {s : State} {gs : List Guard} {check : Check Unit} {pad : Padding} {len : Nat} {p : List Byte}
    (addr : Nat) (hw : s.lmem.wf = true) (hcheck : Follows gs check fun _ => sm4DecLengthOk pad len = true)
    (hp : len % 16 = 0 → p.length = len) :
    Follows (gs ++ [sm4PadGuard pad len p]) (check >>= fun _ => sm4Unpadded pad p >>= fun d => .ok (written addr d))
      fun e => Wrote s (s.finish e) addr (sm4Kept pad len p) false := by
  refine follows_bind hcheck fun _ hok => ?_
  obtain rfl := hp ((sm4DecLengthOk_iff pad len).1 hok).1
  exact follows_map (follows_imp (sm4Unpadded_follows hok) fun _ hd => hd ▸ finish_written _ _ _ hw)

/-- Settles O39: what is decrypted is as long as the data, and the padding is checked on it. -/
theorem decryptionModesFollowTheirRules : Obligations.DecryptionModesFollowTheirRules := by
  intro pad s hw len ok q padGuard out
  have hok : sm4DecLengthOk pad len = ok := by
    cases pad with
    | unpadded => rfl
    | pkcs7 => exact (Bool.decide_and ..).symm
  have hguard : sm4PadGuard pad len = padGuard := by cases pad <;> rfl
  have hout : sm4Kept pad len = out := by cases pad <;> rfl
  have hdata : (s.memRead (s.arg 0) len).length = len := memRead_length ..
  rw [← hok, ← hguard, ← hout]
  refine ⟨complete_follows <| sm4Decrypt_follows (s.arg 2) hw (sm4EcbChecks_follows _ _ s) fun hmod => ?ecb,
    complete_follows <| sm4Decrypt_follows (s.arg 2) hw (sm4CbcChecks_follows _ _ s) fun hmod => ?cbc⟩
  case ecb => rw [sm4Ecb_length (sm4Dec_length s.rk), hdata]; omega
  case cbc => rw [sm4CbcDec_length s.rk (memRead_length ..) (by rwa [hdata]), hdata]

end Sys2Proof.Machine
end

section
/-! SUPPORT. The affine group law with λ given by what it solves, and scalar multiplication as repeated addition
(43_ec_point.md R321, R324, R325). -/

namespace Sys2Proof.Machine

/-! ### The group law (R321) -/

theorem intModEq_iff_cast {a b : Int} : a ≡ b [ZMOD primeP] ↔ (a : ZMod primeP) = b :=
  (ZMod.intCast_eq_intCast_iff a b primeP).symm

theorem slope_lt (x1 y1 x2 y2 : Nat) : slope x1 y1 x2 y2 < primeP := by
  rw [slope]
  split <;> exact Nat.mod_lt _ prime_primeP.pos

/-- Two points of the curve with one x whose y do not add to 0 are one point. -/
theorem y_eq_of_x_eq {x y1 y2 : Nat} (h1 : (Point.affine x y1).Valid) (h2 : (Point.affine x y2).Valid)
    (h : (y1 + y2) % primeP ≠ 0) : y1 = y2 := by
  have := fact_prime
  obtain ⟨-, hy1, hcurve1⟩ := h1
  obtain ⟨-, hy2, hcurve2⟩ := h2
  have hne : (y1 : ZMod primeP) ≠ -y2 := fun h0 =>
    h (cast_eq_zero (by rw [Nat.cast_add, h0, neg_add_cancel]))
  exact cast_inj hy1 hy2 <| WeierstrassCurve.Affine.Y_eq_of_Y_ne (equation_iff_onCurve.2 hcurve1)
    (equation_iff_onCurve.2 hcurve2) rfl (negY_weierstrass _ _ ▸ hne)

/-- λ of two points with different x. -/
theorem slope_mul_sub {x1 y1 x2 y2 : Nat} (h1 : (Point.affine x1 y1).Valid) (h2 : (Point.affine x2 y2).Valid)
    (hx : x1 ≠ x2) : (slope x1 y1 x2 y2 : ZMod primeP) * ((x2 : ZMod primeP) - x1) = (y2 : ZMod primeP) - y1 := by
  have := fact_prime
  have hne : (x1 : ZMod primeP) ≠ x2 := fun h0 => hx (cast_inj h1.1 h2.1 h0)
  rw [cast_slope h1 h2 fun h => hx h.1, WeierstrassCurve.Affine.slope_of_X_ne hne, ← neg_sub (x1 : ZMod primeP),
    mul_neg, div_mul_cancel₀ _ (sub_ne_zero.2 hne), neg_sub]

/-- λ of a doubling. -/
theorem slope_mul_two_mul {x y : Nat} (hy : (y + y) % primeP ≠ 0) :
    (slope x y x y : ZMod primeP) * (2 * y) = 3 * (x : ZMod primeP) ^ 2 + curveA := by
  have := fact_prime
  have hpos := Nat.mod_lt (2 * y) prime_primeP.pos
  have h2y : 2 * y % primeP ≠ 0 := two_mul y ▸ hy
  have hinv : (invMod primeP (2 * y % primeP) : ZMod primeP) * (2 * y) = 1 := by
    rw [cast_invMod h2y hpos, cast_mod, Nat.cast_mul, Nat.cast_ofNat]
    exact inv_mul_cancel₀ fun h0 => h2y (cast_eq_zero (by rw [Nat.cast_mul, Nat.cast_ofNat, h0]))
  rw [slope, if_pos rfl, cast_mod, Nat.cast_mul, mul_assoc, hinv]
  push_cast
  ring

/-- Settles O41: the equations are those of the residues, read as integers modulo p. -/
theorem pointAdditionFollowsTheGroupLaw : Obligations.PointAdditionFollowsTheGroupLaw := by
  refine ⟨fun p => ⟨rfl, p.add_infinity⟩, rfl, fun x1 y1 x2 y2 h1 h2 => ⟨rfl, fun h => if_pos h, fun h => ?_⟩⟩
  have hpos := prime_primeP.pos
  refine ⟨slope x1 y1 x2 y2, _, _, slope_lt .., subMod_lt _ _ hpos, subMod_lt _ _ hpos, fun hx => ?slope,
    fun hx => ?double, ?x3, ?y3, if_neg h⟩
  case slope => exact intModEq_iff_cast.2 (mod_cast slope_mul_sub h1 h2 hx)
  case double =>
    subst hx
    have hy : (y1 + y2) % primeP ≠ 0 := fun h0 => h ⟨rfl, h0⟩
    obtain rfl := y_eq_of_x_eq h1 h2 hy
    exact ⟨rfl, intModEq_iff_cast.2 (mod_cast slope_mul_two_mul hy)⟩
  case x3 =>
    rw [intModEq_iff_cast, Int.cast_natCast, cast_subMod h2.1.le, cast_subMod h1.1.le, cast_mod]
    push_cast
    ring
  case y3 =>
    rw [intModEq_iff_cast, Int.cast_natCast, cast_subMod h1.2.1.le, cast_mod, Nat.cast_mul,
      cast_subMod (subMod_lt _ _ hpos).le]
    push_cast
    ring

/-! ### Scalar multiplication (R324, R325) -/

section
variable [Fact primeP.Prime] {p : Point} (hp : p.Valid)

/-- Repeated addition is the multiple in the group of the curve. -/
theorem Point.toCurve_times (k : Nat) :
    ∃ h : (Point.times k p).Valid, (Point.times k p).toCurve h = k • p.toCurve hp := by
  induction k with
  | zero => exact ⟨trivial, (zero_nsmul _).symm⟩
  | succ k ih =>
    obtain ⟨hk, ek⟩ := ih
    obtain ⟨h, e⟩ := Point.toCurve_add hk hp
    exact ⟨h, by rw [succ_nsmul, ← ek]; exact e⟩

/-- The ladder doubles what it starts from with every bit, and adds the multiple its bits name. -/
theorem Point.toCurve_ladder (k i : Nat) {acc : Point} (hacc : acc.Valid) :
    ∃ h : (ladder k p i acc).Valid,
      (ladder k p i acc).toCurve h = 2 ^ i • acc.toCurve hacc + (k % 2 ^ i) • p.toCurve hp := by
  induction i generalizing acc with
  | zero => exact ⟨hacc, by simp [ladder, Nat.mod_one]⟩
  | succ i ih =>
    obtain ⟨hdouble, edouble⟩ := Point.toCurve_add hacc hacc
    have hbits : k % 2 ^ (i + 1) = k % 2 ^ i + 2 ^ i * (k / 2 ^ i % 2) := by rw [pow_succ, Nat.mod_mul]
    have hbit := Nat.testBit_eq_decide_div_mod_eq (x := k) (i := i)
    rcases Nat.mod_two_eq_zero_or_one (k / 2 ^ i) with h0 | h1
    · obtain ⟨h, e⟩ := ih hdouble
      have hstep : ladder k p (i + 1) acc = ladder k p i (acc.add acc) := by simp [ladder, hbit, h0]
      rw [hstep]
      refine ⟨h, ?_⟩
      rw [e, edouble, hbits, h0, pow_succ, mul_nsmul', two_nsmul, mul_zero, add_zero]
    · obtain ⟨hsum, esum⟩ := Point.toCurve_add hdouble hp
      obtain ⟨h, e⟩ := ih hsum
      have hstep : ladder k p (i + 1) acc = ladder k p i ((acc.add acc).add p) := by simp [ladder, hbit, h1]
      rw [hstep]
      refine ⟨h, ?_⟩
      rw [e, esum, edouble, hbits, h1, pow_succ, mul_nsmul', two_nsmul, mul_one, add_nsmul, nsmul_add]
      abel

end

/-- Settles O42: both are the multiple in the group of the curve. -/
theorem ladderIsRepeatedAddition : Obligations.LadderIsRepeatedAddition := by
  intro p k hp hk
  have := fact_prime
  obtain ⟨htimes, etimes⟩ := Point.toCurve_times hp k
  obtain ⟨hmul, emul⟩ := Point.toCurve_ladder hp k 256 (acc := .infinity) trivial
  have hzero : Point.toCurve .infinity trivial = 0 := rfl
  rw [Nat.mod_eq_of_lt hk, hzero, nsmul_zero, zero_add] at emul
  exact Point.toCurve_injective (emul.trans etimes.symm)

end Sys2Proof.Machine
end

section
/-! SUPPORT. The elliptic-curve point commands (43_ec_point.md R330-R337): what a slot holds, each command's checks against
its guards, and what it then writes. -/

namespace Sys2Proof.Machine

/-! ### Slots (R322, R323) -/

theorem slotHolds_unique {b : List Byte} {p q : Point} (hp : SlotHolds b p) (hq : SlotHolds b q) : p = q :=
  Except.ok.inj ((decodeSlot_ok_iff.2 hp).symm.trans (decodeSlot_ok_iff.2 hq))

/-- What a slot holds is a point of the curve, or O. -/
theorem slotHolds_valid {b : List Byte} {p : Point} (h : SlotHolds b p) : p.Valid := by
  rcases h with ⟨-, rfl⟩ | ⟨⟨-, hx, hy, hcurve⟩, rfl⟩
  · trivial
  · exact ⟨hx, hy, beq_iff_eq.2 hcurve⟩

theorem validPub_isOk (b : List Byte) : (validPub b).isOk = decide (ValidKeySlot b) := by
  by_cases h : ValidKeySlot b
  · rw [validPub_ok_iff.2 ⟨h, rfl⟩, decide_eq_true h]
    rfl
  · rw [decide_eq_false h]
    cases hd : validPub b with
    | ok p => exact absurd (validPub_ok_iff.1 hd).1 h
    | error e => rfl

/-- Settles O43: the verdict is whether the slot passes ValidPub. -/
theorem pvalidFollowsItsRule : Obligations.PvalidFollowsItsRule := fun s =>
  complete_verdict <| follows_range fun _ => follows_done (congrArg verdict (validPub_isOk (s.memRead (s.arg 0) 64)))

/-! ### The group commands (R331-R335) -/

/-- PDBL and PNEG (R332, R333). -/
theorem pointUnary_follows (op : Point → Point) {s : State} (hw : s.lmem.wf = true) :
    Follows [s.rangeGuard 0 64, s.rangeGuard 2 64, s.overlapGuard 2 64 [(s.arg 0, 64)],
      slotGuard (s.memRead (s.arg 0) 64)] (pointUnary op s) fun e =>
      ∃ p, SlotHolds (s.memRead (s.arg 0) 64) p ∧ Wrote s (s.finish e) (s.arg 2) (op p).slot false :=
  follows_range fun _ => follows_range fun _ => follows_overlap <| follows_point fun p hp =>
    follows_done ⟨p, hp, finish_written _ _ _ hw⟩

/-- Settles O44: one list of guards for the two unary commands, and one point that their slot holds. -/
theorem paddPdblPnegFollowTheirRules : Obligations.PaddPdblPnegFollowTheirRules := by
  intro s hw A B
  constructor
  · refine complete_of_follows
      (Q := fun t => ∃ p q, SlotHolds A p ∧ SlotHolds B q ∧ Wrote s t (s.arg 2) (p.add q).slot false)
      (follows_range fun _ => follows_range fun _ => follows_range fun _ => follows_overlap <|
        follows_point fun p hp => follows_point fun q hq =>
          follows_done ⟨p, q, hp, hq, finish_written _ _ _ hw⟩) fun t ht hQ => ?_
    obtain ⟨p, q, hp, hq, hwrote⟩ := hQ
    exact ⟨p, q, t, hp, hq, ht, hwrote⟩
  · have dbl := pointUnary_follows (fun p => p.add p) hw
    have neg := pointUnary_follows Point.neg hw
    split
    · next hf => exact ⟨complete_of_firstFailed_some dbl hf, complete_of_firstFailed_some neg hf⟩
    · next hf =>
      obtain ⟨p, t, hp, ht, hdbl⟩ := hf ▸ complete_exists_wrote dbl
      obtain ⟨q, u, hq, hu, hneg⟩ := hf ▸ complete_exists_wrote neg
      obtain rfl := slotHolds_unique hp hq
      exact ⟨p, t, u, hp, ht, hdbl, hu, hneg⟩

/-- Settles O45: a scalar of 32 bytes is below 2^256, so the ladder is repeated addition. -/
theorem pmulPmulgFollowTheirRules : Obligations.PmulPmulgFollowTheirRules := by
  intro s hw k
  have hk : k < 2 ^ 256 := scalar_lt s _
  constructor
  · exact complete_exists_wrote (v := fun p => (Point.times k p).slot) <| follows_range fun _ =>
      follows_range fun _ => follows_range fun _ => follows_overlap <| follows_point fun p hp =>
      follows_done ⟨p, hp, ladderIsRepeatedAddition p k (slotHolds_valid hp) hk ▸ finish_written _ _ _ hw⟩
  · exact complete_follows <| follows_range fun _ => follows_range fun _ => follows_overlap <|
      follows_done (ladderIsRepeatedAddition basePoint k basePoint_valid hk ▸ finish_written _ _ _ hw)

/-! ### Jacobian to affine (R336, R326) -/

/-- Multiplying by the inverse of a unit divides by it. -/
theorem mul_invMod_mul {a d : Nat} (ha : a < primeP) (hd : Nat.Coprime primeP d) :
    a * invMod primeP (d % primeP) % primeP * d % primeP = a := by
  have hunit : Nat.Coprime (d % primeP) primeP := by rwa [Nat.Coprime, ← Nat.gcd_rec]
  have hone : invMod primeP (d % primeP) * (d % primeP) % primeP = 1 :=
    invMod_mul prime_primeP.one_lt (modulus_lt .fp) (Nat.mod_lt _ prime_primeP.pos) hunit.symm
  have hinv : invMod primeP (d % primeP) * d ≡ 1 [MOD primeP] :=
    ((Nat.mod_modEq d primeP).mul_left _).symm.trans (hone.trans (Nat.mod_eq_of_lt prime_primeP.one_lt).symm)
  have hmul : a * (invMod primeP (d % primeP) * d) % primeP = a * 1 % primeP := hinv.mul_left a
  rw [Nat.mod_mul_mod, mul_assoc, hmul, mul_one, Nat.mod_eq_of_lt ha]

/-- The slot of a triple that does not stand for O. -/
theorem jacobianSlot_of_ne_zero {x y z : Nat} (hx : x < primeP) (hy : y < primeP) (hz : z < primeP) (h0 : z ≠ 0) :
    ∃ u v, (u < primeP ∧ v < primeP ∧ u * (z * z) % primeP = x ∧ v * (z * z * z) % primeP = y) ∧
      jacobianSlot x y z = beBytes 32 u ++ beBytes 32 v := by
  have hpos := prime_primeP.pos
  have hunit : Nat.Coprime primeP z := coprime_of_canonical .fp h0 hz
  have hsq := hunit.mul_right hunit
  exact ⟨_, _, ⟨Nat.mod_lt _ hpos, Nat.mod_lt _ hpos, mul_invMod_mul hx hsq, mul_invMod_mul hy (hsq.mul_right hunit)⟩,
    if_neg h0⟩

/-- Settles O46: the quotients are given by what they solve. -/
theorem pj2aFollowsItsRule : Obligations.Pj2aFollowsItsRule := by
  intro s hw X Y Z
  refine complete_of_follows (Q := fun t => X < primeP ∧ Y < primeP ∧ Z < primeP ∧
      Wrote s t (s.arg 2) (jacobianSlot X Y Z) false)
    (follows_range fun _ => follows_range fun _ => follows_overlap <| follows_canonical fun hX =>
      follows_canonical fun hY => follows_canonical fun hZ =>
        follows_done ⟨hX, hY, hZ, finish_written _ _ _ hw⟩) fun t ht hQ => ?_
  obtain ⟨hX, hY, hZ, hwrote⟩ := hQ
  refine ⟨fun h0 => ⟨t, ht, ?_⟩, fun h0 => ?_⟩
  · rwa [jacobianSlot, if_pos h0] at hwrote
  · obtain ⟨x, y, ⟨hx, hy, hxZ, hyZ⟩, hslot⟩ := jacobianSlot_of_ne_zero hX hY hZ h0
    exact ⟨x, y, t, hx, hy, hxZ, hyZ, ht, hslot ▸ hwrote⟩

end Sys2Proof.Machine
end

section
/-! SUPPORT. The wire forms of a point (43_ec_point.md R327, R328): encoding, and decoding with its checks in order. -/

namespace Sys2Proof.Machine

section
variable {α : Type} {gs : List Guard} {done : α → Prop}

/-- A check written as the condition under which it refuses. -/
theorem follows_refuse {g : Guard} {bad : Prop} [Decidable bad] {y : Check α} {e : CmdError}
    (hg : g.holds = true ↔ ¬bad) (hc : e.code = g.code) (hd : e.detail = g.detail) (h : ¬bad → Follows gs y done) :
    Follows (g :: gs) (if bad then .error e else y) done :=
  follows_guard (by rw [if_congr hg rfl rfl, ite_not]) hc hd fun hok => h (hg.1 hok)

end

/-! ### Encoding (R327) -/

/-- The wire form of the point that the slot `b` names, its coordinates as the bytes of the slot (R327). -/
def wireForm (form : PointForm) (b : List Byte) : List Byte :=
  match form with
  | .uncompressed => [0x04] ++ b.take 32 ++ b.drop 32
  | .compressed => [if beNat (b.drop 32) % 2 = 0 then 0x02 else 0x03] ++ b.take 32

theorem beBytes_beNat_of_length {k : Nat} {b : List Byte} (hb : b.length = k) : beBytes k (beNat b) = b :=
  hb ▸ beBytes_beNat b

theorem encodeWire_slotPoint (form : PointForm) {b : List Byte} (hb : b.length = 64) :
    encodeWire form (slotPoint b) = .ok (wireForm form b) := by
  have hx : beBytes 32 (beNat (b.take 32)) = b.take 32 := beBytes_beNat_of_length (by rw [List.length_take]; omega)
  have hy : beBytes 32 (beNat (b.drop 32)) = b.drop 32 := beBytes_beNat_of_length (by rw [List.length_drop]; omega)
  cases form with
  | uncompressed => simp [encodeWire, slotPoint, enc65, wireForm, hx, hy]
  | compressed =>
    rcases Nat.mod_two_eq_zero_or_one (beNat (b.drop 32)) with h | h <;>
      simp [encodeWire, slotPoint, enc33, wireForm, hx, h]

/-- PENC's last check and its result (R337). -/
theorem encodeWire_follows (form : PointForm) {b : List Byte} {p : Point} (hb : b.length = 64) (hp : SlotHolds b p) :
    Follows [{ holds := decide (b ≠ List.replicate 64 0), code := 0x01, detail := 0x04 }] (encodeWire form p)
      (· = wireForm form b) := by
  refine follows_guard (y := .ok (wireForm form b)) (e := .encodedInfinity) ?_ rfl rfl fun _ => follows_done rfl
  rcases hp with ⟨hzero, rfl⟩ | ⟨hvalid, rfl⟩
  · exact (if_neg (by simp [hzero])).symm
  · exact (encodeWire_slotPoint form hb).trans (if_pos (decide_eq_true hvalid.1)).symm

/-- Settles O47: the bytes of the coordinates are those of the slot. -/
theorem pencFollowsItsRule : Obligations.PencFollowsItsRule := by
  intro form s hw A w x y e
  have hlen : wireLength form = w := by cases form <;> rfl
  have hform : wireForm form A = e := by cases form <;> rfl
  rw [← hlen, ← hform]
  exact complete_follows <| follows_range fun _ => follows_range fun _ => follows_overlap <| follows_point fun p hp =>
    follows_map (follows_imp (encodeWire_follows form (memRead_length ..) hp) fun _ he => he ▸ finish_written _ _ _ hw)

/-! ### Decoding (R328) -/

/-- `c^((p+1)/4) mod p` for `c = x³ + a·x + b` (R328). -/
def wireRoot (x : Nat) : Nat := curveRhs x ^ ((primeP + 1) / 4) % primeP

/-- The checks of the wire decoding of a string `w` of `n` bytes, in order (R328). -/
def wireGuards (n : Nat) (w : List Byte) : List Guard :=
  let w0 := w.getD 0 0
  let x := beNat (slice w 1 33)
  let y := beNat (slice w 33 65)
  [{ holds := decide ¬(n = 1 ∧ w0 = 0x00), code := 0x01, detail := 0x04 },
   lengthGuard (decide (n = 33 ∨ n = 65)),
   { holds := decide ¬(n = 65 ∧ w0 ≠ 0x04), code := 0x01, detail := 0x02 },
   { holds := decide ¬(n = 33 ∧ w0 ≠ 0x02 ∧ w0 ≠ 0x03), code := 0x01, detail := 0x02 },
   { holds := decide (x < primeP), code := 0x01, detail := 0x03 },
   { holds := decide (n = 65 → y < primeP), code := 0x01, detail := 0x03 },
   { holds := decide (n = 65 → y * y % primeP = curveRhs x), code := 0x02, detail := 0x02 },
   { holds := decide (n = 33 → wireRoot x * wireRoot x % primeP = curveRhs x), code := 0x02, detail := 0x02 }]

/-- The y of a wire form of `n` bytes: as it stands there, or the root with the parity of the first byte (R328). -/
def wireY (n : Nat) (w : List Byte) : Nat :=
  let r := wireRoot (beNat (slice w 1 33))
  if n = 65 then beNat (slice w 33 65) else if r % 2 + 2 = (w.getD 0 0).toNat then r else (primeP - r) % primeP

theorem eq_zeroByte_iff (w : List Byte) : w = [0x00] ↔ w.length = 1 ∧ w.getD 0 0 = 0x00 := by
  match w with
  | [] => simp
  | [b] => simp
  | b :: c :: w => simp

/-- The recovered y as a root and its parity. An equation of functions: on arguments, Lean's kernel would run the root
before it unfolds `recoverY`. -/
theorem recoverY_eq_map :
    recoverY = fun w0 x => (sqrtMod primeP (curveRhs x)).map fun r =>
      if r % 2 = w0.toNat - 2 then r else (primeP - r) % primeP := by
  delta recoverY
  funext w0 x
  generalize sqrtMod primeP (curveRhs x) = root
  cases root <;> rfl

theorem sqrtMod_curveRhs (x : Nat) :
    sqrtMod primeP (curveRhs x) =
      if wireRoot x * wireRoot x % primeP = curveRhs x then some (wireRoot x) else none := by
  have hpow : powMod primeP (curveRhs x) ((primeP + 1) / 4) = wireRoot x := powMod_eq (by decide +kernel)
  rw [sqrtMod, hpow]

/-- The recovered y, for the two first bytes of a compressed point. -/
theorem recoverY_of_root {w0 : Byte} (hw0 : w0 = 0x02 ∨ w0 = 0x03) {x : Nat}
    (hr : wireRoot x * wireRoot x % primeP = curveRhs x) :
    recoverY w0 x =
      some (if wireRoot x % 2 + 2 = w0.toNat then wireRoot x else (primeP - wireRoot x) % primeP) := by
  have hparity : wireRoot x % 2 = w0.toNat - 2 ↔ wireRoot x % 2 + 2 = w0.toNat := by
    have : 2 ≤ w0.toNat := by rcases hw0 with rfl | rfl <;> decide
    omega
  simp only [recoverY_eq_map, sqrtMod_curveRhs, if_pos hr, Option.map_some, hparity]

theorem recoverY_of_no_root (w0 : Byte) {x : Nat} (hr : ¬wireRoot x * wireRoot x % primeP = curveRhs x) :
    recoverY w0 x = none := by
  simp only [recoverY_eq_map, sqrtMod_curveRhs, if_neg hr, Option.map_none]

/-- The wire decoding makes the checks of its rule in order and gives the point (R328). -/
theorem decodeWire_follows (w : List Byte) :
    Follows (wireGuards w.length w) (decodeWire w) (· = .affine (beNat (slice w 1 33)) (wireY w.length w)) := by
  have hhead : w.headD 0 = w.getD 0 0 := by cases w <;> rfl
  rw [decodeWire, hhead]
  refine follows_refuse (decide_eq_true_iff.trans (not_congr (eq_zeroByte_iff w)).symm) rfl rfl fun _ => ?_
  refine follows_refuse (decide_eq_true_iff.trans (by omega)) rfl rfl fun hlen => ?_
  refine follows_refuse decide_eq_true_iff rfl rfl fun _ => ?_
  refine follows_refuse decide_eq_true_iff rfl rfl fun hfirst => ?_
  refine follows_refuse (by simp) rfl rfl fun _ => ?_
  by_cases h65 : w.length = 65
  · rw [if_pos h65]
    refine follows_refuse (by simp [h65]) rfl rfl fun _ => ?_
    refine follows_guard (y := .ok _) (e := .notOnCurve) ?_ rfl rfl fun _ =>
      follows_skip (by simp [h65]) (follows_done (by rw [wireY, if_pos h65]))
    simp [h65, onCurve]
  · have h33 : w.length = 33 := by omega
    rw [if_neg h65]
    refine follows_skip (by simp [h65]) (follows_skip (by simp [h65]) ?_)
    have hw0 : w.getD 0 0 = 0x02 ∨ w.getD 0 0 = 0x03 := by
      by_contra hne
      exact hfirst ⟨h33, not_or.1 hne⟩
    by_cases hr : wireRoot (beNat (slice w 1 33)) * wireRoot (beNat (slice w 1 33)) % primeP =
        curveRhs (beNat (slice w 1 33))
    · rw [recoverY_of_root hw0 hr]
      exact follows_skip (decide_eq_true fun _ => hr) (follows_done (by rw [wireY, if_neg h65]))
    · rw [recoverY_of_no_root _ hr]
      exact follows_guard (y := .ok .infinity) (e := .notOnCurve) (if_neg (by simp [h33, hr])).symm rfl rfl fun h =>
        absurd (of_decide_eq_true h h33) hr

/-- Settles O48: the string read is as long as its length argument. -/
theorem pdecFollowsItsRule : Obligations.PdecFollowsItsRule := by
  intro s hw w w0 n x y c r
  have hdec := decodeWire_follows w
  rw [show w.length = n from memRead_length ..] at hdec
  exact complete_follows (gs := _ :: _ :: _ :: wireGuards n w) <| follows_range fun _ => follows_range fun _ =>
    follows_overlap <| follows_map <| follows_imp hdec fun _ hp => hp ▸ finish_written _ _ _ hw

end Sys2Proof.Machine
end

section
/-! SUPPORT. The common functions of the SM2 commands, as their rules write them out (44_sm2_protocols.md R361-R367). -/

namespace Sys2Proof.Machine

/-! ### The KDF (R362) -/

/-- The blocks of the KDF by their counter. -/
theorem kdfBlocks_eq (zs iv : List Byte) (n i : Nat) :
    kdfBlocks zs iv n i = (List.range n).flatMap fun j => sm3Hash (zs ++ beBytes 4 (j + i) ++ iv) := by
  induction n generalizing i with
  | zero => rfl
  | succ n ih =>
    have hshift (j : Nat) : j + (i + 1) = j + 1 + i := by omega
    simp only [kdfBlocks, ih, hshift, List.range_succ_eq_map, List.flatMap_cons, List.flatMap_map, Nat.zero_add,
      Nat.succ_eq_add_one]

theorem kdfSm3_eq (zs : List Byte) (l : Nat) (iv : List Byte) :
    kdfSm3 zs l iv =
      ((List.range ((l + 31) / 32)).flatMap fun i => sm3Hash (zs ++ beBytes 4 (i + 1) ++ iv)).take l :=
  congrArg (List.take l) (kdfBlocks_eq zs iv _ 1)

theorem allZero_eq (k : List Byte) : allZero k = decide (k.length > 0 ∧ ∀ b ∈ k, b = 0) := by
  rw [Bool.eq_iff_iff]
  simp [allZero]

/-- The mask of a message that is not empty is all zero if every byte of it is 0. -/
theorem allZero_mask_iff {l : Nat} (hl : 0 < l) (q : Point) :
    allZero (ciphertextMask q l) = true ↔ ∀ b ∈ ciphertextMask q l, b = 0 := by
  rw [allZero_eq, decide_eq_true_iff, show (ciphertextMask q l).length = l from kdfSm3_length .., and_iff_right hl]

/-- What KDF and KEYX leave: the key, and RESULT for a key of zeros (R370, R377). -/
theorem finish_written_key {s : State} (addr : Nat) {k : List Byte} {l : Nat} (hk : k.length = l)
    (hw : s.lmem.wf = true) :
    Wrote s (s.finish (written addr k (allZero k))) addr k (decide (l > 0 ∧ ∀ b ∈ k, b = 0)) := by
  subst hk
  rw [← allZero_eq]
  exact finish_written addr k (allZero k) hw

/-! ### Identifiers and digests (R361, R365) -/

theorem zValue_slotPoint (id : List Byte) {b : List Byte} (hb : b.length = 64) :
    zValue id (slotPoint b).x (slotPoint b).y =
      sm3Hash (beBytes 2 (8 * id.length) ++ id ++ beBytes 32 curveA ++ beBytes 32 curveB ++ beBytes 32 baseX ++
        beBytes 32 baseY ++ b.take 32 ++ b.drop 32) := by
  have hx : beBytes 32 (slotPoint b).x = b.take 32 := beBytes_beNat_of_length (by rw [List.length_take]; omega)
  have hy : beBytes 32 (slotPoint b).y = b.drop 32 := beBytes_beNat_of_length (by rw [List.length_drop]; omega)
  rw [zValue, hx, hy]

theorem signDigest_eq (msg : MsgForm) (m id : List Byte) (p : Point) :
    signDigest msg m id p.x p.y = digestOf msg m id p := by
  cases msg <;> rfl

/-! ### Signatures (R373, R374) -/

/-- The second half `s` of a signature with the scalar `k` and the first half `r` (R373). -/
def signatureResponse (d k r : Nat) : Nat :=
  invMod orderN ((1 + d) % orderN) * subMod orderN (k % orderN) (r * d % orderN) % orderN

theorem signatureResponse_lt (d k r : Nat) : signatureResponse d k r < orderN := Nat.mod_lt _ (modulus_prime .fn).pos

/-- It is given by what it solves: `(1 + d)·s ≡ k − r·d (mod n)`. -/
theorem signatureResponse_solves {d : Nat} (hd : (1 + d) % orderN ≠ 0) (k r : Nat) :
    ((1 + d) * signatureResponse d k r + r * d) % orderN = k % orderN := by
  have hpos : 0 < orderN := (modulus_prime .fn).pos
  have hinv : (1 + d) * invMod orderN ((1 + d) % orderN) ≡ 1 [MOD orderN] := by
    have hone := (invMod_spec .fn hd (Nat.mod_lt _ hpos)).2
    rw [mul_comm]
    exact ((Nat.mod_modEq (1 + d) orderN).mul_left _).symm.trans
      (hone.trans (Nat.mod_eq_of_lt (modulus_gt_one .fn)).symm)
  calc (1 + d) * signatureResponse d k r + r * d
      ≡ (1 + d) * (invMod orderN ((1 + d) % orderN) * subMod orderN (k % orderN) (r * d % orderN)) + r * d
        [MOD orderN] := ((Nat.mod_modEq _ _).mul_left _).add_right _
    _ = (1 + d) * invMod orderN ((1 + d) % orderN) * subMod orderN (k % orderN) (r * d % orderN) + r * d := by
      rw [mul_assoc]
    _ ≡ 1 * subMod orderN (k % orderN) (r * d % orderN) + r * d % orderN [MOD orderN] :=
      (hinv.mul_right _).add (Nat.mod_modEq _ _).symm
    _ = subMod orderN (k % orderN) (r * d % orderN) + r * d % orderN := by rw [one_mul]
    _ ≡ k % orderN [MOD orderN] := subMod_add (Nat.mod_lt _ hpos).le
    _ ≡ k [MOD orderN] := Nat.mod_modEq _ _

/-- One pass of SIGN, its reasons to retry as one condition (R373). -/
theorem signAttempt_eq {d e k r : Nat} (hr : (e + (basePoint.mul k).x) % orderN = r) :
    signAttempt d e k =
      if r = 0 ∨ r + k = orderN ∨ signatureResponse d k r = 0 then none else some (r, signatureResponse d k r) := by
  have hunfold : signAttempt d e k = if r = 0 ∨ r + k = orderN then none
      else if signatureResponse d k r = 0 then none else some (r, signatureResponse d k r) := by
    subst hr
    rfl
  simp only [hunfold, ← ite_or, or_assoc]

/-- The verdict of VERIFY as one condition (R374). -/
theorem verifySignature_eq (e r s : Nat) (p : Point) :
    let t := (r + s) % orderN
    let q := (basePoint.mul s).add (p.mul t)
    verifySignature e r s p = decide
      (1 ≤ r ∧ r ≤ orderN - 1 ∧ 1 ≤ s ∧ s ≤ orderN - 1 ∧ t ≠ 0 ∧ q ≠ .infinity ∧ (e + q.x) % orderN = r) := by
  intro t q
  have hunfold : verifySignature e r s p = if ¬(1 ≤ r ∧ r ≤ orderN - 1 ∧ 1 ≤ s ∧ s ≤ orderN - 1) then false
    else if t = 0 then false else match q with
      | .infinity => false
      | .affine x _ => (e + x) % orderN == r := rfl
  rw [hunfold]
  by_cases hrange : 1 ≤ r ∧ r ≤ orderN - 1 ∧ 1 ≤ s ∧ s ≤ orderN - 1
  · obtain ⟨h1, h2, h3, h4⟩ := hrange
    by_cases ht : t = 0
    · simp [ht]
    · rw [Bool.eq_iff_iff]
      cases q <;> simp [h1, h2, h3, h4, ht, Point.x]
  · rw [if_pos hrange, eq_comm, decide_eq_false_iff_not]
    exact fun ⟨h1, h2, h3, h4, _⟩ => hrange ⟨h1, h2, h3, h4⟩

/-! ### The shared secret (R367, R377) -/

theorem xBar_eq (x : Nat) : xBar x = 2 ^ 127 + x % 2 ^ 127 := by rw [xBar, Nat.and_two_pow_sub_one_eq_mod]

/-- Z of the initiator, then Z of the responder, of the own `zA` and the peer's `zB` (R377). -/
def partyHashes (role : Role) (zA zB : List Byte) : List Byte :=
  match role with
  | .initiator => zA ++ zB
  | .responder => zB ++ zA

theorem sharedKey_eq (role : Role) (u : Point) (zA zB : List Byte) (klen : Nat) :
    sharedKey role u zA zB klen = kdfSm3 (beBytes 32 u.x ++ beBytes 32 u.y ++ partyHashes role zA zB) klen [] := by
  cases role <;> exact congrArg (kdfSm3 · klen []) (List.append_assoc ..)

end Sys2Proof.Machine
end

section
/-! SUPPORT. The SM2 commands (44_sm2_protocols.md R370-R378): each command's checks against its guards, and what it
then leaves. -/

namespace Sys2Proof.Machine

section
variable {α : Type} {gs gs' : List Guard} {x : Check α} {done : α → Prop}

/-- A list of guards in another bracketing. -/
theorem follows_of_eq (hgs : gs = gs') (hx : Follows gs x done) : Follows gs' x done := hgs ▸ hx

/-- A computation that nothing follows. -/
theorem follows_last (hx : Follows gs (x >>= .ok) done) : Follows gs x done := by
  cases x <;> exact hx

/-- The state after a draw and the pass of the loop that `staged` comes from; `none` is "retry" (R364, log 7). -/
def State.afterPass (s : State) : Option Effects → State
  | none => s.afterDraw
  | some e => s.afterDraw.finish e

/-- What a command that draws answers, its pass in any form that the scalar drawn gives (R364). -/
theorem completeWithDraw_of_follows {s : State} {attempt : α → Nat → Option Effects} {answer : BitVec 256 → Prop}
    (hx : Follows gs x done)
    (hanswer : ∀ a, done a → ∀ raw : BitVec 256,
      (∀ staged, attempt a (raw.toNat % (orderN - 1) + 1) = staged →
        s.completeWithDraw x attempt = .next (s.afterPass staged)) → answer raw) :
    match firstFailed gs with
    | some (c, d) => s.completeWithDraw x attempt = .next (s.errored c d)
    | none =>
      (s.nextDraw = none → s.completeWithDraw x attempt = .next (s.afterDraw.errored 0x07 0x01)) ∧
        ∀ raw, s.nextDraw = some raw → answer raw := by
  have hrule := completeWithDraw_follows (s := s) (attempt := attempt) hx
  split
  · next hf =>
    rw [hf] at hrule
    exact hrule
  · next hf =>
    rw [hf] at hrule
    obtain ⟨a, ha, hfail, hpass⟩ := hrule
    refine ⟨hfail, fun raw hraw => hanswer a ha raw fun staged hstaged => ?_⟩
    obtain ⟨hretry, hfinish⟩ := hpass raw hraw
    cases staged with
    | none => exact hretry hstaged
    | some e => exact hfinish e hstaged

end

/-- Settles O49: the blocks of the KDF by their counter. -/
theorem kdfFollowsItsRule : Obligations.KdfFollowsItsRule := by
  intro s hw Zs IV klen K
  have hK : kdfSm3 Zs klen IV = K := kdfSm3_eq ..
  rw [← hK]
  exact complete_follows <| follows_range fun _ => follows_range fun _ => follows_range fun _ => follows_overlap <|
    follows_done (finish_written_key _ (kdfSm3_length ..) hw)

/-- Settles O50: the coordinates of the key are the halves of its slot. -/
theorem zvalFollowsItsRule : Obligations.ZvalFollowsItsRule := by
  intro id s hw P ID
  refine complete_follows <| follows_of_eq ?guards <| follows_range fun _ => follows_idRange fun _ =>
    follows_range fun _ => follows_overlap <| follows_idLength <| follows_publicKey fun _ => follows_done ?wrote
  case guards => simp [idInput_eq, P]
  case wrote =>
    rw [zValue_slotPoint _ (memRead_length ..), identifier_eq]
    exact finish_written _ _ _ hw

/-- Settles O51: the range is the only check, and no draw is refused. -/
theorem keygenFollowsItsRule : Obligations.KeygenFollowsItsRule := by
  intro s hw
  rw [exec, execKeygen]
  exact completeWithDraw_of_follows (done := fun _ => True)
    (follows_last <| follows_range fun _ => follows_done trivial) fun _ _ _ ht =>
      ⟨_, ht _ rfl, finish_written _ _ _ hw⟩

/-- Settles O57: check by check. -/
theorem ecdhFollowsItsRule : Obligations.EcdhFollowsItsRule := by
  intro s hw d P
  exact complete_follows <| follows_range fun _ => follows_range fun _ => follows_range fun _ => follows_overlap <|
    follows_privateKey fun _ _ => follows_of_eq (List.append_nil _) <| follows_publicKey fun _ =>
      follows_done (finish_written _ _ _ hw)

/-- Settles O53: the verdict is one condition. -/
theorem verifyFollowsItsRule : Obligations.VerifyFollowsItsRule := by
  intro msg id s used M r sg P
  refine complete_verdict <| follows_of_eq ?guards <| follows_range fun _ => follows_range fun _ =>
    follows_range fun _ => follows_idRange fun _ => follows_msgLength <| follows_idLength <| follows_publicKey fun _ => follows_done ?verdict
  case guards => simp [P, used]
  case verdict => rw [verifySignature_eq, signDigest_eq, identifier_eq]

end Sys2Proof.Machine
end

section
/-! SUPPORT. The SM2 commands with checks of their own (44_sm2_protocols.md R373, R375-R377): SIGN, ENC, DEC, KEYX. -/

namespace Sys2Proof.Machine

/-! ### SIGN (R373) -/

/-- The checks of SIGN, and the private key and the digest that they give. -/
theorem signChecks_follows (msg : MsgForm) (id : IdSource) (s : State) :
    let used := usedId msg id
    let d := s.scalar (s.arg 2)
    Follows ([s.rangeGuard 0 (s.arg 1), s.rangeGuard 2 32] ++ s.idRangeGuards used 3 4 ++ [s.rangeGuard 5 64,
        s.overlapGuard 5 64 ([(s.arg 0, s.arg 1), (s.arg 2, 32)] ++ s.idRange used 3 4),
        lengthGuard (decide (msg = .digest → s.arg 1 = 32))] ++ s.idLengthGuards used 4 ++
        [privateGuard d, { holds := decide ((1 + d) % orderN ≠ 0), code := 0x03, detail := 0x01 }])
      (signChecks msg id s) fun de => (1 + d) % orderN ≠ 0 ∧
        de = (d, digestOf msg (s.memRead (s.arg 0) (s.arg 1)) (s.idBytes used 3 4) (basePoint.mul d)) := by
  intro used d
  refine follows_of_eq ?guards <| follows_range fun _ => follows_range fun _ => follows_idRange fun _ =>
    follows_range fun _ => follows_overlap <| follows_msgLength <| follows_idLength <| follows_privateKey fun _ _ =>
    follows_require (g := { holds := decide ((1 + d) % orderN ≠ 0), code := 0x03, detail := 0x01 }) ?unit rfl rfl
      fun hd => follows_done ?digest
  case guards => simp [idInput_eq, used, d]
  case unit => exact Bool.eq_iff_iff.2 (by simp [d])
  case digest => exact ⟨of_decide_eq_true hd, by rw [signDigest_eq, identifier_eq]⟩

/-- Settles O52: one pass is one condition, and `sg` solves its equation. -/
theorem signFollowsItsRule : Obligations.SignFollowsItsRule := by
  intro msg id s hw used M d
  rw [exec, execSign]
  refine completeWithDraw_of_follows (signChecks_follows msg id s) fun de hde raw ht => ?_
  obtain ⟨hd, rfl⟩ := hde
  intro k e r
  have hpass : signAttempt d e k =
      if r = 0 ∨ r + k = orderN ∨ signatureResponse d k r = 0 then none else some (r, signatureResponse d k r) :=
    signAttempt_eq rfl
  refine ⟨signatureResponse d k r, signatureResponse_lt .., signatureResponse_solves hd k r, fun hretry => ?retry,
    fun hr hrk hsg => ?done⟩
  case retry => exact ht none (congrArg (Option.map _) (hpass.trans (if_pos hretry)))
  case done =>
    have hgo : ¬(r = 0 ∨ r + k = orderN ∨ signatureResponse d k r = 0) := not_or.2 ⟨hr, not_or.2 ⟨hrk, hsg⟩⟩
    exact ⟨_, ht _ (congrArg (Option.map _) (hpass.trans (if_neg hgo))), finish_written _ _ _ hw⟩

/-! ### ENC (R375) -/

/-- The checks of ENC, and the public key that they give. -/
theorem encChecks_follows (s : State) :
    Follows ([s.rangeGuard 0 (s.arg 1), s.rangeGuard 2 64, s.rangeGuard 3 (97 + s.arg 1),
        s.overlapGuard 3 (97 + s.arg 1) [(s.arg 0, s.arg 1), (s.arg 2, 64)],
        lengthGuard (decide (s.arg 1 ≠ 0))] ++ publicGuards (s.memRead (s.arg 2) 64))
      (encChecks s) fun p => 0 < s.arg 1 ∧ p = slotPoint (s.memRead (s.arg 2) 64) :=
  follows_range fun _ => follows_range fun _ => follows_range fun _ => follows_overlap <|
    follows_require (g := lengthGuard (decide (s.arg 1 ≠ 0))) (Bool.eq_iff_iff.2 (by simp [lengthGuard])) rfl rfl
      fun hlen => follows_last <| follows_of_eq (List.append_nil _) <| follows_publicKey fun _ =>
      follows_done ⟨Nat.pos_of_ne_zero (of_decide_eq_true hlen), rfl⟩

/-- Settles O54: the retry is on a mask of zeros, and the layouts are the model's. -/
theorem encFollowsItsRule : Obligations.EncFollowsItsRule := by
  intro layout s hw L M P
  rw [exec, execEnc]
  refine completeWithDraw_of_follows (encChecks_follows s) fun p hp raw ht => ?_
  obtain ⟨hlen, rfl⟩ := hp
  intro k C1 q mask C2 C3 out
  have hout : joinCiphertext layout (enc65 (basePoint.mul k).x (basePoint.mul k).y) C2 C3 = out := by
    cases layout <;> rfl
  have hpass : encAttempt layout M (slotPoint P) k = if allZero mask then none else some out := by
    rw [← hout]
    simp only [encAttempt, show M.length = L from memRead_length ..]
    rfl
  have hzero : allZero mask = true ↔ ∀ b ∈ mask, b = 0 := allZero_mask_iff hlen q
  refine ⟨fun hretry => ?retry, fun hmask => ?done⟩
  case retry => exact ht none (congrArg (Option.map _) (hpass.trans (if_pos (hzero.2 hretry))))
  case done =>
    exact ⟨_, ht _ (congrArg (Option.map _) (hpass.trans (if_neg (mt hzero.1 hmask)))), finish_written _ _ _ hw⟩

/-! ### DEC (R376) -/

theorem headD_eq_getD (w : List Byte) : w.headD 0 = w.getD 0 0 := by cases w <;> rfl

/-- C3 of a ciphertext of `n` bytes. -/
def ciphertextC3 (layout : Layout) (n : Nat) (ct : List Byte) : List Byte :=
  match layout with
  | .c1c3c2 => slice ct 65 97
  | .c1c2c3 => slice ct (n - 32) n

/-- C2 of a ciphertext of `n` bytes. -/
def ciphertextC2 (layout : Layout) (n : Nat) (ct : List Byte) : List Byte :=
  match layout with
  | .c1c3c2 => slice ct 97 n
  | .c1c2c3 => slice ct 65 (n - 32)

theorem slice_length_eq_drop (s : List Byte) (i : Nat) : slice s i s.length = s.drop i :=
  List.take_of_length_le (by rw [List.length_drop])

theorem splitCiphertext_eq (layout : Layout) (ct : List Byte) :
    splitCiphertext layout ct = (ciphertextC3 layout ct.length ct, ciphertextC2 layout ct.length ct) := by
  cases layout <;> simp only [splitCiphertext, ciphertextC3, ciphertextC2, slice_length_eq_drop]

/-- C1 of a ciphertext, its equation written out. -/
theorem ciphertextPoint_eq (ct : List Byte) :
    let x := beNat (slice ct 1 33)
    let y := beNat (slice ct 33 65)
    ciphertextPoint ct =
      if x < primeP ∧ y < primeP ∧ y * y % primeP = (x * x * x + curveA * x + curveB) % primeP then .ok (.affine x y)
      else .error .c1Invalid := by
  simp only [ciphertextPoint, onCurve, beq_iff_eq, curveRhs]

/-- The last two checks of DEC, on the mask and on the tag, and the message. -/
theorem decryptMessage_follows (layout : Layout) {n d : Nat} {ct mask m : List Byte} {c1 q : Point}
    (hct : ct.length = n) (hn : 97 < n) (hq : c1.mul d = q) (hmask : ciphertextMask q (n - 97) = mask)
    (hm : xorBytes (ciphertextC2 layout n ct) mask = m) :
    Follows [{ holds := decide ¬(∀ b ∈ mask, b = 0), code := 0x05, detail := 0x02 },
      { holds := decide (ciphertextTag q m = ciphertextC3 layout n ct), code := 0x05, detail := 0x03 }]
      (decryptMessage layout ct c1 d) (· = m) := by
  subst hct
  have hlen : (ciphertextC2 layout ct.length ct).length = ct.length - 97 := by
    rw [← splitCiphertext_length layout, splitCiphertext_eq]
  have hzero : allZero mask = true ↔ ∀ b ∈ mask, b = 0 := hmask ▸ allZero_mask_iff (by omega) q
  have hdec : decryptMessage layout ct c1 d = if allZero mask then .error .kdfZero
      else if ciphertextTag q m ≠ ciphertextC3 layout ct.length ct then .error .tagMismatch else .ok m := by
    simp only [decryptMessage, splitCiphertext_eq, hlen, hq, hmask, hm]
  rw [hdec]
  exact follows_refuse (decide_eq_true_iff.trans (not_congr hzero).symm) rfl rfl fun _ =>
    follows_refuse (decide_eq_true_iff.trans not_not.symm) rfl rfl fun _ => follows_done rfl

/-- Settles O55: the last two checks are those of the algorithm. -/
theorem decFollowsItsRule : Obligations.DecFollowsItsRule := by
  intro layout s hw N ct d x y C3 C2 q mask M
  have hC3 : ciphertextC3 layout N ct = C3 := by cases layout <;> rfl
  have hC2 : ciphertextC2 layout N ct = C2 := by cases layout <;> rfl
  have hq : (Point.affine x y).mul d = q := rfl
  have hmask : ciphertextMask q (N - 97) = mask := rfl
  have hM : xorBytes (ciphertextC2 layout N ct) mask = M := by rw [hC2]; rfl
  -- Opaque from here on, so that no check of the guards runs the KDF or the ladder.
  clear_value M mask q C3
  subst hC3
  have hdec (hN : 97 < N) := decryptMessage_follows layout (memRead_length ..) hN hq hmask hM
  refine complete_follows <| follows_range fun _ => follows_range fun _ => follows_range fun _ => follows_overlap <|
    follows_require rfl rfl rfl fun hN => follows_require (c := ct.headD 0 == 0x04) ?first rfl rfl fun _ =>
    follows_value (v := .affine x y) (e := .c1Invalid) ?c1 rfl rfl fun _ => follows_privateKey fun _ _ =>
    follows_map <| follows_imp (P := (· = M)) ?message fun _ hm => hm ▸ finish_written _ _ _ hw
  case first =>
    rw [headD_eq_getD]
    exact Bool.eq_iff_iff.2 (by simp)
  case c1 => simpa using ciphertextPoint_eq ct
  case message => exact hdec (of_decide_eq_true (p := 97 < N) hN)

/-! ### KEYX (R377) -/

/-- Settles O56: check by check. -/
theorem keyxFollowsItsRule : Obligations.KeyxFollowsItsRule := by
  intro idA idB role s hw klen dA PA rA RA PB RB bar tA U ZA ZB Z K
  have hU : sharedPoint dA rA (slotPoint RA) (slotPoint PB) (slotPoint RB) = U := by
    simp only [sharedPoint, xBar_eq]
    rfl
  have hZ : partyHashes role ZA ZB = Z := by cases role <;> rfl
  have hK : sharedKey role U ZA ZB klen = K := by rw [sharedKey_eq, hZ]
  refine complete_follows <| follows_of_eq ?guards <| follows_range fun _ => follows_idRange fun _ =>
    follows_idRange fun _ => follows_range fun _ => follows_overlap <| follows_idLength <| follows_idLength <|
    follows_privateKey fun _ _ => follows_publicKey fun _ => follows_privateKey fun _ _ => follows_publicKey fun _ =>
    follows_publicKey fun _ => follows_publicKey fun _ =>
    follows_require (g := { holds := decide (U ≠ .infinity), code := 0x02, detail := 0x04 }) ?infinity rfl rfl fun _ =>
      follows_done ?key
  case guards => simp [idInput_eq, PA, RA, PB, RB, dA, rA, klen]
  case infinity => rw [hU]; exact Bool.eq_iff_iff.2 (by simp)
  case key =>
    rw [hU, identifier_eq, identifier_eq, hK, ← hK]
    exact finish_written_key _ (kdfSm3_length ..) hw

end Sys2Proof.Machine
end

section
/-! SUPPORT. The multiples of the base point (43_ec_point.md R320, R324): what the model's multiples stand for in the
group of the curve, and that the base point has order n. -/

namespace Sys2Proof.Machine

/-- A scalar below n is a 256-bit scalar. -/
theorem lt_two_pow_of_lt_orderN {k : Nat} (hk : k < orderN) : k < 2 ^ 256 := hk.trans (modulus_lt .fn)

/-- `n·G = O`, by running the ladder. -/
theorem orderN_mul_basePoint : basePoint.mul orderN = .infinity := by decide +kernel

section
variable [Fact primeP.Prime]

/-- `p` is a point of the curve, and stands for the element `a` of its group. -/
def Point.StandsFor (p : Point) (a : weierstrass.Point) : Prop := ∃ h : p.Valid, p.toCurve h = a

/-- The base point in the group of the curve. -/
def baseCurve : weierstrass.Point := basePoint.toCurve basePoint_valid

theorem basePoint_standsFor : basePoint.StandsFor baseCurve := ⟨basePoint_valid, rfl⟩

section
variable {p q : Point} {a b : weierstrass.Point}

theorem Point.StandsFor.unique (hp : p.StandsFor a) (hq : q.StandsFor a) : p = q := by
  obtain ⟨_, hp⟩ := hp
  obtain ⟨_, hq⟩ := hq
  exact Point.toCurve_injective (hp.trans hq.symm)

theorem Point.StandsFor.add (hp : p.StandsFor a) (hq : q.StandsFor b) : (p.add q).StandsFor (a + b) := by
  obtain ⟨hvp, rfl⟩ := hp
  obtain ⟨hvq, rfl⟩ := hq
  exact Point.toCurve_add hvp hvq

/-- The ladder gives the multiple, for every 256-bit scalar. -/
theorem Point.StandsFor.mul (hp : p.StandsFor a) {k : Nat} (hk : k < 2 ^ 256) : (p.mul k).StandsFor (k • a) := by
  obtain ⟨hv, rfl⟩ := hp
  rw [ladderIsRepeatedAddition p k hv hk]
  exact Point.toCurve_times hv k

theorem Point.StandsFor.eq_infinity_iff (hp : p.StandsFor a) : p = .infinity ↔ a = 0 := by
  have hzero : Point.infinity.StandsFor 0 := ⟨trivial, rfl⟩
  constructor
  · rintro rfl
    obtain ⟨_, rfl⟩ := hp
    rfl
  · rintro rfl
    exact hp.unique hzero

end

theorem mul_basePoint_standsFor {k : Nat} (hk : k < orderN) : (basePoint.mul k).StandsFor (k • baseCurve) :=
  basePoint_standsFor.mul (lt_two_pow_of_lt_orderN hk)

/-- The base point has order n, which is prime. -/
theorem addOrderOf_baseCurve : addOrderOf baseCurve = orderN := by
  have : Fact orderN.Prime := ⟨modulus_prime .fn⟩
  refine addOrderOf_eq_prime ?_ fun h0 => ?_
  · exact (basePoint_standsFor.mul (modulus_lt .fn)).eq_infinity_iff.1 orderN_mul_basePoint
  · exact Point.noConfusion (basePoint_standsFor.eq_infinity_iff.2 h0)

/-- Multiples of the base point depend on the scalar modulo n. -/
theorem nsmul_baseCurve_of_modEq {j k : Nat} (h : j ≡ k [MOD orderN]) : j • baseCurve = k • baseCurve :=
  nsmul_eq_nsmul_iff_modEq.2 (addOrderOf_baseCurve ▸ h)

end

theorem mul_basePoint_valid {k : Nat} (hk : k < orderN) : (basePoint.mul k).Valid := by
  have := fact_prime
  obtain ⟨hvalid, -⟩ := mul_basePoint_standsFor hk
  exact hvalid

/-- No multiple of the base point by a scalar in [1, n − 1] is O. -/
theorem mul_basePoint_ne_infinity {k : Nat} (h1 : 1 ≤ k) (hk : k < orderN) : basePoint.mul k ≠ .infinity := by
  intro h0
  have := fact_prime
  have hdvd := addOrderOf_dvd_of_nsmul_eq_zero ((mul_basePoint_standsFor hk).eq_infinity_iff.1 h0)
  rw [addOrderOf_baseCurve] at hdvd
  exact absurd (Nat.le_of_dvd h1 hdvd) (by omega)

end Sys2Proof.Machine
end

section
/-! SUPPORT. The SM2 protocols against each other (44_sm2_protocols.md R373-R378): signatures verify, ciphertexts decrypt,
and key agreements agree. -/

namespace Sys2Proof.Machine

/-! ### Signatures (R373, R374) -/

/-- `s·G + t·(d·G) = k·G` for `t = r + s`, if `s` solves the equation of a signature. -/
theorem signature_point {d k r sg : Nat} (hd : d < orderN) (hk : k < orderN) (hsg : sg < orderN)
    (h : ((1 + d) * sg + r * d) % orderN = k % orderN) :
    (basePoint.mul sg).add ((basePoint.mul d).mul ((r + sg) % orderN)) = basePoint.mul k := by
  have := fact_prime
  have ht : (r + sg) % orderN < orderN := Nat.mod_lt _ (modulus_prime .fn).pos
  have hsum := (mul_basePoint_standsFor hsg).add ((mul_basePoint_standsFor hd).mul (lt_two_pow_of_lt_orderN ht))
  rw [← mul_nsmul', ← add_nsmul] at hsum
  have hmod : sg + (r + sg) % orderN * d ≡ k [MOD orderN] :=
    calc sg + (r + sg) % orderN * d
        ≡ sg + (r + sg) * d [MOD orderN] := ((Nat.mod_modEq _ _).mul_right d).add_left sg
      _ = (1 + d) * sg + r * d := by ring
      _ ≡ k [MOD orderN] := h
  rw [nsmul_baseCurve_of_modEq hmod] at hsum
  exact hsum.unique (mul_basePoint_standsFor hk)

/-- `r + s` is not 0 modulo n, or `r + k` would be n. -/
theorem signature_sum_ne_zero {d k r sg : Nat} (hk1 : 1 ≤ k) (hk : k < orderN) (hr : r < orderN) (hrk : r + k ≠ orderN)
    (h : ((1 + d) * sg + r * d) % orderN = k % orderN) : (r + sg) % orderN ≠ 0 := by
  intro h0
  have hzero : r + sg ≡ 0 [MOD orderN] := h0
  have hmod : r + k ≡ 0 [MOD orderN] :=
    calc r + k
        ≡ r + ((1 + d) * sg + r * d) [MOD orderN] := (Nat.ModEq.symm h).add_left r
      _ = (r + sg) * (1 + d) := by ring
      _ ≡ 0 * (1 + d) [MOD orderN] := hzero.mul_right _
      _ = 0 := zero_mul _
  obtain ⟨c, hc⟩ := (Nat.modEq_zero_iff_dvd).1 hmod
  have hc2 : c < 2 := by
    by_contra hge
    have := Nat.mul_le_mul_left orderN (not_lt.1 hge)
    omega
  interval_cases c <;> omega

/-- What one pass of SIGN that does not retry gives. -/
theorem signAttempt_eq_some {d e k r sg : Nat} (h : signAttempt d e k = some (r, sg)) :
    (e + (basePoint.mul k).x) % orderN = r ∧ r ≠ 0 ∧ r + k ≠ orderN ∧ sg ≠ 0 ∧ signatureResponse d k r = sg := by
  rw [signAttempt_eq rfl] at h
  split at h
  · cases h
  · next hgo =>
    obtain ⟨rfl, rfl⟩ := Prod.mk.inj (Option.some.inj h)
    obtain ⟨hr0, hgo⟩ := not_or.1 hgo
    obtain ⟨hrk, hs0⟩ := not_or.1 hgo
    exact ⟨rfl, hr0, hrk, hs0, rfl⟩

/-- Settles O58: the point that VERIFY computes is k·G. -/
theorem signaturesVerify : Obligations.SignaturesVerify := by
  intro d e k r sg hd1 hd hk1 hk hsign
  obtain ⟨hr, hr0, hrk, hs0, hresponse⟩ := signAttempt_eq_some hsign
  have hunit : (1 + d) % orderN ≠ 0 := by rw [Nat.mod_eq_of_lt (by omega)]; omega
  have hrlt : r < orderN := hr ▸ Nat.mod_lt _ (modulus_prime .fn).pos
  have hslt : sg < orderN := hresponse ▸ signatureResponse_lt d k r
  have hsolves : ((1 + d) * sg + r * d) % orderN = k % orderN := hresponse ▸ signatureResponse_solves hunit k r
  rw [verifySignature_eq, decide_eq_true_iff, signature_point (by omega) hk hslt hsolves]
  exact ⟨Nat.pos_of_ne_zero hr0, Nat.le_sub_one_of_lt hrlt, Nat.pos_of_ne_zero hs0, Nat.le_sub_one_of_lt hslt,
    signature_sum_ne_zero hk1 hk hrlt hrk hsolves, mul_basePoint_ne_infinity hk1 hk, hr⟩

/-! ### Ciphertexts (R375, R376) -/

/-- A point of the curve is what C1 of its own wire form says. -/
theorem ciphertextPoint_enc65 {x y : Nat} (h : (Point.affine x y).Valid) (rest : List Byte) :
    ciphertextPoint (enc65 x y ++ rest) = .ok (.affine x y) := by
  obtain ⟨hx, hy, hcurve⟩ := h
  have hsx : slice (enc65 x y ++ rest) 1 33 = beBytes 32 x := by simp [slice, enc65]
  have hsy : slice (enc65 x y ++ rest) 33 65 = beBytes 32 y := by simp [slice, enc65]
  have hbe {z : Nat} (hz : z < primeP) : beNat (beBytes 32 z) = z := by
    rw [beNat_beBytes, Nat.mod_eq_of_lt (hz.trans (by decide))]
  rw [ciphertextPoint, hsx, hsy, hbe hx, hbe hy]
  exact if_pos ⟨hx, hy, hcurve⟩

/-- C3 and C2 of a ciphertext put together are the ones it was put together from. -/
theorem splitCiphertext_joinCiphertext (layout : Layout) {c1 c2 c3 : List Byte} (h1 : c1.length = 65)
    (h3 : c3.length = 32) : splitCiphertext layout (joinCiphertext layout c1 c2 c3) = (c3, c2) := by
  cases layout with
  | c1c3c2 =>
    have hslice : slice (c1 ++ c3 ++ c2) 65 97 = c3 := by
      rw [slice, List.append_assoc, List.drop_left' h1, List.take_left' h3]
    have hdrop : (c1 ++ c3 ++ c2).drop 97 = c2 := List.drop_left' (by rw [List.length_append, h1, h3])
    exact Prod.ext hslice hdrop
  | c1c2c3 =>
    have hlen : (c1 ++ c2 ++ c3).length - 32 = 65 + c2.length := by
      rw [List.length_append, List.length_append, h1, h3, Nat.add_sub_cancel]
    have hdrop : (c1 ++ c2 ++ c3).drop ((c1 ++ c2 ++ c3).length - 32) = c3 :=
      List.drop_left' (by rw [hlen, List.length_append, h1])
    have hslice : slice (c1 ++ c2 ++ c3) 65 ((c1 ++ c2 ++ c3).length - 32) = c2 := by
      rw [hlen, slice, List.append_assoc, List.drop_left' h1, List.take_left' (by omega)]
    exact Prod.ext hdrop hslice

theorem joinCiphertext_eq_append (layout : Layout) (c1 c2 c3 : List Byte) :
    ∃ rest, joinCiphertext layout c1 c2 c3 = c1 ++ rest := by
  cases layout <;> exact ⟨_, List.append_assoc ..⟩

/-- DEC undoes one pass of ENC, if both compute the same point `q`. -/
theorem decryptMessage_joinCiphertext (layout : Layout) {m c1 : List Byte} {p q : Point} {d : Nat} (h1 : c1.length = 65)
    (hq : p.mul d = q) (hmask : ¬allZero (ciphertextMask q m.length) = true) :
    decryptMessage layout
      (joinCiphertext layout c1 (xorBytes m (ciphertextMask q m.length)) (ciphertextTag q m)) p d = .ok m := by
  have hlen : (ciphertextMask q m.length).length = m.length := kdfSm3_length ..
  have hxor : xorBytes (xorBytes m (ciphertextMask q m.length)) (ciphertextMask q m.length) = m :=
    xorBytes_xorBytes hlen.symm
  have htag : (ciphertextTag q m).length = 32 := sm3Hash_length _
  simp only [decryptMessage, splitCiphertext_joinCiphertext layout h1 htag, hq, xorBytes_length, hlen, Nat.min_self,
    hxor, if_neg hmask, ne_eq, not_true, if_false]

/-- `d·(k·G) = k·(d·G)`: the point that both sides derive their mask from, and their shared secret. -/
theorem mul_mul_basePoint_comm {d k : Nat} (hd : d < orderN) (hk : k < orderN) :
    (basePoint.mul k).mul d = (basePoint.mul d).mul k := by
  have := fact_prime
  have hkd := (mul_basePoint_standsFor hk).mul (lt_two_pow_of_lt_orderN hd)
  have hdk := (mul_basePoint_standsFor hd).mul (lt_two_pow_of_lt_orderN hk)
  rw [smul_comm] at hkd
  exact hkd.unique hdk

/-- Settles O59: both sides compute the point d·k·G, so the same mask. -/
theorem ciphertextsDecrypt : Obligations.CiphertextsDecrypt := by
  intro layout m ct d k _ _ hd hk1 hk henc
  have hlen := encAttempt_length henc
  have hq := mul_mul_basePoint_comm hd hk
  have hvalid := mul_basePoint_valid hk
  have hne := mul_basePoint_ne_infinity hk1 hk
  rw [encAttempt] at henc
  generalize basePoint.mul k = c at *
  cases c with
  | infinity => exact absurd rfl hne
  | affine x y =>
    split at henc
    · cases henc
    · next hmask =>
      obtain rfl := Option.some.inj henc
      have hdec := decryptMessage_joinCiphertext layout (enc65_length x y) hq hmask
      obtain ⟨rest, hjoin⟩ := joinCiphertext_eq_append layout (enc65 x y)
        (xorBytes m (ciphertextMask ((basePoint.mul d).mul k) m.length)) (ciphertextTag ((basePoint.mul d).mul k) m)
      refine ⟨hlen, ?_, ?_, hdec⟩
      · exact congrArg (List.getD · 0 0) hjoin
      · exact (congrArg ciphertextPoint hjoin).trans (ciphertextPoint_enc65 hvalid rest)

/-! ### Key agreements (R377, R378) -/

theorem xBar_lt (x : Nat) : xBar x < 2 ^ 256 := by
  rw [xBar_eq]
  omega

/-- The point U of two parties whose keys are multiples of the base point. -/
theorem sharedPoint_standsFor [Fact primeP.Prime] {dA rA dB rB : Nat} (hdB : dB < orderN) (hrB : rB < orderN)
    (ownR : Point) :
    (sharedPoint dA rA ownR (basePoint.mul dB) (basePoint.mul rB)).StandsFor
      (((dA + xBar ownR.x * rA) * (dB + xBar (basePoint.mul rB).x * rB)) • baseCurve) := by
  have ht : (dA + xBar ownR.x * rA) % orderN < orderN := Nat.mod_lt _ (modulus_prime .fn).pos
  have hpeerR := (mul_basePoint_standsFor hrB).mul (xBar_lt (basePoint.mul rB).x)
  have hsum := ((mul_basePoint_standsFor hdB).add hpeerR).mul (lt_two_pow_of_lt_orderN ht)
  rw [← mul_nsmul', ← add_nsmul, ← mul_nsmul'] at hsum
  rwa [nsmul_baseCurve_of_modEq ((Nat.mod_modEq _ orderN).mul_right _)] at hsum

/-- Both parties compute one point U. -/
theorem sharedPoint_comm {dA rA dB rB : Nat} (hdA : dA < orderN) (hrA : rA < orderN) (hdB : dB < orderN)
    (hrB : rB < orderN) :
    sharedPoint dA rA (basePoint.mul rA) (basePoint.mul dB) (basePoint.mul rB) =
      sharedPoint dB rB (basePoint.mul rB) (basePoint.mul dA) (basePoint.mul rA) := by
  have := fact_prime
  have hA := sharedPoint_standsFor (dA := dA) (rA := rA) hdB hrB (basePoint.mul rA)
  have hB := sharedPoint_standsFor (dA := dB) (rA := rB) hdA hrA (basePoint.mul rB)
  rw [mul_comm (dB + _)] at hB
  exact hA.unique hB

/-- The responder's peer is the initiator: both hash the initiator's Z first. -/
theorem sharedKey_responder (u : Point) (zA zB : List Byte) (klen : Nat) :
    sharedKey .responder u zB zA klen = sharedKey .initiator u zA zB klen := by
  simp only [sharedKey_eq, partyHashes]

/-- Settles O60: both points are the multiple of G by the product of the two parties' secrets. -/
theorem keyAgreementsAgree : Obligations.KeyAgreementsAgree := by
  intro dA rA dB rB _ hdA _ hrA _ hdB _ hrB PA RA PB RB UA UB
  have hU : UA = UB := sharedPoint_comm hdA hrA hdB hrB
  refine ⟨hU, fun idA idB klen => ?_, congrArg Point.x (mul_mul_basePoint_comm hdA hdB)⟩
  rw [sharedKey_responder, hU]

end Sys2Proof.Machine
end

section
/-! SUPPORT. Error completions and retries (60_exceptions.md R402, R421): what the ways a command can end leave of the
report and of BUSY. -/

namespace Sys2Proof.Machine

section
variable {s t : State} {i : Instr}

/-- However a command ends it answers a next state, and one that newly reports an error is the error completion of a
reported pair, before or after the draw. -/
theorem Ends.precise {o : Host.Outcome State Fault Refusal} (h : Ends s o) (hs : s.error = false) :
    ∃ t, o = .next t ∧ (t.error = true →
      ∃ c d, (c, d) ∈ reportedErrors ∧ (t = s.errored c d ∨ t = s.afterDraw.errored c d)) := by
  cases h with
  | finish | finishDrawn | retry => exact ⟨_, rfl, fun ht => absurd (hs.symm.trans ht) Bool.false_ne_true⟩
  | raise e => exact ⟨_, rfl, fun _ => ⟨_, _, code_detail_reported e, .inl (raise_errored s e)⟩⟩
  | entropyFail => exact ⟨_, rfl, fun _ => ⟨_, _, code_detail_reported _, .inr (raise_errored s.afterDraw _)⟩⟩

/-- A command that does not draw completes (30_encoding.md R143). -/
theorem complete_busy_eq_false {c : Check Effects} (h : s.complete c = .next t) : t.busy = false := by
  rcases complete_next h with ⟨e, -, rfl⟩ | ⟨e, -, rfl⟩ <;> rfl

/-- A command that draws fails to complete only in a pass whose attempt asks for a retry (44_sm2_protocols.md R364). -/
theorem completeWithDraw_busy {α : Type} {ready : Check α} {attempt : α → Nat → Option Effects}
    (h : s.completeWithDraw ready attempt = .next t) (hb : t.busy = true) : ∃ x k, attempt x k = none := by
  rcases completeWithDraw_next h with
    ⟨e, -, rfl⟩ | ⟨-, -, -, rfl⟩ | ⟨-, -, e, -, -, -, rfl⟩ | ⟨x, raw, -, -, hretry, -⟩
  case inr.inr.inr => exact ⟨x, _, hretry⟩
  all_goals simp at hb

/-- Only SIGN and ENC leave BUSY at 1: KEYGEN draws too, but its one pass always succeeds (R421, 44_sm2_protocols.md
R372). -/
theorem exec_busy_command (h : exec i s = .next t) (hb : t.busy = true) :
    (∃ msg id, i = .sign msg id) ∨ ∃ layout, i = .enc layout := by
  cases i with
  | sign msg id => exact .inl ⟨msg, id, rfl⟩
  | enc layout => exact .inr ⟨layout, rfl⟩
  | keygen =>
    rw [exec, execKeygen] at h
    obtain ⟨_, _, hnone⟩ := completeWithDraw_busy h hb
    exact absurd hnone nofun
  | _ =>
    have hidle : t.busy = false := complete_busy_eq_false (by rw [exec] at h; exact h)
    exact absurd hb (by simp [hidle])

/-- A command that leaves BUSY at 1 has used up a draw and done nothing else (R421, log 7). -/
theorem exec_busy_state (h : exec i s = .next t) (hb : t.busy = true) : t = s.afterDraw := by
  obtain ⟨u, -, ⟨e, rfl⟩ | ⟨e, rfl⟩ | ⟨rfl, hu⟩⟩ := exec_next h
  case inr.inr => exact hu
  all_goals simp at hb

end

/-- Settles O7: every command ends in one of the ways of `Ends`, a retry among them (logs 7, 21). -/
theorem errorCompletionsArePrecise : Obligations.ErrorCompletionsArePrecise := fun i s hs => (exec_ends s i).precise hs

/-- Settles O8: every completion ends BUSY, so only a retry is left, and only SIGN and ENC retry (log 7). -/
theorem onlySignAndEncRetry : Obligations.OnlySignAndEncRetry :=
  fun _ _ _ _ h hb => ⟨exec_busy_state h hb, exec_busy_command h hb⟩

end Sys2Proof.Machine
end

section
/-! SUPPORT. The interrupt sources (60_exceptions.md R410, R411): what each agent's step does to DONE and to OVR. -/

namespace Sys2Proof.Machine

section
variable {s t : State}

/-- The change from `s` to `t` sets neither interrupt source; it may clear them (10_state.md R55). -/
def SetsNoSource (s t : State) : Prop :=
  (s.intDone = false → t.intDone = false) ∧ (s.intOvr = false → t.intOvr = false)

theorem setsNoSource_of_eq (hdone : t.intDone = s.intDone) (hovr : t.intOvr = s.intOvr) : SetsNoSource s t :=
  ⟨hdone.trans, hovr.trans⟩

theorem SetsNoSource.not_done (h : SetsNoSource s t) (hclear : s.intDone = false) : t.intDone ≠ true := by
  simp [h.1 hclear]

theorem SetsNoSource.not_ovr (h : SetsNoSource s t) (hclear : s.intOvr = false) : t.intOvr ≠ true := by
  simp [h.2 hclear]

/-! ### The core's turn -/

/-- `t` is `s` completed, as far as BUSY, DONE and OVR show it (30_encoding.md R143). -/
def Completed (s t : State) : Prop := t.busy = false ∧ t.intDone = true ∧ t.intOvr = s.intOvr

/-- A command completes, or leaves BUSY and the two sources as they are. -/
theorem exec_sources {i : Instr} (h : exec i s = .next t) : Completed s t ∨ t.busy = s.busy ∧ SetsNoSource s t := by
  obtain ⟨u, rfl | rfl, ⟨e, rfl⟩ | ⟨e, rfl⟩ | ⟨rfl, -⟩⟩ := exec_next h
  case inl.inr.inr | inr.inr.inr => exact .inr ⟨rfl, setsNoSource_of_eq rfl rfl⟩
  all_goals exact .inl ⟨rfl, rfl, rfl⟩

/-- A turn of the core completes the running command, or leaves BUSY and the two sources as they are. -/
theorem coreStep_sources (h : coreStep s = .next t) :
    (s.busy = true ∧ Completed s t) ∨ t.busy = s.busy ∧ SetsNoSource s t := by
  rcases coreStep_cases h with ⟨hb, i, -, hexec⟩ | ⟨hb, e, -, rfl⟩ | ⟨-, rfl⟩
  · exact (exec_sources hexec).imp_left (⟨hb, ·⟩)
  · exact .inl ⟨hb, rfl, rfl, rfl⟩
  · exact .inr ⟨rfl, setsNoSource_of_eq rfl rfl⟩

/-! ### Host accesses -/

variable {off : Nat} {w : Width} {v : Word}

/-- A write to the register map is dropped, one to CMD or an `SM3_Vi` while BUSY, or sets no source (10_state.md R57,
R60). -/
theorem writeCsr_sources (h : s.writeCsr off v = some t) :
    (s.busy = true ∧ s.LockedWrite off .w32 ∧ t = s.dropped) ∨ SetsNoSource s t := by
  simp only [State.writeCsr] at h
  split_ifs at h with hctrl hreset hint hen hcmd hb harg hsm3 hb <;> cases h
  any_goals exact .inr (setsNoSource_of_eq rfl rfl)
  · exact .inr ⟨fun _ => rfl, fun _ => rfl⟩
  · exact .inr ⟨fun hclear => by simp [hclear], fun hclear => by simp [hclear]⟩
  · exact .inl ⟨hb, .inl ⟨rfl, .inl hcmd⟩, rfl⟩
  · exact .inl ⟨hb, .inl ⟨rfl, .inr ⟨(off - 0x100) / 4, by omega, by omega⟩⟩, rfl⟩

/-- The write of a host access is dropped, one to what is locked while BUSY, or sets no source (20_memory.md R106). -/
theorem hostWrite_sources (h : s.hostWrite off w v = some t) :
    (s.busy = true ∧ s.LockedWrite off w ∧ t = s.dropped) ∨ SetsNoSource s t := by
  simp only [State.hostWrite] at h
  split_ifs at h with hcsr hw hwindow haligned hb
  · rw [hw.1]
    exact writeCsr_sources h
  · cases h
    exact .inl ⟨hb, .inr ⟨not_lt.1 hcsr, hwindow, not_not.1 haligned⟩, rfl⟩
  · cases h
    exact .inr (setsNoSource_of_eq rfl rfl)

/-- While BUSY every write to what is locked is dropped (10_state.md R57, R60; 20_memory.md R106). -/
theorem hostWrite_locked (v : Word) (hb : s.busy = true) (h : s.LockedWrite off w) :
    s.hostWrite off w v = some s.dropped := by
  rcases h with ⟨rfl, rfl | ⟨i, hi, rfl⟩⟩ | ⟨hlo, hhi, haligned⟩
  · rw [State.hostWrite, if_pos (by decide), if_pos (by decide)]
    exact congrArg some (if_pos hb)
  · rw [State.hostWrite, if_pos (by omega), if_pos ⟨rfl, by omega⟩, State.writeCsr]
    iterate 5 rw [if_neg (by omega)]
    rw [if_pos (by omega), if_pos hb]
  · rw [State.hostWrite, if_neg (by omega), if_pos hhi, if_neg (not_not.2 haligned), if_pos hb]

/-- A host access is a dropped write, which leaves DONE, or sets no source; a read and BUSERR are of the second kind
(R406, R410). -/
theorem hostAccess_sources (s : State) (a : Access) :
    (s.busy = true ∧ (∃ off w v, a = .write off w v ∧ s.LockedWrite off w) ∧
      (s.hostAccess a).intDone = s.intDone) ∨ SetsNoSource s (s.hostAccess a) := by
  cases a with
  | read off w =>
    simp only [State.hostAccess]
    split <;> exact .inr (setsNoSource_of_eq rfl rfl)
  | write off w v =>
    cases hwrite : s.hostWrite off w v with
    | none =>
      rw [hostAccess_write_busErr v hwrite]
      exact .inr (setsNoSource_of_eq rfl rfl)
    | some u =>
      rw [hostAccess_write_okay v hwrite]
      rcases hostWrite_sources hwrite with ⟨hb, hlocked, rfl⟩ | hnone
      · exact .inl ⟨hb, ⟨off, w, v, rfl, hlocked⟩, rfl⟩
      · exact .inr hnone

/-! ### Every step -/

/-- A step completes the running command in the core's turn, drops a host write, which leaves DONE, or sets no source. -/
theorem step_sources (h : step s = .next t) :
    (s.CoreTurn ∧ s.busy = true ∧ Completed s t) ∨
    (s.busy = true ∧ (∃ off w v rest, s.schedule = .host (.write off w v) :: rest ∧ s.LockedWrite off w) ∧
      t.intDone = s.intDone) ∨
    SetsNoSource s t := by
  rcases step_cases h with ⟨hturn, hcore⟩ | ⟨rest, -, rfl⟩ | ⟨a, rest, hs, rfl⟩
  · rcases coreStep_sources hcore with ⟨hb, hdone⟩ | ⟨-, hnone⟩
    · exact .inl ⟨hturn, hb, hdone⟩
    · exact .inr (.inr hnone)
  · rw [waitStep_eq]
    exact .inr (.inr (setsNoSource_of_eq rfl rfl))
  · rcases hostAccess_sources { s with schedule := rest } a with ⟨hb, ⟨off, w, v, rfl, hlocked⟩, hsame⟩ | hnone
    · exact .inr (.inl ⟨hb, ⟨off, w, v, rest, hs, hlocked⟩, hsame⟩)
    · exact .inr (.inr hnone)

end

/-- Settles O16: what sets a source from the three kinds of step, and that a completion and a dropped write do from the
rules of the core's turn and of the write. -/
theorem interruptSourcesAreCompletionsAndDroppedWrites : Obligations.InterruptSourcesAreCompletionsAndDroppedWrites := by
  refine ⟨fun _ => rfl, fun s t h => ⟨?done, ?completion, ?ovr, ?dropped⟩⟩
  case done =>
    intro hclear hset
    rcases step_sources h with ⟨hturn, hb, hidle, -⟩ | ⟨-, -, hsame⟩ | hnone
    · exact ⟨hturn, hb, hidle⟩
    · exact absurd hset (by simp [hsame, hclear])
    · exact absurd hset (hnone.not_done hclear)
  case completion =>
    intro hturn hb hidle
    rw [step_coreTurn hturn] at h
    rcases coreStep_sources h with ⟨-, -, hdone, -⟩ | ⟨hsame, -⟩
    · exact hdone
    · exact absurd hidle (by simp [hsame, hb])
  case ovr =>
    intro hclear hset
    rcases step_sources h with ⟨-, -, -, -, hsame⟩ | ⟨hb, hdropped, -⟩ | hnone
    · exact absurd hset (by simp [hsame, hclear])
    · exact ⟨hb, hdropped⟩
    · exact absurd hset (hnone.not_ovr hclear)
  case dropped =>
    intro off w v rest hb hs hlocked
    rw [step_host hs, hostAccess_write_okay v (hostWrite_locked (s := { s with schedule := rest }) v hb hlocked)] at h
    cases h
    rfl

end Sys2Proof.Machine
end

section
/-! SUPPORT. Power-on and the soft reset (70_reset_and_hazards.md R450, R452): the power-on state is legal and its registers
read the reset table; a write to CTRL is the soft reset or nothing. -/

namespace Sys2Proof.Machine

theorem powerOn_legal {n : Nat} {m : Memory} (hsize : LegalSize n) (hwf : m.wf = true) (hwithin : m.within n = true) :
    (State.powerOn n m).Legal :=
  ⟨hsize, ⟨hwf, hwithin⟩, iv_legal, fun _ => rfl, nofun, ⟨rfl, rfl⟩, Nat.zero_le _⟩

/-- Settles O12: the reset state is the power-on of the reference size with no byte listed (logs 1, 2). -/
theorem powerOnIsLegal : Obligations.PowerOnIsLegal :=
  ⟨fun _ _ => powerOn_legal, powerOn_legal (by decide) rfl rfl⟩

section
variable (n : Nat) (m : Memory) {i : Nat}

/-- The IV, word by word (41_sm3.md R240). -/
theorem sm3Iv_getElem : ∀ (i : Nat) (h : i < 8), sm3Iv[i] =
    [0x7380166F, 0x4914B2B9, 0x172442D7, 0xDA8A0600, 0xA96F30BC, 0x163138AA, 0xE38DEE4D, 0xB0FB0E4E].getD i 0 := by
  decide

theorem powerOn_readCsr_arg (h : i < 8) : (State.powerOn n m).readCsr (0x040 + 4 * i) = some (.exact 0) := by
  rw [readCsr_arg _ h]
  simp

theorem powerOn_readCsr_sm3V (h : i < 8) : (State.powerOn n m).readCsr (0x100 + 4 * i) = some (.exact sm3Iv[i]) :=
  readCsr_sm3V _ rfl h

/-- The words put together from fields that are all 0 (10_state.md R54-R56, R62). -/
theorem powerOn_words : (State.powerOn n m).statusWord = 0 ∧ (State.powerOn n m).intStatusWord = 0 ∧
    (State.powerOn n m).intEnableWord = 0 ∧ (State.powerOn n m).bitLenLo = 0 ∧ (State.powerOn n m).bitLenHi = 0 := by
  simp [State.statusWord, State.intStatusWord, State.intEnableWord, State.bitLenLo, State.bitLenHi, Sm3Context.iv]

end

/-- Settles O14: the two arrays of words by their index, every other register by its offset. -/
theorem powerOnRegisterValues : Obligations.PowerOnRegisterValues := by
  intro n m s
  obtain ⟨hstatus, hintStatus, hintEnable, hlo, hhi⟩ := powerOn_words n m
  have reads {off : Nat} {v w : Word} (h : s.readCsr off = some (.exact v)) (hv : v = w) :
      s.readCsr off = some (.exact w) := hv ▸ h
  refine ⟨rfl, rfl, rfl, rfl, reads rfl hstatus, reads rfl hintStatus, reads rfl hintEnable, rfl, rfl,
    fun i hi => powerOn_readCsr_arg n m hi, fun i hi => ?sm3V, rfl, reads rfl hlo, reads rfl hhi,
    fun i hi => ?roundKeys, fun i hi => ?latched, rfl, rfl, rfl⟩
  case sm3V => rw [powerOn_readCsr_sm3V n m hi, sm3Iv_getElem i hi]
  case roundKeys => exact Vector.getElem_replicate hi
  case latched => exact Vector.getElem_replicate hi

theorem hostAccess_ctrl (s : State) (v : Word) :
    s.hostAccess (.write 0x010 .w32 v) = { (if v.getLsbD 0 then s.softReset else s) with response := some .okay } :=
  hostAccess_writeCsr s (off := 0x010) (by decide) rfl

/-- A write to CTRL with bit 0 = 1 is the soft reset (10_state.md R53, R452). -/
theorem hostAccess_ctrl_reset (s : State) {v : Word} (h : v.getLsbD 0 = true) :
    s.hostAccess (.write 0x010 .w32 v) = { s.softReset with response := some .okay } := by
  rw [hostAccess_ctrl, if_pos h]

/-- A write to CTRL with bit 0 = 0 has no effect (10_state.md R53). -/
theorem hostAccess_ctrl_noReset (s : State) {v : Word} (h : v.getLsbD 0 = false) :
    s.hostAccess (.write 0x010 .w32 v) = { s with response := some .okay } := by
  rw [hostAccess_ctrl, if_neg (ne_true_of_eq_false h)]

/-- Settles O15: the write to CTRL asks nothing of BUSY. -/
theorem softResetRestoresPowerOnAndKeepsLmem : Obligations.SoftResetRestoresPowerOnAndKeepsLmem := fun s _ =>
  ⟨hostAccess_ctrl_reset s, hostAccess_ctrl_noReset s⟩

end Sys2Proof.Machine
end

section
/-! SUPPORT. The busy window (70_reset_and_hazards.md R460): dropped writes, reads of an unspecified value, and the registers
that answer as they do while idle. -/

namespace Sys2Proof.Machine

section
variable {s : State} {off o i : Nat} {w : Width}

/-- A write to what is locked only sets OVR (60_exceptions.md R410). -/
theorem hostAccess_locked (v : Word) (hb : s.busy = true) (h : s.LockedWrite off w) :
    s.hostAccess (.write off w v) = { s with intOvr := true, response := some .okay } :=
  hostAccess_write_okay v (hostWrite_locked v hb h)

/-- A read of an unspecified value takes the next free value (log 8). -/
theorem hostAccess_read_unspecified (h : s.hostRead off w = some .unspecified) :
    s.hostAccess (.read off w) =
      { s with response := some (.data (narrow w (Config.busyReadValue s.busyReads))), busyReads := s.busyReads + 1 } := by
  simp only [State.hostAccess, h]

/-- LMEM is unspecified to a host read while BUSY (20_memory.md R106). -/
theorem hostRead_lmem_busy (hb : s.busy = true) (ho : o < s.lmemSize) (haligned : o % w.bytes = 0) :
    s.hostRead (0x10000 + o) w = some .unspecified := by
  have hregion : ¬0x10000 + o < 0x10000 := by omega
  obtain ⟨hwindow, hwidth⟩ := (accessible_lmem_iff s _ w hregion).1 (accessible_lmem ho haligned)
  rw [State.hostRead, if_neg hregion, if_pos hwindow, if_neg (not_not.2 hwidth), if_pos hb]

/-- So is an `SM3_Vi` (10_state.md R60). -/
theorem hostRead_sm3V_busy (hb : s.busy = true) (h : i < 8) : s.hostRead (0x100 + 4 * i) .w32 = some .unspecified := by
  rw [State.hostRead, if_pos (by omega), if_pos ⟨rfl, by omega⟩, State.readCsr]
  iterate 10 rw [if_neg (by omega)]
  rw [if_pos (by omega), if_pos hb]

/-- Every register but the `SM3_Vi` reads its value in every state, busy or idle. -/
theorem readCsr_exact_of_not_sm3V (s : State) (hmapped : off ∈ mappedCsrs) (hoff : ¬(0x100 ≤ off ∧ off ≤ 0x11C)) :
    ∃ v, s.readCsr off = some (.exact v) := by
  rcases (mem_mappedCsrs_iff off).1 hmapped with
    rfl | rfl | rfl | rfl | rfl | rfl | rfl | rfl | rfl | harg | hsm3 | rfl | rfl | rfl
  any_goals exact ⟨_, rfl⟩
  · obtain ⟨i, hi, rfl⟩ : ∃ i < 8, off = 0x040 + 4 * i := ⟨(off - 0x040) / 4, by omega, by omega⟩
    exact ⟨s.args[i], readCsr_arg s hi⟩
  · omega

end

/-- Settles O17: one rule of the host bus for each row of the busy-window table. The rows of the registers that are open
while BUSY, and of BUSERR, are the rules that hold in every state. -/
theorem busyWindowEffects : Obligations.BusyWindowEffects := by
  intro s hb
  refine ⟨fun w => ?cmd, fun i v hi => ?sm3V, fun off w v ho haligned => ?lmem, fun off w ho haligned => ?readLmem,
    fun i hi => ?readSm3V, fun i v hi => ?arg, fun v => ?intStatus, fun v => ?intEnable,
    fun _ => hostAccess_ctrl_reset s, fun _ => hostAccess_ctrl_noReset s, fun off hoff v => ?readOnly,
    fun off hmapped hoff => ?readExact, fun off w v => (busErrorsChangeNothing s off w v).1⟩
  case cmd => exact hostAccess_locked w hb (.inl ⟨rfl, .inl rfl⟩)
  case sm3V => exact hostAccess_locked v hb (.inl ⟨rfl, .inr ⟨i, hi, rfl⟩⟩)
  case lmem =>
    have hregion : ¬0x10000 + off < 0x10000 := by omega
    have hwindow := (accessible_lmem_iff s _ w hregion).1 (accessible_lmem ho haligned)
    exact hostAccess_locked v hb (.inr ⟨not_lt.1 hregion, hwindow⟩)
  case readLmem => exact hostAccess_read_unspecified (hostRead_lmem_busy hb ho haligned)
  case readSm3V => exact hostAccess_read_unspecified (hostRead_sm3V_busy hb hi)
  case arg => exact hostAccess_writeCsr s (by omega) (writeCsr_arg s v hi)
  case intStatus => exact hostAccess_writeCsr s (off := 0x018) (by decide) rfl
  case intEnable => exact hostAccess_writeCsr s (off := 0x01C) (by decide) rfl
  case readOnly => exact (idleRegisterWrites s v).2 off hoff
  case readExact =>
    obtain ⟨v, hv⟩ := readCsr_exact_of_not_sm3V s hmapped hoff
    exact ⟨v, hv, hostAccess_readCsr s (mappedCsrs_aligned off hmapped) hv⟩

end Sys2Proof.Machine
end
